-- ==== Sys2Proof/Config.lean ====
section
/-! DEFINITION. The implementation parameters of the VLC unit (spec 00_scope.md, rules R5 to R10). The capacities
MAX_IN and MAX_OUT are OPEN in the spec and are therefore fields of the state, of the type given here. -/

namespace Sys2Proof.Config

/-- The Golomb divisor (R5). -/
abbrev m : Nat := 8

/-- The Golomb remainder width, `ceil(log2 m)` (R6). -/
abbrev remainderBits : Nat := 3

/-- VAL_W, the width of ARG, RES and of the elements of IN and OUT (R7). DESIGN CHOICE of the spec (D3), log entry 3. -/
abbrev valW : Nat := 32

/-- VAL_MAX, the largest number a register of VAL_W bits holds (R7). -/
abbrev valMax : Nat := 2 ^ valW - 1

/-- SYM_MAX, the largest symbol of a text (R8). DESIGN CHOICE of the spec (D4), log entry 3. -/
abbrev symMax : Nat := 255

/-- FIB_CEIL, the ceiling of the Fibonacci decoder's table (R10). -/
abbrev fibCeil : Nat := valMax

/-- The remainder width is `ceil(log2 m)` (R6), and VAL_W and SYM_MAX are legal values (R7, R8; 10_state.md R26). -/
theorem parameters_legal :
    (2 ^ (remainderBits - 1) < m ∧ m ≤ 2 ^ remainderBits) ∧ 8 ≤ valW ∧ 1 ≤ symMax ∧
      symMax ≤ min 1114111 valMax := by
  decide

/-- A capacity, MAX_IN or MAX_OUT (R9): a greatest number of elements, or `none` for unbounded. -/
abbrev Capacity := Option Nat

/-- `Admits cap n`: a sequence register of capacity `cap` can hold `n` elements (R9). -/
abbrev Capacity.admits (cap : Capacity) (n : Nat) : Bool :=
  match cap with
  | none => true
  | some k => decide (n ≤ k)

end Sys2Proof.Config
end

