-- ==== Sys2Proof/Word.lean ====
section
/-! DEFINITION. The words and bit sequences of the VLC unit (spec 00_scope.md R7, R12, R15). -/

namespace Sys2Proof

/-- A VAL_W-bit unsigned word: ARG, RES and the elements of IN and OUT (R7, R15). -/
abbrev Word := BitVec 32

/-- A byte of the tree rendering (R105). -/
abbrev Byte := BitVec 8

/-- A bit sequence; element 0 is first on the wire (R12). -/
abbrev Bits := List Bool

/-- The word has the width the parameter VAL_W names (R7). -/
theorem word_width : Word = BitVec Config.valW := rfl

end Sys2Proof
end

