-- ==== Sys2Proof/Syntax.lean ====
section
/-! DEFINITION. The sixteen commands of the VLC unit, one constructor per row of spec/opcode_table.json (spec
30_encoding.md R46), and the two fields of a command byte (R45). A command carries no operand: its operands stand in
the registers ARG and IN (R47). -/

namespace Sys2Proof

/-- A command of the opcode map (R46). -/
inductive Instr where
  /-- GR.ENC, 0x10: encode ARG as a Golomb-Rice codeword (R66). -/
  | grEnc
  /-- GR.DEC, 0x11: decode the first Golomb-Rice codeword of IN (R67). -/
  | grDec
  /-- GR.ENCT, 0x12: Golomb-Rice encode the text in IN (R68). -/
  | grEnct
  /-- GR.DECT, 0x13: Golomb-Rice decode the stream in IN (R69). -/
  | grDect
  /-- EG.ENC, 0x20: encode ARG as an Elias-Gamma codeword (R76). -/
  | egEnc
  /-- EG.DEC, 0x21: decode the first Elias-Gamma codeword of IN (R77). -/
  | egDec
  /-- EG.ENCT, 0x22: Elias-Gamma encode the text in IN (R78). -/
  | egEnct
  /-- EG.DECT, 0x23: Elias-Gamma decode the stream in IN (R79). -/
  | egDect
  /-- FIB.ENC, 0x30: encode ARG as a Fibonacci codeword (R90). -/
  | fibEnc
  /-- FIB.DEC, 0x31: decode the first Fibonacci codeword of IN (R91). -/
  | fibDec
  /-- FIB.ENCT, 0x32: Fibonacci encode the text in IN (R92). -/
  | fibEnct
  /-- FIB.DECT, 0x33: Fibonacci decode the stream in IN (R93). -/
  | fibDect
  /-- FIB.GEN, 0x34: the Fibonacci numbers up to ARG (R89). -/
  | fibGen
  /-- HUF.ENC, 0x42: build a Huffman code from the text in IN, encode the text, keep the code (R106). -/
  | hufEnc
  /-- HUF.DEC, 0x43: decode IN with the kept code (R107). -/
  | hufDec
  /-- HUF.DISP, 0x45: render the kept tree (R108). -/
  | hufDisp
deriving DecidableEq, Repr

/-- The codec a command belongs to, the field CMD[7:4] (R45). -/
inductive Codec where
  | gr | eg | fib | huf
deriving DecidableEq, Repr

/-- The operation of a command, the field CMD[3:0] (R45). -/
inductive Op where
  | enc | dec | enct | dect | gen | disp
deriving DecidableEq, Repr

end Sys2Proof
end

