-- ==== Sys2Proof/WellFormed.lean ====
section
/-! DEFINITION. Which command bytes are commands, from the spec's list of reserved values (spec 30_encoding.md R48),
written without the decoder so that the two can be held against each other. A command of `Instr` has no operand
field (R47), so every term of `Instr` is well formed, and the checks here are on the byte. -/

namespace Sys2Proof

/-- The reserved CMD values, range by range as R48 lists them. -/
def reservedCmd (b : BitVec 8) : Bool :=
  let v := b.toNat
  (v ≤ 0x0F) || (0x14 ≤ v && v ≤ 0x1F) || (0x24 ≤ v && v ≤ 0x2F) || (0x35 ≤ v && v ≤ 0x3F)
    || v == 0x40 || v == 0x41 || v == 0x44 || (0x46 ≤ v)

/-- A command byte is well formed when its value is not reserved (R48). -/
def wellFormedCmd (b : BitVec 8) : Bool := !reservedCmd b

/-- Every command is well formed: it has no field that could be out of range (R47: "No operand is an immediate
inside CMD"). -/
def Instr.wf (i : Instr) : Bool :=
  match i with
  | .grEnc => true
  | .grDec => true
  | .grEnct => true
  | .grDect => true
  | .egEnc => true
  | .egDec => true
  | .egEnct => true
  | .egDect => true
  | .fibEnc => true
  | .fibDec => true
  | .fibEnct => true
  | .fibDect => true
  | .fibGen => true
  | .hufEnc => true
  | .hufDec => true
  | .hufDisp => true

end Sys2Proof
end

