-- ==== Sys2Proof/Decode.lean ====
section
/-! DEFINITION. From the command byte to the command and back (spec 30_encoding.md R45, R46, R48). -/

namespace Sys2Proof

/-- Why a command byte is no command (R45, R48). -/
inductive DecodeError where
  /-- CMD[7:4] names no codec. -/
  | reservedCodec
  /-- CMD[3:0] names no operation. -/
  | reservedOp
  /-- The codec has no such operation (for example 0x44: Huffman has no GEN). -/
  | noSuchCommand
deriving DecidableEq, Repr

/-- The field CMD[7:4] (R45). -/
def codecField (b : BitVec 8) : BitVec 4 := b.extractLsb' 4 4

/-- The field CMD[3:0] (R45). -/
def opField (b : BitVec 8) : BitVec 4 := b.extractLsb' 0 4

/-- The codec a field value names; every value not listed in R45 is reserved. -/
def codecOf (f : BitVec 4) : Option Codec :=
  match f.toNat with
  | 1 => some .gr
  | 2 => some .eg
  | 3 => some .fib
  | 4 => some .huf
  | _ => none

/-- The operation a field value names; every value not listed in R45 is reserved. -/
def opOf (f : BitVec 4) : Option Op :=
  match f.toNat with
  | 0 => some .enc
  | 1 => some .dec
  | 2 => some .enct
  | 3 => some .dect
  | 4 => some .gen
  | 5 => some .disp
  | _ => none

/-- The opcode map (R46): the command a codec and an operation select, if there is one. The document's Huffman
operations take and return texts, so they stand in the ENCT and DECT places. -/
def commandOf (c : Codec) (o : Op) : Option Instr :=
  match c, o with
  | .gr, .enc => some .grEnc
  | .gr, .dec => some .grDec
  | .gr, .enct => some .grEnct
  | .gr, .dect => some .grDect
  | .eg, .enc => some .egEnc
  | .eg, .dec => some .egDec
  | .eg, .enct => some .egEnct
  | .eg, .dect => some .egDect
  | .fib, .enc => some .fibEnc
  | .fib, .dec => some .fibDec
  | .fib, .enct => some .fibEnct
  | .fib, .dect => some .fibDect
  | .fib, .gen => some .fibGen
  | .huf, .enct => some .hufEnc
  | .huf, .dect => some .hufDec
  | .huf, .disp => some .hufDisp
  | _, _ => none

/-- The decoder: total on any byte, naming why it rejects one (R45, R46, R48). -/
def decode (b : BitVec 8) : Except DecodeError Instr :=
  match codecOf (codecField b) with
  | none => .error .reservedCodec
  | some c =>
    match opOf (opField b) with
    | none => .error .reservedOp
    | some o =>
      match commandOf c o with
      | none => .error .noSuchCommand
      | some i => .ok i

/-- The encoder: the CMD value of a command, from the table of R46. -/
def encode (i : Instr) : BitVec 8 :=
  match i with
  | .grEnc => 0x10
  | .grDec => 0x11
  | .grEnct => 0x12
  | .grDect => 0x13
  | .egEnc => 0x20
  | .egDec => 0x21
  | .egEnct => 0x22
  | .egDect => 0x23
  | .fibEnc => 0x30
  | .fibDec => 0x31
  | .fibEnct => 0x32
  | .fibDect => 0x33
  | .fibGen => 0x34
  | .hufEnc => 0x42
  | .hufDec => 0x43
  | .hufDisp => 0x45

/-- The command the decoder reads from a table word of `nbits` bits. A command is exactly 8 bits (R45), so any other
length, and any bit above the eighth, is no command. -/
def decodeTableWord (nbits w : Nat) : Option Instr :=
  if nbits = 8 ∧ w < 256 then
    match decode (BitVec.ofNat 8 w) with
    | .ok i => some i
    | .error _ => none
  else none

end Sys2Proof
end

