-- ==== Sys2Proof/Machine/State.lean ====
section
/-! DEFINITION. The state of the VLC unit (spec 10_state.md R17 to R31), plain data, and its reset (spec
70_reset_and_hazards.md R151). -/

namespace Sys2Proof.Machine

/-- Why the machine stops. A command never stops it: its errors are status codes (60_exceptions.md R131). -/
inductive Fault where
  /-- Raised by the host's write of IN when the sequence is longer than MAX_IN: "the register admits no more"
  (20_memory.md R38). SAFE: no claim is made of a run that breaks what the host owes. -/
  | inOverlong
deriving DecidableEq, Repr

/-- Why an instruction has no meaning. -/
inductive Refusal where
  /-- Raised by an arm of `exec` whose instruction has no meaning yet. SAFE. No arm raises it now. -/
  | notModelled (mnemonic : String)
deriving DecidableEq, Repr

/-- A node of the Huffman tree arena (R28). Frequencies and handles are counts, so naturals; a symbol is an element of
a text, so a word. -/
inductive HufNode where
  | leaf (symbol : Word) (freq : Nat)
  | internal (freq left right : Nat)
deriving DecidableEq, Repr

/-- HUF_TREE (R28): the arena of nodes, indexed by handle, and the root. -/
structure HufTree where
  nodes : List HufNode
  root : Option Nat
deriving DecidableEq, Repr

/-- HUF, the persistent Huffman state (R27). `table` is the partial map HUF_TABLE as its list of (symbol, codeword)
pairs, symbols strictly rising, so that equal maps are equal lists (log entry 6). -/
structure Huf where
  valid : Bool
  tree : HufTree
  table : List (Word × Bits)
deriving DecidableEq, Repr

/-- The registers the host can read (20_memory.md R38, row "read results"). -/
inductive HostReg where
  | out | res | cnt | status | hufValid | paramM | paramRbits | paramValw | paramSymmax
deriving DecidableEq, Repr

/-- One interaction of the host with the unit (20_memory.md R38). -/
inductive HostMove where
  /-- write CMD -/
  | writeCmd (v : BitVec 8)
  /-- write ARG -/
  | writeArg (v : Word)
  /-- write IN -/
  | writeIn (v : List Word)
  /-- start the command of CMD; it completes in the same step (R36) -/
  | start
  /-- read a result register -/
  | read (r : HostReg)
  /-- request a reset, between commands (R153) -/
  | reset
deriving DecidableEq, Repr

/-- The whole state: the registers of 10_state.md, the two OPEN capacities of 00_scope.md R9 (which nothing writes),
and the host's remaining moves, oldest first, whose head takes the place of a program counter (R30, 20_memory.md R39;
log entry 1). The constants FIB_TABLE and P0 to P3 (R25, R26) are hard-wired, `fibTable` and `paramM` to `paramSymmax`, and need
no field (log entry 5). -/
structure State where
  /-- CMD (R18) -/
  cmd : BitVec 8
  /-- ARG (R19) -/
  arg : Word
  /-- IN (R20) -/
  inp : List Word
  /-- OUT (R21) -/
  out : List Word
  /-- RES (R22) -/
  res : Word
  /-- CNT (R23) -/
  cnt : Nat
  /-- STATUS (R24) -/
  status : BitVec 8
  /-- HUF (R27) -/
  huf : Huf
  /-- MAX_IN (R9) -/
  maxIn : Config.Capacity
  /-- MAX_OUT (R9) -/
  maxOut : Config.Capacity
  /-- the host's remaining moves (the model's own field) -/
  hostMoves : List HostMove
deriving DecidableEq, Repr

/-- HUF after reset: not valid, empty arena with root none, empty table (R27). -/
def Huf.reset : Huf := { valid := false, tree := { nodes := [], root := none }, table := [] }

/-- The unit after reset (R151), with both capacities at their default, unbounded (R9), and no move of the host
pending: "it does nothing until the host starts a command" (20_memory.md R37). -/
def State.reset : State :=
  { cmd := 0x00, arg := 0, inp := [], out := [], res := 0, cnt := 0, status := 0, huf := Huf.reset,
    maxIn := none, maxOut := none, hostMoves := [] }

end Sys2Proof.Machine
end

