-- ==== Sys2Proof/Machine/Flags.lean ====
section
/-! DEFINITION. STATUS, the block's only condition state (spec 10_state.md R24, R30): the errors a command can raise
and the code each leaves in STATUS (spec 60_exceptions.md R131). -/

namespace Sys2Proof.Machine

/-- An error that ends a command (R131). -/
inductive Err where
  /-- An operand outside the codec's domain (R132). -/
  | invalidInput
  /-- A bit stream that cannot be parsed (R134, R135). -/
  | malformedStream
  /-- A Huffman decode or display with no code kept (R136). -/
  | statePrecondition
  /-- A reserved CMD value was started (R137). -/
  | illegalCommand
  /-- The output would exceed MAX_OUT (R138). -/
  | capacityExceeded
deriving DecidableEq, Repr

/-- The STATUS value of a command that completed (R131). -/
def statusOk : BitVec 8 := 0

/-- The STATUS value of an error (R131). The codes 6 to 255 are never written. -/
def Err.code (e : Err) : BitVec 8 :=
  match e with
  | .invalidInput => 1
  | .malformedStream => 2
  | .statePrecondition => 3
  | .illegalCommand => 4
  | .capacityExceeded => 5

end Sys2Proof.Machine
end

