-- ==== Sys2Proof/Machine/Ops.lean ====
section
/-! DEFINITION. The named operations every command is made of: bit sequences (spec 00_scope.md R13), emission into the
output (spec 20_memory.md R44), completing a command and raising an error (spec 60_exceptions.md R143), the shared
loops of the text commands, and the host's reads and writes (spec 20_memory.md R38). -/

namespace Sys2Proof.Machine

/-! ### Bit sequences (R13) -/

/-- `zeros(k)` (R13). -/
def zeros (k : Nat) : Bits := List.replicate k false

/-- `ones(k)` (R13). -/
def ones (k : Nat) : Bits := List.replicate k true

/-- `bin(v, w)`: the `w`-bit binary form of `v`, most significant bit first (R13). -/
def bin (v w : Nat) : Bits :=
  match w with
  | 0 => []
  | w + 1 => bin (v / 2) w ++ [v % 2 == 1]

/-- `val(s)`: the natural a bit sequence denotes, read most significant bit first (R13). -/
def val (s : Bits) : Nat := s.foldl (fun a b => 2 * a + b.toNat) 0

/-- `minbin(v)`: the binary form of `v >= 1` with no leading zero (R13). -/
def minbin (v : Nat) : Bits := bin v (Nat.log2 v + 1)

/-- A bit as an element of OUT (R21). -/
def bitWord (b : Bool) : Word := if b then 1 else 0

/-- A bit sequence as elements of OUT (R21). -/
def bitWords (s : Bits) : List Word := s.map bitWord

/-! ### Emission (R44) -/

/-- `Emit(o, e)`: append one element to the local output, or raise CapacityExceeded at MAX_OUT (R44, R138). -/
def emit (cap : Config.Capacity) (o : List Word) (e : Word) : Except Err (List Word) :=
  if cap = some o.length then .error .capacityExceeded else .ok (o ++ [e])

/-- `EmitAll(o, s)` (R44). -/
def emitAll (cap : Config.Capacity) (o : List Word) (s : List Word) : Except Err (List Word) :=
  match s with
  | [] => .ok o
  | e :: t => do
    let o ← emit cap o e
    emitAll cap o t

/-! ### The end of a command (R143) -/

/-- What a command that returns OK writes: OUT, RES, CNT, and HUF when it computed one (R143). A result the command
does not produce is written empty or 0 (R21 to R23). -/
structure Completion where
  out : List Word := []
  res : Word := 0
  cnt : Nat := 0
  huf : Option Huf := none
deriving DecidableEq, Repr

/-- Taking an exception: STATUS gets the code, OUT is emptied, RES and CNT are zeroed, and "only these" are written
(R143). There is no handler and no return from it (R144): the next command simply runs. -/
def State.raise (s : State) (e : Err) : State :=
  { s with status := e.code, out := [], res := 0, cnt := 0 }

/-- Returning OK: the results are written together with STATUS = 0, and HUF if the command computed one (R36,
R143). -/
def State.complete (s : State) (c : Completion) : State :=
  { s with status := statusOk, out := c.out, res := c.res, cnt := c.cnt, huf := c.huf.getD s.huf }

/-- The end of a command whose pseudocode gave `r`: it always goes on to a next state (R139, R144). -/
def State.finish (s : State) (r : Except Err Completion) : Host.Outcome State Fault Refusal :=
  match r with
  | .ok c => .next (s.complete c)
  | .error e => .next (s.raise e)

/-! ### Loops the codecs share -/

/-- Counts the 0 bits before the first 1 and gives the bits from that 1 on; MalformedStream when there is no 1 (the
unary scan of R64 and R74). -/
def unaryPrefix (s : Bits) : Except Err (Nat × Bits) :=
  match s with
  | [] => .error .malformedStream
  | true :: t => .ok (0, true :: t)
  | false :: t => do
    let (q, u) ← unaryPrefix t
    return (q + 1, u)

/-- The single encode commands: emit one codeword from an empty output (R66, R76, R90). -/
def encodeOne (cap : Config.Capacity) (code : Bits) : Except Err Completion := do
  let o ← emitAll cap [] (bitWords code)
  return { out := o }

/-- The single decode commands: the first codeword's value to RES and its length to CNT, unless the value does not fit
RES (R67, R77, R91). `dec` gives a codeword's value and its length in bits. -/
def decodeOne (dec : Bits → Except Err (Nat × Nat)) (s : Bits) : Except Err Completion := do
  let (v, n) ← dec s
  if v > Config.valMax then
    .error .malformedStream
  else
    return { res := BitVec.ofNat 32 v, cnt := n }

/-- The loop of the text encoders: each symbol's codeword in text order (R68, R78, R92). -/
def encodeLoop (cap : Config.Capacity) (code : Word → Except Err Bits) (o : List Word) (text : List Word) :
    Except Err (List Word) :=
  match text with
  | [] => .ok o
  | c :: t => do
    let w ← code c
    let o ← emitAll cap o (bitWords w)
    encodeLoop cap code o t

/-- The text encoders, from an empty output. -/
def encodeText (cap : Config.Capacity) (code : Word → Except Err Bits) (text : List Word) : Except Err Completion := do
  let o ← encodeLoop cap code [] text
  return { out := o }

/-- The loop of the text decoders over the bits not yet read: a codeword, its range check, its emission (R69, R79,
R93). Each pass reads at least one bit, so `fuel` passes are enough for `fuel` bits; the exhausted case is not reached
(log entry 7). -/
def decodeLoop (cap : Config.Capacity) (dec : Bits → Except Err (Nat × Nat)) (fuel : Nat) (o : List Word) (s : Bits) :
    Except Err (List Word) :=
  match fuel, s with
  | _, [] => .ok o
  | 0, _ :: _ => .error .malformedStream
  | fuel + 1, b :: t => do
    let (v, n) ← dec (b :: t)
    if v > Config.symMax then
      .error .malformedStream
    else do
      let o ← emit cap o (BitVec.ofNat 32 v)
      decodeLoop cap dec fuel o ((b :: t).drop n)

/-- The text decoders, from an empty output. -/
def decodeText (cap : Config.Capacity) (dec : Bits → Except Err (Nat × Nat)) (s : Bits) : Except Err Completion := do
  let o ← decodeLoop cap dec s.length [] s
  return { out := o }

/-! ### The host's side (R38) -/

/-- The command byte a start reads: CMD as it stands (R18, R36). -/
def fetchCommand (s : State) : BitVec 8 := s.cmd

/-- Starting a reserved command: IllegalCommand, no operand read (R48, R137). -/
def startReserved (s : State) : Host.Outcome State Fault Refusal := .next (s.raise .illegalCommand)

/-- The host writes CMD (R18, R38). -/
def hostWriteCmd (s : State) (v : BitVec 8) : State := { s with cmd := v }

/-- The host writes ARG (R19, R38). -/
def hostWriteArg (s : State) (v : Word) : State := { s with arg := v }

/-- The host writes IN; a sequence longer than MAX_IN cannot be written, "the register admits no more" (R20, R38; log
entry 4). -/
def hostWriteIn (s : State) (v : List Word) : Host.Outcome State Fault Refusal :=
  if s.maxIn.admits v.length then .next { s with inp := v } else .fault .inOverlong

/-- The host's reset: every writable register to its reset value; the capacities are parameters and the rest of the
host's list is the host's, so both stay (R151; log entries 1 and 2). -/
def hostReset (s : State) : State :=
  { State.reset with maxIn := s.maxIn, maxOut := s.maxOut, hostMoves := s.hostMoves }

/-- The host takes its next move off its list (R39; log entry 1). -/
def State.withMoves (s : State) (rest : List HostMove) : State := { s with hostMoves := rest }

/-- `s` with the command byte `b` in CMD and a start as the host's next move, so that the next step runs `b`. -/
def placeCommand (s : State) (b : BitVec 8) : State := { s with cmd := b, hostMoves := .start :: s.hostMoves }

/-- P0, PARAM_M: 8 bits, read-only, hard-wired to the Golomb divisor (R26). -/
def paramM : BitVec 8 := BitVec.ofNat 8 Config.m

/-- P1, PARAM_RBITS: 8 bits, read-only, hard-wired to the Golomb remainder width (R26). -/
def paramRbits : BitVec 8 := BitVec.ofNat 8 Config.remainderBits

/-- P2, PARAM_VALW: 8 bits, read-only, hard-wired to VAL_W (R26). -/
def paramValw : BitVec 8 := BitVec.ofNat 8 Config.valW

/-- P3, PARAM_SYMMAX: VAL_W bits, read-only, hard-wired to SYM_MAX (R26). -/
def paramSymmax : BitVec Config.valW := BitVec.ofNat Config.valW Config.symMax

/-- What the host gets back from a read, at the width of the register it reads. -/
inductive HostValue where
  /-- a sequence register: OUT (R21) -/
  | seq (v : List Word)
  /-- a register of 1 bit: HUF_VALID (R27) -/
  | bit (v : BitVec 1)
  /-- a register of 8 bits: STATUS, P0, P1, P2 (R24, R26) -/
  | byte (v : BitVec 8)
  /-- a register of VAL_W bits: RES, P3 (R22, R26) -/
  | word (v : Word)
  /-- CNT, a natural number (R23) -/
  | count (v : Nat)
deriving DecidableEq, Repr

/-- The host reads a register, with no effect on the unit (R36, R38). P0 to P3 are hard-wired (R26); HUF_VALID reads
as the bit 0 or 1 (R27). -/
def hostRead (s : State) (r : HostReg) : HostValue :=
  match r with
  | .out => .seq s.out
  | .res => .word s.res
  | .cnt => .count s.cnt
  | .status => .byte s.status
  | .hufValid => .bit (BitVec.ofBool s.huf.valid)
  | .paramM => .byte paramM
  | .paramRbits => .byte paramRbits
  | .paramValw => .byte paramValw
  | .paramSymmax => .word paramSymmax

end Sys2Proof.Machine
end

