-- ==== Sys2Proof/Machine/Operands.lean ====
section
/-! DEFINITION. The operand forms of the commands (spec 30_encoding.md R47): ARG as a number, IN as bits (CheckBits),
IN as a text (CheckText) (spec 20_memory.md R44), and the kept Huffman state (spec 60_exceptions.md R136). -/

namespace Sys2Proof.Machine

/-- ARG as the unsigned number its bits denote (R47). -/
def argNat (s : State) : Nat := s.arg.toNat

/-- ARG as a strictly positive number; InvalidInput when it is 0 (R76, R90, R132). -/
def argPositive (s : State) : Except Err Nat :=
  if argNat s = 0 then .error .invalidInput else .ok (argNat s)

/-- CheckBits: IN as a bit sequence; MalformedStream when any element exceeds 1 (R44, R135). -/
def checkBits (x : List Word) : Except Err Bits :=
  if x.all (fun e => decide (e.toNat ≤ 1)) then .ok (x.map (fun e => e == 1)) else .error .malformedStream

/-- CheckText: IN as a text; InvalidInput when any element exceeds SYM_MAX (R44, R132). -/
def checkText (x : List Word) : Except Err (List Word) :=
  if x.all (fun e => decide (e.toNat ≤ Config.symMax)) then .ok x else .error .invalidInput

/-- The kept Huffman state; StatePrecondition when HUF_VALID = 0 (R107, R108, R136). -/
def keptHuf (s : State) : Except Err Huf :=
  if s.huf.valid then .ok s.huf else .error .statePrecondition

end Sys2Proof.Machine
end

