-- ==== Sys2Proof/Machine/EliasGamma.lean ====
section
/-! DEFINITION. The Elias-Gamma codec (spec 41_elias_gamma.md R73 to R80; spec 90_conflicts.md C2 on the length of a
codeword). -/

namespace Sys2Proof.Machine

/-- `EgCode(n)` for `n >= 1`: one 0 fewer than `minbin(n)` has bits, then `minbin(n)` (R51, R73). -/
def egCode (n : Nat) : Bits :=
  zeros ((minbin n).length - 1) ++ minbin n

/-- `EgDecode1(s, i)` on the bits `s[i ..]`: the value of the `z + 1` bits from the first 1 on, after `z` zeros, and
the codeword's whole length `2z + 1` (R56, R74, C2). -/
def egDecode1 (s : Bits) : Except Err (Nat × Nat) := do
  let (z, t) ← unaryPrefix s
  if t.length < z + 1 then
    .error .malformedStream
  else
    return (val (t.take (z + 1)), z + (z + 1))

/-- The codeword of a symbol of a text; the symbol 0 has none (R78, R132). -/
def egSymbol (c : Word) : Except Err Bits :=
  if c.toNat = 0 then .error .invalidInput else .ok (egCode c.toNat)

/-- EG.ENC (R76). -/
def execEgEnc (s : State) : Host.Outcome State Fault Refusal :=
  s.finish do
    let n ← argPositive s
    encodeOne s.maxOut (egCode n)

/-- EG.DEC (R77). -/
def execEgDec (s : State) : Host.Outcome State Fault Refusal :=
  s.finish do
    let b ← checkBits s.inp
    decodeOne egDecode1 b

/-- EG.ENCT (R78). -/
def execEgEnct (s : State) : Host.Outcome State Fault Refusal :=
  s.finish do
    let x ← checkText s.inp
    encodeText s.maxOut egSymbol x

/-- EG.DECT (R79). -/
def execEgDect (s : State) : Host.Outcome State Fault Refusal :=
  s.finish do
    let b ← checkBits s.inp
    decodeText s.maxOut egDecode1 b

end Sys2Proof.Machine
end

