-- ==== Sys2Proof/Machine/Fibonacci.lean ====
section
/-! DEFINITION. The Fibonacci (Zeckendorf) codec and its list generator (spec 42_fibonacci.md R83 to R94; spec
90_conflicts.md C1 on the order of the selection bits), and the ROM FIB_TABLE (spec 10_state.md R25). -/

namespace Sys2Proof.Machine

/-- The loop of FibGen from the consecutive terms `a`, `b` (R83). A pass raises `a` by at least 1, so `max + 1` passes
are enough (log entry 7). -/
def fibGenLoop (fuel max a b : Nat) : List Nat :=
  match fuel with
  | 0 => []
  | fuel + 1 => if a ≤ max then a :: fibGenLoop fuel max b (a + b) else []

/-- `FibGen(max)`: the Fibonacci numbers 1, 2, 3, 5, ... that are at most `max`, ascending (R83). -/
def fibList (max : Nat) : List Nat := fibGenLoop (max + 1) max 1 2

/-- FIB_TABLE, the decoders' ROM (R10, R25). -/
def fibTable : List Nat := fibList Config.fibCeil

/-- The greedy selection over the terms `fs`, greatest first: take each term that does not exceed what is left
(R84). -/
def greedySelect (fs : List Nat) (rem : Nat) : Bits :=
  match fs with
  | [] => []
  | f :: fs => if f ≤ rem then true :: greedySelect fs (rem - f) else false :: greedySelect fs rem

/-- `FibSelect(n)`: the selection bits in ascending term order, the bit of the term 1 first (R84, C1). -/
def fibSelect (n : Nat) : Bits := (greedySelect (fibList n).reverse n).reverse

/-- `FibCode(n)`: the selection bits, then the terminator 1 (R52, R86). -/
def fibCode (n : Nat) : Bits := fibSelect n ++ [true]

/-- The bits before the first 1 that directly follows a 1: the selection bits of the first codeword, its terminator
dropped; MalformedStream when the bits end before `"11"` (R87). `prev` is the bit read last. -/
def fibScan (prev : Bool) (s : Bits) : Except Err Bits :=
  match s with
  | [] => .error .malformedStream
  | b :: t =>
    if prev && b then .ok []
    else do
      let sel ← fibScan b t
      return b :: sel

/-- The sum of the table's terms whose selection bit is 1 (R87). -/
def fibSum (table : List Nat) (sel : Bits) : Nat :=
  (List.zipWith (fun f b => if b then f else 0) table sel).sum

/-- `FibDecode1(s, i)` on the bits `s[i ..]`: the value and the number of bits read; MalformedStream when the codeword
has more terms than FIB_TABLE (R87). -/
def fibDecode1 (s : Bits) : Except Err (Nat × Nat) := do
  let sel ← fibScan false s
  if sel.length > fibTable.length then
    .error .malformedStream
  else
    return (fibSum fibTable sel, sel.length + 1)

/-- The codeword of a symbol of a text; the symbol 0 has none (R92, R132). -/
def fibSymbol (c : Word) : Except Err Bits :=
  if c.toNat = 0 then .error .invalidInput else .ok (fibCode c.toNat)

/-- FIB.GEN (R89). -/
def execFibGen (s : State) : Host.Outcome State Fault Refusal :=
  s.finish do
    let o ← emitAll s.maxOut [] ((fibList (argNat s)).map (BitVec.ofNat 32))
    return { out := o }

/-- FIB.ENC (R90). -/
def execFibEnc (s : State) : Host.Outcome State Fault Refusal :=
  s.finish do
    let n ← argPositive s
    encodeOne s.maxOut (fibCode n)

/-- FIB.DEC (R91). -/
def execFibDec (s : State) : Host.Outcome State Fault Refusal :=
  s.finish do
    let b ← checkBits s.inp
    decodeOne fibDecode1 b

/-- FIB.ENCT (R92). -/
def execFibEnct (s : State) : Host.Outcome State Fault Refusal :=
  s.finish do
    let x ← checkText s.inp
    encodeText s.maxOut fibSymbol x

/-- FIB.DECT (R93). -/
def execFibDect (s : State) : Host.Outcome State Fault Refusal :=
  s.finish do
    let b ← checkBits s.inp
    decodeText s.maxOut fibDecode1 b

end Sys2Proof.Machine
end

