-- ==== Sys2Proof/Machine/GolombRice.lean ====
section
/-! DEFINITION. The Golomb-Rice codec with m = 8 (spec 40_golomb_rice.md R63 to R70). -/

namespace Sys2Proof.Machine

/-- `GrCode(n)`: the quotient in unary, closed by a 1, then the remainder in 3 bits (R50, R63). -/
def grCode (n : Nat) : Bits :=
  zeros (n / Config.m) ++ [true] ++ bin (n % Config.m) Config.remainderBits

/-- `GrDecode1(s, i)` on the bits `s[i ..]`: the value and the number of bits read (R56, R64). -/
def grDecode1 (s : Bits) : Except Err (Nat × Nat) := do
  let (q, t) ← unaryPrefix s
  let r := t.drop 1
  if r.length < Config.remainderBits then
    .error .malformedStream
  else
    return (q * Config.m + val (r.take Config.remainderBits), q + 1 + Config.remainderBits)

/-- GR.ENC (R66). -/
def execGrEnc (s : State) : Host.Outcome State Fault Refusal :=
  s.finish (encodeOne s.maxOut (grCode (argNat s)))

/-- GR.DEC (R67). -/
def execGrDec (s : State) : Host.Outcome State Fault Refusal :=
  s.finish do
    let b ← checkBits s.inp
    decodeOne grDecode1 b

/-- GR.ENCT (R68): every symbol, 0 among them, has a codeword. -/
def execGrEnct (s : State) : Host.Outcome State Fault Refusal :=
  s.finish do
    let x ← checkText s.inp
    encodeText s.maxOut (fun c => .ok (grCode c.toNat)) x

/-- GR.DECT (R69). -/
def execGrDect (s : State) : Host.Outcome State Fault Refusal :=
  s.finish do
    let b ← checkBits s.inp
    decodeText s.maxOut grDecode1 b

end Sys2Proof.Machine
end

