-- ==== Sys2Proof/Machine/Huffman.lean ====
section
/-! DEFINITION. The Huffman codec: frequency counter, tree builder, code assigner, bit-string mapper, stream parser and
renderer (spec 43_huffman.md R95 to R111), over the kept state HUF (spec 10_state.md R27, R28). -/

namespace Sys2Proof.Machine

/-! ### Frequency counter (R96) -/

/-- Counts one more `c`: its pair's count is raised in place, or a new pair is appended (R96). -/
def bumpFreq (P : List (Word × Nat)) (c : Word) : List (Word × Nat) :=
  match P with
  | [] => [(c, 1)]
  | (d, k) :: P => if d = c then (d, k + 1) :: P else (d, k) :: bumpFreq P c

/-- `HufFreq(text)`: each distinct symbol with its count, in order of first occurrence (R96). -/
def hufFreq (text : List Word) : List (Word × Nat) := text.foldl bumpFreq []

/-! ### Tree builder (R97 to R100) -/

/-- The frequency a node carries (R28). -/
def HufNode.freq (n : HufNode) : Nat :=
  match n with
  | .leaf _ k => k
  | .internal k _ _ => k

/-- The frequency of the node at a handle. A handle outside the arena, which no built tree holds, has frequency 0 (log
entry 7). -/
def freqAt (nodes : List HufNode) (h : Nat) : Nat :=
  match nodes[h]? with
  | some n => n.freq
  | none => 0

/-- The selection order: smaller frequency first, and of equal frequencies the smaller handle (R98). -/
def selectsBefore (nodes : List HufNode) (g h : Nat) : Bool :=
  decide (freqAt nodes g < freqAt nodes h ∨ (freqAt nodes g = freqAt nodes h ∧ g < h))

/-- The least handle of the working collection in the order of R98. -/
def leastHandle (nodes : List HufNode) (W : List Nat) : Option Nat :=
  match W with
  | [] => none
  | h :: t =>
    match leastHandle nodes t with
    | none => some h
    | some g => if selectsBefore nodes g h then some g else some h

/-- One merge: the two least handles leave the working collection and a new internal node enters it, the first of the
two its left child (R99, R100). `none` when fewer than two handles are left. -/
def mergeOnce (nodes : List HufNode) (W : List Nat) : Option (List HufNode × List Nat) :=
  match leastHandle nodes W with
  | none => none
  | some a =>
    match leastHandle nodes (W.erase a) with
    | none => none
    | some b =>
      some (nodes ++ [.internal (freqAt nodes a + freqAt nodes b) a b], (W.erase a).erase b ++ [nodes.length])

/-- The merge loop (R99). A merge takes one handle off the collection, so as many passes as handles are enough (log
entry 7). -/
def mergeLoop (fuel : Nat) (nodes : List HufNode) (W : List Nat) : List HufNode × List Nat :=
  match fuel with
  | 0 => (nodes, W)
  | fuel + 1 =>
    match mergeOnce nodes W with
    | none => (nodes, W)
    | some (nodes', W') => mergeLoop fuel nodes' W'

/-- The leaves, one per pair of HufFreq and in its order (R97). -/
def hufLeaves (text : List Word) : List HufNode := (hufFreq text).map (fun p => .leaf p.1 p.2)

/-- `HufBuild(text)`: merge from the leaves until at most one handle is left, the root (R97, R99). -/
def hufBuild (text : List Word) : HufTree :=
  let leaves := hufLeaves text
  let r := mergeLoop leaves.length leaves (List.range leaves.length)
  { nodes := r.1, root := r.2.head? }

/-! ### The code table (R27, R101) -/

/-- `T[c] <- p` on the table, kept sorted by symbol (R101; log entry 6). -/
def tableSet (T : List (Word × Bits)) (c : Word) (p : Bits) : List (Word × Bits) :=
  match T with
  | [] => [(c, p)]
  | (d, q) :: T =>
    if c.toNat < d.toNat then (c, p) :: (d, q) :: T
    else if c = d then (c, p) :: T
    else (d, q) :: tableSet T c p

/-- `T[c]`, if the table has an entry for `c`. -/
def tableGet (T : List (Word × Bits)) (c : Word) : Option Bits :=
  match T with
  | [] => none
  | (d, q) :: T => if d = c then some q else tableGet T c

/-- The symbol whose codeword is `p`, if there is one: the table read the other way (R103). -/
def tableFind (T : List (Word × Bits)) (p : Bits) : Option Word :=
  match T with
  | [] => none
  | (d, q) :: T => if q = p then some d else tableFind T p

/-- `Walk(h, p)`: depth first, left before right, a 0 for a left edge and a 1 for a right edge; a leaf gets the path as
its codeword (R53, R101). A child's handle is smaller than its parent's (R28), so `fuel` above the handle is enough
(log entry 7). -/
def hufWalk (nodes : List HufNode) (fuel h : Nat) (p : Bits) (T : List (Word × Bits)) : List (Word × Bits) :=
  match fuel with
  | 0 => T
  | fuel + 1 =>
    match nodes[h]? with
    | none => T
    | some (.leaf c _) => tableSet T c p
    | some (.internal _ l r) => hufWalk nodes fuel r (p ++ [true]) (hufWalk nodes fuel l (p ++ [false]) T)

/-- `HufAssign(nodes, root)`: no codeword for the empty tree, `"0"` for a lone leaf, the paths otherwise (R101). -/
def hufAssign (t : HufTree) : List (Word × Bits) :=
  match t.root with
  | none => []
  | some r =>
    match t.nodes[r]? with
    | some (.leaf c _) => tableSet [] c [false]
    | _ => hufWalk t.nodes (r + 1) r [] []

/-- The codeword of a symbol of the text the table was made from: there always is one (R102). -/
def hufSymbol (T : List (Word × Bits)) (c : Word) : Bits := (tableGet T c).getD []

/-- `HufMap(T, text)`: look up each symbol's codeword and concatenate (R102). -/
def hufMap (cap : Config.Capacity) (T : List (Word × Bits)) (text : List Word) : Except Err (List Word) :=
  encodeLoop cap (fun c => .ok (hufSymbol T c)) [] text

/-! ### Stream parser (R103) -/

/-- The loop of HufParse: `acc` is the candidate codeword, `o` the output so far (R103). -/
def hufParseLoop (cap : Config.Capacity) (T : List (Word × Bits)) (o : List Word) (acc s : Bits) :
    Except Err (List Word) :=
  match s with
  | [] => if acc = [] then .ok o else .error .malformedStream
  | b :: t =>
    match tableFind T (acc ++ [b]) with
    | some c => do
      let o ← emit cap o c
      hufParseLoop cap T o [] t
    | none => hufParseLoop cap T o (acc ++ [b]) t

/-- `HufParse(T, s)` (R103). -/
def hufParse (cap : Config.Capacity) (T : List (Word × Bits)) (s : Bits) : Except Err (List Word) :=
  hufParseLoop cap T [] [] s

/-! ### Renderer (R105) -/

/-- The digits of `n` in `base`, most significant first. `fuel` above `n` is enough for a base of 2 or more. -/
def digitLoop (base fuel n : Nat) : List Nat :=
  match fuel with
  | 0 => []
  | fuel + 1 => if n < base then [n] else digitLoop base fuel (n / base) ++ [n % base]

/-- The ASCII code of a digit, upper case above 9 (R105). PRESUMED character codes (G1), log entry 11. -/
def digitByte (d : Nat) : Byte := if d < 10 then BitVec.ofNat 8 (0x30 + d) else BitVec.ofNat 8 (0x41 + d - 10)

/-- `dec(k)`: decimal digits, no leading zero (R105). -/
def decBytes (k : Nat) : List Byte := (digitLoop 10 (k + 1) k).map digitByte

/-- `hex(c)`: upper-case hexadecimal, at least two digits (R105). -/
def hexBytes (c : Nat) : List Byte :=
  let d := (digitLoop 16 (c + 1) c).map digitByte
  if d.length < 2 then digitByte 0 :: d else d

/-- `Label(c)`: a printable character other than `'` and `\` as itself, any other as `\x` and its code (R105). -/
def labelBytes (c : Word) : List Byte :=
  let n := c.toNat
  if 0x20 ≤ n ∧ n ≤ 0x7E ∧ n ≠ 0x27 ∧ n ≠ 0x5C then [BitVec.ofNat 8 n] else 0x5C :: 0x78 :: hexBytes n

/-- `Line(h, d)`: the node's line, then its left and its right subtree one level deeper; LF ends every line (R105).
A child's handle is smaller than its parent's, so `fuel` above the handle is enough (log entry 7). -/
def hufLines (nodes : List HufNode) (fuel h d : Nat) : List Byte :=
  match fuel with
  | 0 => []
  | fuel + 1 =>
    match nodes[h]? with
    | none => []
    | some (.leaf c k) =>
      List.replicate (2 * d) 0x20 ++ (0x27 :: labelBytes c ++ [0x27, 0x3A, 0x20]) ++ decBytes k ++ [0x0A]
    | some (.internal k l r) =>
      List.replicate (2 * d) 0x20 ++ [0x2A, 0x3A, 0x20] ++ decBytes k ++ [0x0A]
        ++ hufLines nodes fuel l (d + 1) ++ hufLines nodes fuel r (d + 1)

/-- `HufRender(nodes, root)` as bytes; the empty tree renders as nothing (R105). -/
def hufRender (t : HufTree) : List Byte :=
  match t.root with
  | none => []
  | some r => hufLines t.nodes (r + 1) r 0

/-- A byte as an element of OUT (R21). -/
def byteWord (b : Byte) : Word := b.setWidth 32

/-! ### Commands -/

/-- HUF.ENC (R106): on success HUF is replaced, never merged; on an error it keeps its value. -/
def execHufEnc (s : State) : Host.Outcome State Fault Refusal :=
  s.finish do
    let x ← checkText s.inp
    let t := hufBuild x
    let T := hufAssign t
    let o ← hufMap s.maxOut T x
    return { out := o, huf := some { valid := true, tree := t, table := T } }

/-- HUF.DEC (R107): StatePrecondition before CheckBits; the parse is against the kept table, whatever stream IN is
(93_implementation_defined.md U3; log entry 8). -/
def execHufDec (s : State) : Host.Outcome State Fault Refusal :=
  s.finish do
    let h ← keptHuf s
    let b ← checkBits s.inp
    let o ← hufParse s.maxOut h.table b
    return { out := o }

/-- HUF.DISP (R108). -/
def execHufDisp (s : State) : Host.Outcome State Fault Refusal :=
  s.finish do
    let h ← keptHuf s
    let o ← emitAll s.maxOut [] ((hufRender h.tree).map byteWord)
    return { out := o }

end Sys2Proof.Machine
end

