-- ==== Sys2Proof/Machine/Dispatch.lean ====
section
/-! DEFINITION. One arm per command of the opcode map (spec 30_encoding.md R46). -/

namespace Sys2Proof.Machine

def exec (i : Instr) (s : State) : Host.Outcome State Fault Refusal :=
  match i with
  | .grEnc => Sys2Proof.Machine.execGrEnc s
  | .grDec => Sys2Proof.Machine.execGrDec s
  | .grEnct => Sys2Proof.Machine.execGrEnct s
  | .grDect => Sys2Proof.Machine.execGrDect s
  | .egEnc => Sys2Proof.Machine.execEgEnc s
  | .egDec => Sys2Proof.Machine.execEgDec s
  | .egEnct => Sys2Proof.Machine.execEgEnct s
  | .egDect => Sys2Proof.Machine.execEgDect s
  | .fibEnc => Sys2Proof.Machine.execFibEnc s
  | .fibDec => Sys2Proof.Machine.execFibDec s
  | .fibEnct => Sys2Proof.Machine.execFibEnct s
  | .fibDect => Sys2Proof.Machine.execFibDect s
  | .fibGen => Sys2Proof.Machine.execFibGen s
  | .hufEnc => Sys2Proof.Machine.execHufEnc s
  | .hufDec => Sys2Proof.Machine.execHufDec s
  | .hufDisp => Sys2Proof.Machine.execHufDisp s

end Sys2Proof.Machine
end

