-- ==== Sys2Proof/Machine/Step.lean ====
section
/-! DEFINITION. One step of the machine: the host's next move (spec 20_memory.md R38, R39). A start runs the command of
CMD to its end in that one step (R36). -/

namespace Sys2Proof.Machine

/-- The start of the command in CMD: decoded before anything else (60_exceptions.md R141), run if it is one, and
IllegalCommand if it is reserved (30_encoding.md R48). -/
def startCommand (s : State) : Host.Outcome State Fault Refusal :=
  match decode (fetchCommand s) with
  | .ok i => exec i s
  | .error _ => startReserved s

/-- One move of the host on a state from whose list the move was taken (R38). A read changes nothing (R36). -/
def hostStep (m : HostMove) (s : State) : Host.Outcome State Fault Refusal :=
  match m with
  | .writeCmd v => .next (hostWriteCmd s v)
  | .writeArg v => .next (hostWriteArg s v)
  | .writeIn v => hostWriteIn s v
  | .start => startCommand s
  | .read _ => .next s
  | .reset => .next (hostReset s)

/-- One step: the host's next move; with no move left the unit does nothing (R37; log entry 1). -/
def step (s : State) : Host.Outcome State Fault Refusal :=
  match s.hostMoves with
  | [] => .next s
  | m :: rest => hostStep m (s.withMoves rest)

/-- `s` with the command byte `w` in CMD and a start as the host's next move, so that the next step runs it (a command
is 8 bits, R45; log entry 1). -/
def State.withFetchWord (s : State) (_nbits w : Nat) : State := placeCommand s (BitVec.ofNat 8 w)

end Sys2Proof.Machine
end

