-- ==== Sys2Proof/Machine/HostPort.lean ====
section
/-! DEFINITION. What the host does on its own side: the conversion of bit-strings and texts (spec 20_memory.md R34), a
program as a list of commands (spec 20_memory.md R39) and the assembler syntax (spec 30_encoding.md R49). The unit
itself uses none of it. -/

namespace Sys2Proof.Machine

/-! ### Bit-strings and texts (R34) -/

/-- A character of a bit-string as an element of IN: '0' is 0, '1' is 1, every other character the non-bit 2 (R34). -/
def bitElement (c : Char) : Word := if c = '0' then 0 else if c = '1' then 1 else 2

/-- A bit-string as the elements the host writes to IN (R34). -/
def bitStringIn (s : List Char) : List Word := s.map bitElement

/-- An element of OUT as a character of a bit-string; only 0 and 1 have one (R34). -/
def bitChar (e : Word) : Option Char := if e = 0 then some '0' else if e = 1 then some '1' else none

/-- A text as symbols, by character code (R34). PRESUMED character codes (G1), log entry 11. -/
def textIn (s : List Char) : List Word := s.map (fun c => BitVec.ofNat 32 c.toNat)

/-- Symbols as a text, by character code (R34). PRESUMED character codes (G1), log entry 11. -/
def textOut (t : List Word) : List Char := t.map (fun e => Char.ofNat e.toNat)

/-! ### Programs (R39) -/

/-- One command of a program: a value of CMD with the ARG and IN the host writes before starting it (R39). -/
structure ProgCommand where
  cmd : BitVec 8
  arg : Word
  inp : List Word
deriving DecidableEq, Repr

/-- The host's moves for one command: set the operands, then start (R38, R39). -/
def ProgCommand.moves (c : ProgCommand) : List HostMove :=
  [.writeCmd c.cmd, .writeArg c.arg, .writeIn c.inp, .start]

/-- The host's moves for a program, command by command (R39). -/
def programMoves (p : List ProgCommand) : List HostMove := p.flatMap ProgCommand.moves

/-- `s` with the program `p` as what the host does next (R39; log entry 1). -/
def State.withProgram (s : State) (p : List ProgCommand) : State := { s with hostMoves := programMoves p }

/-! ### Assembler syntax (R49) -/

/-- What a command's operand is (R47, R49). -/
inductive OperandForm where
  /-- a number, to ARG -/
  | number
  /-- a bit sequence, to IN -/
  | bits
  /-- a text, to IN -/
  | text
  /-- no operand -/
  | nothing
deriving DecidableEq, Repr

/-- The operand form of each command (R47, R49). -/
def operandForm (i : Instr) : OperandForm :=
  match i with
  | .grEnc => .number
  | .grDec => .bits
  | .grEnct => .text
  | .grDect => .bits
  | .egEnc => .number
  | .egDec => .bits
  | .egEnct => .text
  | .egDect => .bits
  | .fibEnc => .number
  | .fibDec => .bits
  | .fibEnct => .text
  | .fibDect => .bits
  | .fibGen => .number
  | .hufEnc => .text
  | .hufDec => .bits
  | .hufDisp => .nothing

/-- The mnemonics (R46). -/
def mnemonics : List (List Char × Instr) :=
  [("GR.ENC".toList, .grEnc), ("GR.DEC".toList, .grDec), ("GR.ENCT".toList, .grEnct), ("GR.DECT".toList, .grDect),
   ("EG.ENC".toList, .egEnc), ("EG.DEC".toList, .egDec), ("EG.ENCT".toList, .egEnct), ("EG.DECT".toList, .egDect),
   ("FIB.ENC".toList, .fibEnc), ("FIB.DEC".toList, .fibDec), ("FIB.ENCT".toList, .fibEnct),
   ("FIB.DECT".toList, .fibDect), ("FIB.GEN".toList, .fibGen),
   ("HUF.ENC".toList, .hufEnc), ("HUF.DEC".toList, .hufDec), ("HUF.DISP".toList, .hufDisp)]

/-- The value of a digit below `base`; hexadecimal digits in either case (log entry 12). -/
def digitValue (base : Nat) (c : Char) : Option Nat :=
  let n := c.toNat
  let d := if 0x30 ≤ n ∧ n ≤ 0x39 then some (n - 0x30)
    else if 0x41 ≤ n ∧ n ≤ 0x46 then some (n - 0x41 + 10)
    else if 0x61 ≤ n ∧ n ≤ 0x66 then some (n - 0x61 + 10)
    else none
  match d with
  | some v => if v < base then some v else none
  | none => none

/-- A number from its digits, most significant first, `acc` the value of those already read. -/
def numberFrom (base acc : Nat) (s : List Char) : Option Nat :=
  match s with
  | [] => some acc
  | c :: t =>
    match digitValue base c with
    | some v => numberFrom base (base * acc + v) t
    | none => none

/-- The operand `n`, decimal or `0x` hexadecimal (R49); a number ARG cannot hold is no operand (log entry 12). -/
def parseNumber (s : List Char) : Option Word :=
  let v := match s with
    | [] => none
    | '0' :: 'x' :: [] => none
    | '0' :: 'x' :: t => numberFrom 16 0 t
    | s => numberFrom 10 0 s
  match v with
  | some n => if n ≤ Config.valMax then some (BitVec.ofNat 32 n) else none
  | none => none

/-- The inside of `b"..."`, up to the closing quote that ends the line: only 0 and 1 (R49). -/
def parseBits (s : List Char) : Option (List Word) :=
  match s with
  | [] => none
  | '"' :: t => if t = [] then some [] else none
  | c :: t => if c = '0' ∨ c = '1' then (parseBits t).map (bitElement c :: ·) else none

/-- The inside of `t"..."`, up to the closing quote that ends the line, with the escapes `\xHH`, `\"` and `\\`
(R49). -/
def parseText (s : List Char) : Option (List Word) :=
  match s with
  | [] => none
  | '"' :: t => if t = [] then some [] else none
  | '\\' :: 'x' :: h :: l :: t =>
    match numberFrom 16 0 [h, l] with
    | some v => (parseText t).map (BitVec.ofNat 32 v :: ·)
    | none => none
  | '\\' :: '"' :: t => (parseText t).map (0x22 :: ·)
  | '\\' :: '\\' :: t => (parseText t).map (0x5C :: ·)
  | '\\' :: _ => none
  | c :: t => (parseText t).map (BitVec.ofNat 32 c.toNat :: ·)

/-- The host's writes for the operand after the mnemonic, in the form the command takes; one space stands between the
two (R49; log entry 12). -/
def parseOperand (f : OperandForm) (s : List Char) : Option (List HostMove) :=
  match f, s with
  | .nothing, [] => some []
  | .number, ' ' :: t => (parseNumber t).map (fun v => [.writeArg v])
  | .bits, ' ' :: 'b' :: '"' :: t => (parseBits t).map (fun v => [.writeIn v])
  | .text, ' ' :: 't' :: '"' :: t => (parseText t).map (fun v => [.writeIn v])
  | _, _ => none

/-- One line of assembly as the host's moves: write CMD, write the operand, start (R38, R49). -/
def assemble (line : List Char) : Option (List HostMove) :=
  let mn := line.takeWhile (fun c => c != ' ')
  match mnemonics.lookup mn with
  | none => none
  | some i =>
    match parseOperand (operandForm i) (line.drop mn.length) with
    | none => none
    | some w => some (.writeCmd (encode i) :: w ++ [.start])

end Sys2Proof.Machine
end

