-- ==== Sys2Proof/Machine/TreeParser.lean ====
section
/-! DEFINITION. The tree-walk parser: the other way to build the Huffman stream parser that the spec allows (spec
43_huffman.md R104). HUF.DEC does not use it; a statement says that it gives what `hufParse` gives. -/

namespace Sys2Proof.Machine

/-- Where the walk stands: at a handle, or off the tree, on a candidate that can never match (R104). -/
inductive WalkPos where
  | at (h : Nat)
  | lost
deriving DecidableEq, Repr

/-- The handle the walk moves to on a bit: left on 0, right on 1. At a lone leaf, "bit 0 is the edge to the lone leaf"
and bit 1 leads off the tree (R104). -/
def walkEdge (nodes : List HufNode) (p : WalkPos) (b : Bool) : WalkPos :=
  match p with
  | .lost => .lost
  | .at h =>
    match nodes[h]? with
    | some (.internal _ l r) => .at (if b then r else l)
    | some (.leaf _ _) => if b then .lost else .at h
    | none => .lost

/-- The symbol of the leaf the walk has reached, if it stands at one (R104). -/
def walkSymbol (nodes : List HufNode) (p : WalkPos) : Option Word :=
  match p with
  | .lost => none
  | .at h =>
    match nodes[h]? with
    | some (.leaf c _) => some c
    | _ => none

/-- The walk over the stream: on a leaf its symbol is emitted and the walk goes back to the root; a stream that ends
away from the root is malformed (R104). -/
def walkLoop (cap : Config.Capacity) (nodes : List HufNode) (root : Nat) (o : List Word) (p : WalkPos) (s : Bits) :
    Except Err (List Word) :=
  match s with
  | [] => if p = .at root then .ok o else .error .malformedStream
  | b :: t =>
    match walkSymbol nodes (walkEdge nodes p b) with
    | some c => do
      let o ← emit cap o c
      walkLoop cap nodes root o (.at root) t
    | none => walkLoop cap nodes root o (walkEdge nodes p b) t

/-- The tree-walk parser on a stream (R104). -/
def walkParse (cap : Config.Capacity) (nodes : List HufNode) (root : Nat) (s : Bits) : Except Err (List Word) :=
  walkLoop cap nodes root [] (.at root) s

end Sys2Proof.Machine
end

