-- ==== Sys2Proof/Safety.lean ====
section
/-! DEFINITION. The terms claims about the VLC unit are stated in: the end states of a command, the codeword layouts
(written from spec 30_encoding.md R50 to R53, not from the codecs' definitions), the invariants of the state (spec
10_state.md R28, R29), the rendering of a tree (spec 43_huffman.md R105), the merges under any tie-break (spec
43_huffman.md R110) and the lines of the assembler syntax (spec 30_encoding.md R49). -/

namespace Sys2Proof.Safety

open Sys2Proof Sys2Proof.Machine

/-! ### The end of a command (60_exceptions.md R143) -/

/-- The state a command that returns OK leaves: STATUS 0 and the given OUT, RES and CNT, all else as before. -/
def okState (s : State) (out : List Word) (res : Word) (cnt : Nat) : State :=
  { s with status := 0, out := out, res := res, cnt := cnt }

/-- The state a failed command leaves: its code in STATUS, OUT empty, RES and CNT 0, all else as before. -/
def errState (s : State) (code : BitVec 8) : State :=
  { s with status := code, out := [], res := 0, cnt := 0 }

/-- OUT can hold `n` elements (R9). -/
def Fits (s : State) (n : Nat) : Prop := ∀ k, s.maxOut = some k → n ≤ k

/-- Every element is a bit. -/
def IsBits (x : List Word) : Prop := ∀ e ∈ x, e.toNat ≤ 1

/-! ### Codeword layouts (30_encoding.md R50 to R52), as elements of OUT or IN -/

/-- `GR(n)`: `floor(n/8)` zeros, a 1, the three bits of `n mod 8` (R50). -/
def grWord (n : Nat) : List Word :=
  List.replicate (n / 8) 0 ++ [1, BitVec.ofNat 32 (n / 4 % 2), BitVec.ofNat 32 (n / 2 % 2), BitVec.ofNat 32 (n % 2)]

/-- `EG(n)`: `floor(log2 n)` zeros, then the bits of `n` from its highest 1 down (R51). -/
def egWord (n : Nat) : List Word :=
  List.replicate (Nat.log2 n) 0
    ++ (List.range (Nat.log2 n + 1)).map (fun j => BitVec.ofNat 32 (n / 2 ^ (Nat.log2 n - j) % 2))

/-- `sel` is the Zeckendorf selection of `n` in ascending term order: its last bit is 1, no two adjacent bits are 1,
and the Fibonacci terms 1, 2, 3, 5, ... at its 1 bits sum to `n` (R52, 42_fibonacci.md R85). -/
def Zeckendorf (n : Nat) (sel : Bits) : Prop :=
  sel.getLast? = some true ∧ (∀ j < sel.length, ¬ (sel[j]? = some true ∧ sel[j + 1]? = some true)) ∧
    ((List.range sel.length).map (fun j => if sel[j]? = some true then Nat.fib (j + 2) else 0)).sum = n

/-- `w` is `FIB(n)`: the Zeckendorf selection of `n`, then the terminator 1 (R52). -/
def FibWord (n : Nat) (w : List Word) : Prop :=
  ∃ sel : Bits, Zeckendorf n sel ∧ w = sel.map (fun b => if b then 1 else 0) ++ [1]

/-- `GR(n)` as a relation, `n >= 0`. -/
def GrWord (n : Nat) (w : List Word) : Prop := w = grWord n

/-- `EG(n)` as a relation, `n >= 1`. -/
def EgWord (n : Nat) (w : List Word) : Prop := 1 ≤ n ∧ w = egWord n

/-- Each symbol of the text with its codeword. -/
def TextWords (W : Nat → List Word → Prop) (text : List Word) (ws : List (List Word)) : Prop :=
  List.Forall₂ (fun c w => W c.toNat w) text ws

/-- The text's symbols lie in `lo .. SYM_MAX`. -/
def TextIn (lo : Nat) (text : List Word) : Prop := ∀ c ∈ text, lo ≤ c.toNat ∧ c.toNat ≤ 255

/-! ### Streams that cannot be parsed (60_exceptions.md R134) -/

/-- The bits end inside a Golomb-Rice codeword: in the unary quotient, or with fewer than 3 remainder bits. -/
def GrTruncated (x : List Word) : Prop :=
  (∃ q, x = List.replicate (q + 1) 0) ∨ (∃ q r, x = List.replicate q 0 ++ 1 :: r ∧ r.length < 3)

/-- The bits end inside an Elias-Gamma codeword: in the zero prefix, or with the binary part short. -/
def EgTruncated (x : List Word) : Prop :=
  (∃ z, x = List.replicate (z + 1) 0) ∨ (∃ z r, x = List.replicate z 0 ++ 1 :: r ∧ r.length < z)

/-- The bits end inside a Fibonacci codeword: there are some, and no two adjacent ones are both 1. -/
def FibTruncated (x : List Word) : Prop :=
  x ≠ [] ∧ ∀ j < x.length, ¬ (x[j]? = some 1 ∧ x[j + 1]? = some 1)

/-! ### What the commands of one shape do. `lo` is the least value the codec codes, `W` its layout. -/

/-- A single encode: the codeword of ARG to OUT, or CapacityExceeded when OUT cannot hold it (R66, R76, R90). -/
def EncodesOne (i : Instr) (lo : Nat) (W : Nat → List Word → Prop) : Prop :=
  ∀ s : State, lo ≤ s.arg.toNat → ∃ w, W s.arg.toNat w ∧
    (Fits s w.length → exec i s = .next (okState s w 0 0)) ∧
    (¬ Fits s w.length → exec i s = .next (errState s 5))

/-- A single decode of a stream that begins with a codeword: its value to RES and its length to CNT, whatever bits
follow; MalformedStream when the value does not fit RES (R67, R77, R91). -/
def DecodesOne (i : Instr) (W : Nat → List Word → Prop) : Prop :=
  ∀ (s : State) (n : Nat) (w rest : List Word), W n w → IsBits rest → s.inp = w ++ rest →
    (n ≤ Config.valMax → exec i s = .next (okState s [] (BitVec.ofNat 32 n) w.length)) ∧
    (Config.valMax < n → exec i s = .next (errState s 2))

/-- A single decode of what is no codeword: an element that is no bit, no bits at all, or a truncated codeword. -/
def RejectsOne (i : Instr) (truncated : List Word → Prop) : Prop :=
  ∀ s : State, ¬ IsBits s.inp ∨ s.inp = [] ∨ (IsBits s.inp ∧ truncated s.inp) → exec i s = .next (errState s 2)

/-- A text encode: the codewords of the symbols in text order, or CapacityExceeded (R68, R78, R92). -/
def EncodesText (i : Instr) (lo : Nat) (W : Nat → List Word → Prop) : Prop :=
  ∀ s : State, TextIn lo s.inp → ∃ ws, TextWords W s.inp ws ∧
    (Fits s ws.flatten.length → exec i s = .next (okState s ws.flatten 0 0)) ∧
    (¬ Fits s ws.flatten.length → exec i s = .next (errState s 5))

/-- A text encode of a text with a symbol above SYM_MAX: InvalidInput, wherever the symbol stands (R44, R132). -/
def RejectsLargeSymbol (i : Instr) : Prop :=
  ∀ s : State, (∃ c ∈ s.inp, 255 < c.toNat) → exec i s = .next (errState s 1)

/-- A text encode by a codec with no codeword for 0: InvalidInput at the first 0, unless the codewords before it
already overflow OUT (R78, R92, R141). -/
def RejectsZeroSymbol (i : Instr) (W : Nat → List Word → Prop) : Prop :=
  ∀ (s : State) (pre post : List Word) (ws : List (List Word)), s.inp = pre ++ 0 :: post → TextIn 1 pre →
    TextIn 0 post → TextWords W pre ws →
    (Fits s ws.flatten.length → exec i s = .next (errState s 1)) ∧
    (¬ Fits s ws.flatten.length → exec i s = .next (errState s 5))

/-- A text decode of the codewords of a text: the text to OUT, or CapacityExceeded (R69, R79, R93). -/
def DecodesText (i : Instr) (lo : Nat) (W : Nat → List Word → Prop) : Prop :=
  ∀ (s : State) (text : List Word) (ws : List (List Word)), TextIn lo text → TextWords W text ws →
    s.inp = ws.flatten →
    (Fits s text.length → exec i s = .next (okState s text 0 0)) ∧
    (¬ Fits s text.length → exec i s = .next (errState s 5))

/-- A text decode of what is no text's codewords: an element that is no bit; or, after the codewords of a text, a
truncated codeword or the codeword of a value above SYM_MAX. The first failure in stream order decides (R69, R79, R93,
R142). -/
def RejectsText (i : Instr) (lo : Nat) (W : Nat → List Word → Prop) (truncated : List Word → Prop) : Prop :=
  (∀ s : State, ¬ IsBits s.inp → exec i s = .next (errState s 2)) ∧
  ∀ (s : State) (text : List Word) (ws : List (List Word)) (rest : List Word), TextIn lo text → TextWords W text ws →
    s.inp = ws.flatten ++ rest → IsBits rest →
    (truncated rest ∨ ∃ n w t, 255 < n ∧ W n w ∧ rest = w ++ t) →
    (Fits s text.length → exec i s = .next (errState s 2)) ∧
    (¬ Fits s text.length → exec i s = .next (errState s 5))

/-! ### Which registers a command reads (10_state.md R31) -/

/-- The commands that read ARG (R19). -/
def readsArg (i : Instr) : Bool :=
  match i with
  | .grEnc | .egEnc | .fibEnc | .fibGen => true
  | .grDec | .grEnct | .grDect | .egDec | .egEnct | .egDect | .fibDec | .fibEnct | .fibDect => false
  | .hufEnc | .hufDec | .hufDisp => false

/-- The commands that read IN (R20). -/
def readsIn (i : Instr) : Bool :=
  match i with
  | .grEnc | .egEnc | .fibEnc | .fibGen | .hufDisp => false
  | .grDec | .grEnct | .grDect | .egDec | .egEnct | .egDect | .fibDec | .fibEnct | .fibDect => true
  | .hufEnc | .hufDec => true

/-- The commands that read HUF (R27). -/
def readsHuf (i : Instr) : Bool :=
  match i with
  | .grEnc | .grDec | .grEnct | .grDect | .egEnc | .egDec | .egEnct | .egDect => false
  | .fibEnc | .fibDec | .fibEnct | .fibDect | .fibGen | .hufEnc => false
  | .hufDec | .hufDisp => true

/-! ### The Huffman state (10_state.md R28, R29) -/

/-- The node at a handle is as R28 says: a leaf's symbol is in `0 .. SYM_MAX` and its count at least 1; an internal
node's children are earlier nodes and its frequency is their sum. -/
def nodeOk (nodes : List HufNode) (h : Nat) : Bool :=
  match nodes[h]? with
  | some (.leaf c k) => decide (c.toNat ≤ Config.symMax) && decide (1 ≤ k)
  | some (.internal k l r) => decide (l < h) && decide (r < h) && decide (k = freqAt nodes l + freqAt nodes r)
  | none => true

/-- The handles that stand as a child of some internal node, one entry per child place. -/
def childHandles (nodes : List HufNode) : List Nat :=
  nodes.flatMap (fun n =>
    match n with
    | .leaf _ _ => []
    | .internal _ l r => [l, r])

/-- The symbols of the leaves. -/
def leafSymbols (nodes : List HufNode) : List Word :=
  nodes.filterMap (fun n =>
    match n with
    | .leaf c _ => some c
    | .internal _ _ _ => none)

/-- HUF_TREE is a tree in an arena (R28; R29 (a), (b), (c); 00_scope.md R11): either empty with no root, or rooted at
the last handle, every other handle the child in exactly one place and the root in none; no two leaves have the same
symbol. -/
def ArenaWf (t : HufTree) : Prop :=
  (∀ h < t.nodes.length, nodeOk t.nodes h = true) ∧
  (leafSymbols t.nodes).Nodup ∧
  t.nodes.length ≤ 2 * (Config.symMax + 1) - 1 ∧
  ((t.nodes = [] ∧ t.root = none) ∨
    (t.nodes ≠ [] ∧ t.root = some (t.nodes.length - 1) ∧
      ∀ h < t.nodes.length, (childHandles t.nodes).count h = if h + 1 = t.nodes.length then 0 else 1))

/-- No codeword of the table is a prefix of another, so no two are equal (R29 (e)). -/
def PrefixFree (T : List (Word × Bits)) : Prop :=
  T.Pairwise (fun a b => ¬ a.2 <+: b.2 ∧ ¬ b.2 <+: a.2)

/-- HUF_TABLE is a map (its symbols strictly rise, log entry 6) with an entry of at least one bit exactly for the
symbols of the leaves, and prefix-free (R27; R29 (d), (e); 00_scope.md R11). -/
def TableWf (nodes : List HufNode) (T : List (Word × Bits)) : Prop :=
  T.Pairwise (fun a b => a.1.toNat < b.1.toNat) ∧
  (∀ e ∈ T, e.2 ≠ []) ∧
  (∀ c ∈ T.map Prod.fst, c ∈ leafSymbols nodes) ∧ (∀ c ∈ leafSymbols nodes, c ∈ T.map Prod.fst) ∧
  PrefixFree T ∧
  T.length ≤ Config.symMax + 1

/-- The invariant of HUF: what R29 says when HUF_VALID = 1, with the table the one R101 assigns to the tree; the reset
value when HUF_VALID = 0 (R27). -/
def HufInv (h : Huf) : Prop :=
  (h.valid = true → ArenaWf h.tree ∧ TableWf h.tree.nodes h.table ∧ h.table = hufAssign h.tree) ∧
  (h.valid = false → h = Huf.reset)

/-- `HufPath nodes h p c`: from handle `h`, the edges of `p` (0 left, 1 right) lead to the leaf of `c` (R53). -/
inductive HufPath (nodes : List HufNode) : Nat → Bits → Word → Prop where
  | leaf {h : Nat} {c : Word} {k : Nat} : nodes[h]? = some (.leaf c k) → HufPath nodes h [] c
  | left {h k l r : Nat} {p : Bits} {c : Word} :
      nodes[h]? = some (.internal k l r) → HufPath nodes l p c → HufPath nodes h (false :: p) c
  | right {h k l r : Nat} {p : Bits} {c : Word} :
      nodes[h]? = some (.internal k l r) → HufPath nodes r p c → HufPath nodes h (true :: p) c

/-- The codeword the table gives a symbol, as elements of OUT or IN. -/
def CodeWord (T : List (Word × Bits)) (c : Word) (w : List Word) : Prop :=
  ∃ p, tableGet T c = some p ∧ w = p.map (fun b => if b then 1 else 0)

/-! ### The rendering of a tree (43_huffman.md R105), with Mathlib's digits -/

/-- ASCII codes of the decimal digits of `k`. -/
def decSpec (k : Nat) : List Byte := (Nat.digits 10 k).reverse.map (fun d => BitVec.ofNat 8 (48 + d))

/-- ASCII code of an upper-case hexadecimal digit. -/
def hexDigitSpec (d : Nat) : Byte := if d < 10 then BitVec.ofNat 8 (48 + d) else BitVec.ofNat 8 (55 + d)

/-- `Label(c)` for a symbol up to 255: itself when printable and neither `'` nor `\`, else `\x` and two hexadecimal
digits. -/
def labelSpec (c : Word) : List Byte :=
  if 32 ≤ c.toNat ∧ c.toNat ≤ 126 ∧ c.toNat ≠ 39 ∧ c.toNat ≠ 92 then [BitVec.ofNat 8 c.toNat]
  else [92, 120, hexDigitSpec (c.toNat / 16), hexDigitSpec (c.toNat % 16)]

/-- `Renders nodes h d b`: `b` is the rendering of the subtree at handle `h`, at depth `d`: its line, then its left and
its right subtree one level deeper, each line indented two spaces a level and ended by LF (R105). -/
inductive Renders (nodes : List HufNode) : Nat → Nat → List Byte → Prop where
  | leaf {h d : Nat} {c : Word} {k : Nat} : nodes[h]? = some (.leaf c k) →
      Renders nodes h d (List.replicate (2 * d) 32 ++ [39] ++ labelSpec c ++ [39, 58, 32] ++ decSpec k ++ [10])
  | internal {h d k l r : Nat} {bl br : List Byte} : nodes[h]? = some (.internal k l r) →
      Renders nodes l (d + 1) bl → Renders nodes r (d + 1) br →
      Renders nodes h d (List.replicate (2 * d) 32 ++ [42, 58, 32] ++ decSpec k ++ [10] ++ bl ++ br)

/-- The rendering of the whole tree: nothing for the empty tree (R105). -/
def RendersTree (t : HufTree) (b : List Byte) : Prop :=
  (t.root = none ∧ b = []) ∨ (∃ r, t.root = some r ∧ Renders t.nodes r 0 b)

/-! ### Merges under any tie-break and any child order (43_huffman.md R110) -/

/-- `a` is a handle of `W` of least frequency. -/
def LeastFreq (nodes : List HufNode) (W : List Nat) (a : Nat) : Prop :=
  a ∈ W ∧ ∀ h ∈ W, freqAt nodes a ≤ freqAt nodes h

/-- From an arena and a working collection to another, each merge of any two least-frequency handles, either one the
left child (R110). -/
inductive AnyMerges : List HufNode → List Nat → List HufNode → List Nat → Prop where
  | done {nodes : List HufNode} {W : List Nat} : AnyMerges nodes W nodes W
  | merge {nodes nodes' : List HufNode} {W W' : List Nat} {a b l r : Nat} :
      LeastFreq nodes W a → LeastFreq nodes (W.erase a) b → ((l, r) = (a, b) ∨ (l, r) = (b, a)) →
      AnyMerges (nodes ++ [.internal (freqAt nodes a + freqAt nodes b) l r]) ((W.erase a).erase b ++ [nodes.length])
        nodes' W' →
      AnyMerges nodes W nodes' W'

/-- The key order of R98: smaller frequency first, then smaller handle. -/
def KeyBefore (nodes : List HufNode) (g h : Nat) : Prop :=
  freqAt nodes g < freqAt nodes h ∨ (freqAt nodes g = freqAt nodes h ∧ g < h)

/-! ### The assembler syntax (30_encoding.md R49), as what a line may be, not as a parser -/

/-- The mnemonic of a command (R46). -/
def asmMnemonic (i : Instr) : List Char :=
  match i with
  | .grEnc => "GR.ENC".toList
  | .grDec => "GR.DEC".toList
  | .grEnct => "GR.ENCT".toList
  | .grDect => "GR.DECT".toList
  | .egEnc => "EG.ENC".toList
  | .egDec => "EG.DEC".toList
  | .egEnct => "EG.ENCT".toList
  | .egDect => "EG.DECT".toList
  | .fibEnc => "FIB.ENC".toList
  | .fibDec => "FIB.DEC".toList
  | .fibEnct => "FIB.ENCT".toList
  | .fibDect => "FIB.DECT".toList
  | .fibGen => "FIB.GEN".toList
  | .hufEnc => "HUF.ENC".toList
  | .hufDec => "HUF.DEC".toList
  | .hufDisp => "HUF.DISP".toList

/-- The character `c` is the digit `d`; a digit above 9 stands in either case (log entry 12). -/
def IsDigit (d : Nat) (c : Char) : Prop :=
  "0123456789abcdef".toList[d]? = some c ∨ "0123456789ABCDEF".toList[d]? = some c

/-- The characters `cs`, at least one, are digits that write `n` in `base`, most significant first. -/
def Numeral (base n : Nat) (cs : List Char) : Prop :=
  ∃ ds : List Nat, ds ≠ [] ∧ (∀ d ∈ ds, d < base) ∧ List.Forall₂ IsDigit ds cs ∧ Nat.ofDigits base ds.reverse = n

/-- What stands between the quotes of `t"..."` and the text it writes: a character other than a quote or a backslash as
its code, `\xHH` as the code `HH`, `\"` as a quote and `\\` as a backslash (R49). -/
inductive AsmText : List Char → List Word → Prop where
  | nil : AsmText [] []
  | plain {c : Char} {cs : List Char} {x : List Word} : c ≠ '"' → c ≠ '\\' → AsmText cs x →
      AsmText (c :: cs) (BitVec.ofNat 32 c.toNat :: x)
  | hex {d e : Nat} {h l : Char} {cs : List Char} {x : List Word} : IsDigit d h → IsDigit e l → AsmText cs x →
      AsmText ('\\' :: 'x' :: h :: l :: cs) (BitVec.ofNat 32 (16 * d + e) :: x)
  | quote {cs : List Char} {x : List Word} : AsmText cs x → AsmText ('\\' :: '"' :: cs) (0x22 :: x)
  | backslash {cs : List Char} {x : List Word} : AsmText cs x → AsmText ('\\' :: '\\' :: cs) (0x5C :: x)

/-- `AsmLine line i w`: the line writes the command `i` with an operand that the host's writes `w` put in its register
(R49): `n`, decimal or `0x` hexadecimal, for ENC and GEN; `b"..."` for DEC, DECT and HUF.DEC; `t"..."` for ENCT and
HUF.ENC; HUF.DISP alone. -/
inductive AsmLine : List Char → Instr → List HostMove → Prop where
  | decimal {i : Instr} {n : Nat} {cs : List Char} : i ∈ [Instr.grEnc, .egEnc, .fibEnc, .fibGen] →
      Numeral 10 n cs → n ≤ Config.valMax →
      AsmLine (asmMnemonic i ++ ' ' :: cs) i [.writeArg (BitVec.ofNat 32 n)]
  | hexadecimal {i : Instr} {n : Nat} {cs : List Char} : i ∈ [Instr.grEnc, .egEnc, .fibEnc, .fibGen] →
      Numeral 16 n cs → n ≤ Config.valMax →
      AsmLine (asmMnemonic i ++ ' ' :: '0' :: 'x' :: cs) i [.writeArg (BitVec.ofNat 32 n)]
  | bits {i : Instr} {bs : Bits} :
      i ∈ [Instr.grDec, .grDect, .egDec, .egDect, .fibDec, .fibDect, .hufDec] →
      AsmLine (asmMnemonic i ++ ' ' :: 'b' :: '"' :: bs.map (fun b => if b then '1' else '0') ++ ['"']) i
        [.writeIn (bs.map (fun b => if b then 1 else 0))]
  | text {i : Instr} {cs : List Char} {x : List Word} : i ∈ [Instr.grEnct, .egEnct, .fibEnct, .hufEnc] →
      AsmText cs x → AsmLine (asmMnemonic i ++ ' ' :: 't' :: '"' :: cs ++ ['"']) i [.writeIn x]
  | alone : AsmLine (asmMnemonic .hufDisp) .hufDisp []

/-! ### The registers -/

/-- What holds of the registers between any two steps: IN and OUT within their capacities and CNT within MAX_IN (R9,
R20, R21, R23); STATUS one of the codes 0 to 5 (60_exceptions.md R131); after an error OUT empty, RES and CNT 0 (R143);
a sequence and an integer are never returned together (30_encoding.md R47). -/
def RegInv (s : State) : Prop :=
  (∀ k, s.maxIn = some k → s.inp.length ≤ k ∧ s.cnt ≤ k) ∧
  (∀ k, s.maxOut = some k → s.out.length ≤ k) ∧
  s.status.toNat ≤ 5 ∧
  (s.status ≠ 0 → s.out = [] ∧ s.res = 0 ∧ s.cnt = 0) ∧
  (s.out ≠ [] → s.res = 0 ∧ s.cnt = 0)

end Sys2Proof.Safety
end

