-- ==== Sys2Proof/Certificates/Slice0/Obligations.lean ====
section
/-! DEFINITION. The statements for the provers, from the numbered rules of spec/. A rule is cited as R<n>. Statements
about every state hold in states no run reaches too; where one needs the invariant of HUF it says so, and that the
invariant holds at reset and is kept by every step are statements of their own. -/

open Sys2Proof Sys2Proof.Machine Sys2Proof.Safety

/-! ### Encoding -/

/-- R46: the sixteen CMD values select the sixteen commands of the table, and no other value is a command. -/
def Obligations.OpcodeMapIsExact : Prop :=
  decode 0x10 = .ok .grEnc ∧ decode 0x11 = .ok .grDec ∧ decode 0x12 = .ok .grEnct ∧ decode 0x13 = .ok .grDect ∧
  decode 0x20 = .ok .egEnc ∧ decode 0x21 = .ok .egDec ∧ decode 0x22 = .ok .egEnct ∧ decode 0x23 = .ok .egDect ∧
  decode 0x30 = .ok .fibEnc ∧ decode 0x31 = .ok .fibDec ∧ decode 0x32 = .ok .fibEnct ∧ decode 0x33 = .ok .fibDect ∧
  decode 0x34 = .ok .fibGen ∧ decode 0x42 = .ok .hufEnc ∧ decode 0x43 = .ok .hufDec ∧ decode 0x45 = .ok .hufDisp ∧
  ∀ b : BitVec 8, (∃ i, decode b = .ok i) ↔
    b.toNat ∈ [0x10, 0x11, 0x12, 0x13, 0x20, 0x21, 0x22, 0x23, 0x30, 0x31, 0x32, 0x33, 0x34, 0x42, 0x43, 0x45]

/-- Decode and encode agree both ways: a byte decodes to a command exactly when the command encodes to that byte. -/
def Obligations.DecodeEncodeAgree : Prop :=
  ∀ (b : BitVec 8) (i : Instr), decode b = .ok i ↔ encode i = b

/-- R48: starting a reserved CMD value raises IllegalCommand: STATUS is 4, OUT is emptied, RES and CNT are zeroed, and
nothing else changes. -/
def Obligations.ReservedStartIsIllegal : Prop :=
  ∀ s : State,
    (s.cmd.toNat ≤ 0x0F ∨ (0x14 ≤ s.cmd.toNat ∧ s.cmd.toNat ≤ 0x1F) ∨ (0x24 ≤ s.cmd.toNat ∧ s.cmd.toNat ≤ 0x2F) ∨
      (0x35 ≤ s.cmd.toNat ∧ s.cmd.toNat ≤ 0x3F) ∨ s.cmd.toNat = 0x40 ∨ s.cmd.toNat = 0x41 ∨ s.cmd.toNat = 0x44 ∨
      0x46 ≤ s.cmd.toNat) →
    startCommand s = .next (errState s 4)

/-- A step at a start of the host starts the command in CMD on the state with the start taken off the host's list (the
list is the model's own, log entry 1), and that runs the command CMD decodes to. -/
def Obligations.StartStepRunsDecodedCommand : Prop :=
  ∀ (s : State) (rest : List HostMove), s.hostMoves = .start :: rest →
    step s = startCommand { s with hostMoves := rest } ∧
    ∀ i : Instr, decode s.cmd = .ok i → step s = exec i { s with hostMoves := rest }

/-! ### The host's other moves, reset and constants -/

/-- R38: the host's writes set their register and nothing else; IN admits at most MAX_IN elements (an overlong write
stops the model: the model's choice, log entry 4); a read changes nothing; a reset resets; with no move left nothing
happens (the host's list is the model's own, log entry 1). -/
def Obligations.HostMovesSetOperandsOnly : Prop :=
  ∀ (s : State) (rest : List HostMove),
    (∀ v, s.hostMoves = .writeCmd v :: rest → step s = .next { s with cmd := v, hostMoves := rest }) ∧
    (∀ v, s.hostMoves = .writeArg v :: rest → step s = .next { s with arg := v, hostMoves := rest }) ∧
    (∀ v, s.hostMoves = .writeIn v :: rest →
      ((∀ k, s.maxIn = some k → v.length ≤ k) → step s = .next { s with inp := v, hostMoves := rest }) ∧
      (∀ k, s.maxIn = some k → k < v.length → step s = .fault .inOverlong)) ∧
    (∀ r, s.hostMoves = .read r :: rest → step s = .next { s with hostMoves := rest }) ∧
    (s.hostMoves = .reset :: rest → step s = .next (hostReset { s with hostMoves := rest })) ∧
    (s.hostMoves = [] → step s = .next s)

/-- R151: a reset sets every piece of writable state to its reset value, from any state, and the machine starts in such
a state; the constants P0 to P3 read as before a reset. -/
def Obligations.ResetSetsEveryRegister : Prop :=
  ∀ s t : State, t = hostReset s ∨ t = State.reset →
    t.cmd = 0x00 ∧ t.arg = 0 ∧ t.inp = [] ∧ t.out = [] ∧ t.res = 0 ∧ t.cnt = 0 ∧ t.status = 0 ∧
    t.huf.valid = false ∧ t.huf.tree.nodes = [] ∧ t.huf.tree.root = none ∧ t.huf.table = [] ∧
    ∀ p ∈ [HostReg.paramM, .paramRbits, .paramValw, .paramSymmax], hostRead t p = hostRead s p

/-- R26: in every state the host reads the bytes P0 = 8, P1 = 3 and P2 = 32 and the word P3 = 255; a read of OUT, RES,
CNT, STATUS or HUF_VALID gives that register (R38), HUF_VALID as a bit (R27). -/
def Obligations.ParametersReadHardwired : Prop :=
  ∀ s : State, hostRead s .paramM = .byte 8 ∧ hostRead s .paramRbits = .byte 3 ∧ hostRead s .paramValw = .byte 32 ∧
    hostRead s .paramSymmax = .word 255 ∧ hostRead s .out = .seq s.out ∧ hostRead s .res = .word s.res ∧
    hostRead s .cnt = .count s.cnt ∧ hostRead s .status = .byte s.status ∧
    hostRead s .hufValid = .bit (if s.huf.valid then 1 else 0)

/-- R25: FIB_TABLE has the 46 entries the spec lists, index 0 first. -/
def Obligations.FibTableContents : Prop :=
  fibTable =
    [1, 2, 3, 5, 8, 13, 21, 34, 55, 89, 144, 233] ++
    [377, 610, 987, 1597, 2584, 4181, 6765, 10946, 17711, 28657, 46368, 75025] ++
    [121393, 196418, 317811, 514229, 832040, 1346269, 2178309, 3524578, 5702887, 9227465] ++
    [14930352, 24157817, 39088169, 63245986, 102334155, 165580141, 267914296, 433494437] ++
    [701408733, 1134903170, 1836311903, 2971215073]

/-! ### The commands, one statement each -/

/-- R66: GR.ENC. -/
def Obligations.GrEncCommand : Prop :=
  decode 0x10 = .ok .grEnc ∧ EncodesOne .grEnc 0 GrWord

/-- R67: GR.DEC. -/
def Obligations.GrDecCommand : Prop :=
  decode 0x11 = .ok .grDec ∧ DecodesOne .grDec GrWord ∧ RejectsOne .grDec GrTruncated

/-- R68: GR.ENCT. -/
def Obligations.GrEnctCommand : Prop :=
  decode 0x12 = .ok .grEnct ∧ EncodesText .grEnct 0 GrWord ∧ RejectsLargeSymbol .grEnct

/-- R69: GR.DECT. -/
def Obligations.GrDectCommand : Prop :=
  decode 0x13 = .ok .grDect ∧ DecodesText .grDect 0 GrWord ∧ RejectsText .grDect 0 GrWord GrTruncated

/-- R76: EG.ENC, with InvalidInput for 0. -/
def Obligations.EgEncCommand : Prop :=
  decode 0x20 = .ok .egEnc ∧ EncodesOne .egEnc 1 EgWord ∧
    ∀ s : State, s.arg = 0 → exec .egEnc s = .next (errState s 1)

/-- R77: EG.DEC. -/
def Obligations.EgDecCommand : Prop :=
  decode 0x21 = .ok .egDec ∧ DecodesOne .egDec EgWord ∧ RejectsOne .egDec EgTruncated

/-- R78: EG.ENCT, with InvalidInput for a symbol 0. -/
def Obligations.EgEnctCommand : Prop :=
  decode 0x22 = .ok .egEnct ∧ EncodesText .egEnct 1 EgWord ∧ RejectsLargeSymbol .egEnct ∧
    RejectsZeroSymbol .egEnct EgWord

/-- R79: EG.DECT. -/
def Obligations.EgDectCommand : Prop :=
  decode 0x23 = .ok .egDect ∧ DecodesText .egDect 1 EgWord ∧ RejectsText .egDect 1 EgWord EgTruncated

/-- R90: FIB.ENC, with InvalidInput for 0. -/
def Obligations.FibEncCommand : Prop :=
  decode 0x30 = .ok .fibEnc ∧ EncodesOne .fibEnc 1 FibWord ∧
    ∀ s : State, s.arg = 0 → exec .fibEnc s = .next (errState s 1)

/-- R91: FIB.DEC. -/
def Obligations.FibDecCommand : Prop :=
  decode 0x31 = .ok .fibDec ∧ DecodesOne .fibDec FibWord ∧ RejectsOne .fibDec FibTruncated

/-- R92: FIB.ENCT, with InvalidInput for a symbol 0. -/
def Obligations.FibEnctCommand : Prop :=
  decode 0x32 = .ok .fibEnct ∧ EncodesText .fibEnct 1 FibWord ∧ RejectsLargeSymbol .fibEnct ∧
    RejectsZeroSymbol .fibEnct FibWord

/-- R93: FIB.DECT. -/
def Obligations.FibDectCommand : Prop :=
  decode 0x33 = .ok .fibDect ∧ DecodesText .fibDect 1 FibWord ∧ RejectsText .fibDect 1 FibWord FibTruncated

/-- R89: FIB.GEN: the first `k` terms 1, 2, 3, 5, ... where `k` is how many are at most ARG. -/
def Obligations.FibGenCommand : Prop :=
  decode 0x34 = .ok .fibGen ∧
    ∀ (s : State) (k : Nat), (k = 0 ∨ Nat.fib (k + 1) ≤ s.arg.toNat) → s.arg.toNat < Nat.fib (k + 2) →
      (Fits s k →
        exec .fibGen s = .next (okState s ((List.range k).map (fun j => BitVec.ofNat 32 (Nat.fib (j + 2)))) 0 0)) ∧
      (¬ Fits s k → exec .fibGen s = .next (errState s 5))

/-- R106: HUF.ENC: every symbol of the text has a codeword in the new table; OUT is their concatenation; HUF is
replaced. On an error HUF keeps its value. -/
def Obligations.HufEncCommand : Prop :=
  decode 0x42 = .ok .hufEnc ∧ RejectsLargeSymbol .hufEnc ∧
    ∀ s : State, TextIn 0 s.inp → ∃ ws,
      List.Forall₂ (CodeWord (hufAssign (hufBuild s.inp))) s.inp ws ∧
      (Fits s ws.flatten.length →
        exec .hufEnc s = .next
          { okState s ws.flatten 0 0 with
            huf := { valid := true, tree := hufBuild s.inp, table := hufAssign (hufBuild s.inp) } }) ∧
      (¬ Fits s ws.flatten.length → exec .hufEnc s = .next (errState s 5))

/-- R107: HUF.DEC: StatePrecondition first; then CheckBits; then the codewords of a text under the kept table give that
text; a stream that ends inside a codeword is malformed, unless OUT overflows before. -/
def Obligations.HufDecCommand : Prop :=
  decode 0x43 = .ok .hufDec ∧
  (∀ s : State, s.huf.valid = false → exec .hufDec s = .next (errState s 3)) ∧
  (∀ s : State, s.huf.valid = true → ¬ IsBits s.inp → exec .hufDec s = .next (errState s 2)) ∧
  ∀ (s : State) (text : List Word) (ws : List (List Word)) (rest : List Word), HufInv s.huf → s.huf.valid = true →
    List.Forall₂ (CodeWord s.huf.table) text ws → s.inp = ws.flatten ++ rest → IsBits rest →
    (∀ c w, CodeWord s.huf.table c w → ¬ w <+: rest) →
    (¬ Fits s text.length → exec .hufDec s = .next (errState s 5)) ∧
    (Fits s text.length → rest ≠ [] → exec .hufDec s = .next (errState s 2)) ∧
    (Fits s text.length → rest = [] → exec .hufDec s = .next (okState s text 0 0))

/-- R108: HUF.DISP: StatePrecondition when no code is kept, else the rendering of the kept tree, byte by byte. -/
def Obligations.HufDispCommand : Prop :=
  decode 0x45 = .ok .hufDisp ∧
  (∀ s : State, s.huf.valid = false → exec .hufDisp s = .next (errState s 3)) ∧
  ∀ s : State, HufInv s.huf → s.huf.valid = true → ∃ b, RendersTree s.huf.tree b ∧
    (Fits s b.length → exec .hufDisp s = .next (okState s (b.map (fun e => BitVec.ofNat 32 e.toNat)) 0 0)) ∧
    (¬ Fits s b.length → exec .hufDisp s = .next (errState s 5))

/-! ### Codeword laws -/

/-- R65: the Golomb-Rice decoder gives back the value and the length of any codeword, whatever follows; two codewords
decode to their two values and end at the end. -/
def Obligations.GrCodewordRoundTrip : Prop :=
  (∀ (n : Nat) (t : Bits), grDecode1 (grCode n ++ t) = .ok (n, (grCode n).length)) ∧
  ∀ n1 n2 : Nat, ∃ l1 l2, grDecode1 (grCode n1 ++ grCode n2) = .ok (n1, l1) ∧
    grDecode1 ((grCode n1 ++ grCode n2).drop l1) = .ok (n2, l2) ∧ l1 + l2 = (grCode n1 ++ grCode n2).length

/-- R75: the Elias-Gamma decoder gives back the value and the length `2*floor(log2 n) + 1`; it never returns 0; two
codewords decode to their two values. -/
def Obligations.EgCodewordRoundTrip : Prop :=
  (∀ (n : Nat) (t : Bits), 1 ≤ n → egDecode1 (egCode n ++ t) = .ok (n, 2 * Nat.log2 n + 1)) ∧
  (∀ (s : Bits) (v l : Nat), egDecode1 s = .ok (v, l) → 1 ≤ v) ∧
  ∀ n1 n2 : Nat, 1 ≤ n1 → 1 ≤ n2 → ∃ l1 l2, egDecode1 (egCode n1 ++ egCode n2) = .ok (n1, l1) ∧
    egDecode1 ((egCode n1 ++ egCode n2).drop l1) = .ok (n2, l2) ∧ l1 + l2 = (egCode n1 ++ egCode n2).length

/-- R88: FibGen(n) is a prefix of FIB_TABLE; the Fibonacci decoder gives back the value and the length; it never
returns 0; two codewords decode to their two values. -/
def Obligations.FibCodewordRoundTrip : Prop :=
  (∀ n, 1 ≤ n → n ≤ Config.valMax → fibList n <+: fibTable) ∧
  (∀ (n : Nat) (t : Bits), 1 ≤ n → n ≤ Config.valMax → fibDecode1 (fibCode n ++ t) = .ok (n, (fibCode n).length)) ∧
  (∀ (s : Bits) (v l : Nat), fibDecode1 s = .ok (v, l) → 1 ≤ v) ∧
  ∀ n1 n2 : Nat, 1 ≤ n1 → n1 ≤ Config.valMax → 1 ≤ n2 → n2 ≤ Config.valMax →
    ∃ l1 l2, fibDecode1 (fibCode n1 ++ fibCode n2) = .ok (n1, l1) ∧
      fibDecode1 ((fibCode n1 ++ fibCode n2).drop l1) = .ok (n2, l2) ∧ l1 + l2 = (fibCode n1 ++ fibCode n2).length

/-- R85: the greedy selection has one bit per term of FibGen(n), ends in 1, and has no two adjacent 1 bits; with R84's
sum, it is the Zeckendorf selection of `n`, for every `n >= 1`. -/
def Obligations.FibSelectIsZeckendorf : Prop :=
  ∀ n, 1 ≤ n → (fibSelect n).length = (fibList n).length ∧ (fibSelect n).getLast? = some true ∧
    (∀ j : Nat, ¬ ((fibSelect n)[j]? = some true ∧ (fibSelect n)[j + 1]? = some true)) ∧
    ((List.range (fibList n).length).map
      (fun j => if (fibSelect n)[j]? = some true then ((fibList n)[j]?).getD 0 else 0)).sum = n

/-- R57: the length of a codeword, and its greatest value over the symbols and over the values ARG can hold; a Huffman
codeword of a text with `d` distinct symbols has at most `max 1 (d - 1)` bits. -/
def Obligations.CodewordLengthBounds : Prop :=
  (∀ n, (grCode n).length = n / 8 + 4 ∧ (n ≤ 255 → (grCode n).length ≤ 35) ∧
    (n ≤ Config.valMax → (grCode n).length ≤ 2 ^ 29 + 3)) ∧
  (∀ n, 1 ≤ n → (egCode n).length = 2 * Nat.log2 n + 1 ∧ (n ≤ 255 → (egCode n).length ≤ 15) ∧
    (n ≤ Config.valMax → (egCode n).length ≤ 63)) ∧
  (∀ n, 1 ≤ n → (fibCode n).length = (fibList n).length + 1 ∧ (n ≤ 255 → (fibCode n).length ≤ 13) ∧
    (n ≤ Config.valMax → (fibCode n).length ≤ 47)) ∧
  ∀ (x : List Word) (c : Word) (p : Bits), tableGet (hufAssign (hufBuild x)) c = some p →
    p.length ≤ max 1 ((hufFreq x).length - 1)

/-! ### Encoding then decoding at the unit's interface -/

/-- A single encode that succeeds, then the single decode of its OUT with the same codec: RES is the value that was
encoded and CNT the length of OUT. -/
def Obligations.SingleEncodeDecodeReturnsArg : Prop :=
  ∀ (e d : Instr), (e, d) ∈ [(Instr.grEnc, Instr.grDec), (.egEnc, .egDec), (.fibEnc, .fibDec)] →
    ∀ s t : State, exec e s = .next t → t.status = 0 →
      exec d { t with inp := t.out } = .next (okState { t with inp := t.out } [] s.arg t.out.length)

/-- A text encode that succeeds, then the text decode of its OUT with the same codec, gives the text back, whatever
MAX_OUT is. -/
def Obligations.TextEncodeDecodeReturnsText : Prop :=
  ∀ (e d : Instr), (e, d) ∈ [(Instr.grEnct, Instr.grDect), (.egEnct, .egDect), (.fibEnct, .fibDect)] →
    ∀ s t : State, exec e s = .next t → t.status = 0 →
      exec d { t with inp := t.out } = .next (okState { t with inp := t.out } s.inp 0 0)

/-! ### The Huffman pipeline -/

/-- R96: one pair per distinct symbol with its number of occurrences, in order of first occurrence. -/
def Obligations.FrequencyCounterCounts : Prop :=
  ∀ text : List Word, ((hufFreq text).map Prod.fst).Nodup ∧
    (∀ c, c ∈ (hufFreq text).map Prod.fst ↔ c ∈ text) ∧
    (∀ p ∈ hufFreq text, p.2 = text.count p.1 ∧ 1 ≤ p.2) ∧
    ((hufFreq text).map Prod.fst).Pairwise (fun a b => text.idxOf a < text.idxOf b)

/-- R98 and R100: a merge takes the two least handles in the order of (frequency, handle), the first as the left child
and the second as the right, of a new node with the sum of their frequencies; with fewer than two handles there is no
merge. -/
def Obligations.MergeTakesTwoLeast : Prop :=
  ∀ (nodes : List HufNode) (W : List Nat), W.Nodup →
    (W.length < 2 → mergeOnce nodes W = none) ∧
    (2 ≤ W.length → ∃ a b, a ∈ W ∧ b ∈ W.erase a ∧ (∀ h ∈ W, h ≠ a → KeyBefore nodes a h) ∧
      (∀ h ∈ W.erase a, h ≠ b → KeyBefore nodes b h) ∧
      mergeOnce nodes W =
        some (nodes ++ [.internal (freqAt nodes a + freqAt nodes b) a b], (W.erase a).erase b ++ [nodes.length]))

/-- R97 and R99: the arena begins with one leaf per pair of the frequency counter, in its order; `d` leaves give
`2d - 1` nodes and the last is the root; the empty text gives the empty arena with no root. -/
def Obligations.BuildMakesOneRoot : Prop :=
  ∀ text : List Word,
    ((hufBuild text).nodes.take (hufFreq text).length = (hufFreq text).map (fun p => HufNode.leaf p.1 p.2)) ∧
    (text ≠ [] → (hufBuild text).nodes.length = 2 * (hufFreq text).length - 1 ∧
      (hufBuild text).root = some (2 * (hufFreq text).length - 2)) ∧
    (text = [] → (hufBuild text).nodes = [] ∧ (hufBuild text).root = none)

/-- R111: no frequency in the built arena exceeds the length of the text, and the root's frequency is that length. -/
def Obligations.RootFrequencyIsTextLength : Prop :=
  ∀ text : List Word, (∀ n ∈ (hufBuild text).nodes, n.freq ≤ text.length) ∧
    ∀ r, (hufBuild text).root = some r → freqAt (hufBuild text).nodes r = text.length

/-- R53 and R101: over a well-formed tree, no table for the empty tree, `"0"` for a lone leaf, and otherwise the table
gives a symbol exactly the path from the root to its leaf, a 0 for a left edge and a 1 for a right edge. -/
def Obligations.CodeIsPathToLeaf : Prop :=
  ∀ t : HufTree, ArenaWf t →
    (t.root = none → hufAssign t = []) ∧
    (∀ r c k, t.root = some r → t.nodes[r]? = some (.leaf c k) → hufAssign t = [(c, [false])]) ∧
    (∀ r k a b, t.root = some r → t.nodes[r]? = some (.internal k a b) →
      ∀ c p, tableGet (hufAssign t) c = some p ↔ HufPath t.nodes r p c)

/-- R104: over a well-formed tree with a root (a lone leaf among them) and its table, the tree-walk parser gives the
same output and the same status as the table parser, for every stream and every MAX_OUT. -/
def Obligations.TreeWalkParsesAsTable : Prop :=
  ∀ (t : HufTree) (r : Nat) (cap : Config.Capacity) (s : Bits), ArenaWf t → t.root = some r →
    walkParse cap t.nodes r s = hufParse cap (hufAssign t) s

/-- R109: after a successful HUF.ENC of a text, HUF satisfies its invariant (R29) with HUF_VALID = 1; HUF.DEC of the
OUT gives the text back with OK; and `k >= 1` copies of one symbol give `k` zeros. -/
def Obligations.HuffmanRoundTrip : Prop :=
  ∀ s t : State, exec .hufEnc s = .next t → t.status = 0 →
    (t.huf.valid = true ∧ HufInv t.huf) ∧
    exec .hufDec { t with inp := t.out } = .next (okState { t with inp := t.out } s.inp 0 0) ∧
    ∀ (c : Word) (k : Nat), 1 ≤ k → s.inp = List.replicate k c → t.out = List.replicate k 0

/-- R110: for every choice of least-frequency nodes to merge and of which becomes the left child, the tree and its
table satisfy R29, and the text's codewords parse back to the text. -/
def Obligations.RoundTripForEveryTieBreak : Prop :=
  ∀ (text : List Word) (nodes : List HufNode) (root : Nat), TextIn 0 text →
    AnyMerges (hufLeaves text) (List.range (hufLeaves text).length) nodes [root] →
    ArenaWf ⟨nodes, some root⟩ ∧
    TableWf nodes (hufAssign ⟨nodes, some root⟩) ∧
    (∀ c ∈ text, (tableGet (hufAssign ⟨nodes, some root⟩) c).isSome = true) ∧
    hufParse none (hufAssign ⟨nodes, some root⟩)
      (text.flatMap (fun c => (tableGet (hufAssign ⟨nodes, some root⟩) c).getD [])) = .ok text

/-! ### The whole machine -/

/-- R143, the half on exceptions: whatever CMD holds, a start that ends with a status other than 0 writes only STATUS,
OUT, RES and CNT, and leaves OUT empty and RES and CNT 0; so does every command of the map, wherever it is run. -/
def Obligations.FailedCommandLeavesNothing : Prop :=
  (∀ s t : State, startCommand s = .next t → t.status ≠ 0 → t = errState s t.status) ∧
  ∀ (i : Instr) (s t : State), exec i s = .next t → t.status ≠ 0 → t = errState s t.status

/-- Every command ends with a next state (R139) and one of the codes of R131; IllegalCommand is never the outcome of a
command of the map (R137); StatePrecondition only of HUF.DEC and HUF.DISP (R136). -/
def Obligations.EveryCommandEndsWithStatus : Prop :=
  ∀ (i : Instr) (s : State), ∃ t, exec i s = .next t ∧ t.status ∈ [(0 : BitVec 8), 1, 2, 3, 5] ∧
    (t.status = 3 → i = .hufDec ∨ i = .hufDisp)

/-- A command writes none of CMD, ARG, IN, the capacities and the host's list, and only a successful HUF.ENC writes
HUF (R18 to R20, R27, R31). -/
def Obligations.CommandFrame : Prop :=
  ∀ (i : Instr) (s t : State), exec i s = .next t →
    t.cmd = s.cmd ∧ t.arg = s.arg ∧ t.inp = s.inp ∧ t.maxIn = s.maxIn ∧ t.maxOut = s.maxOut ∧
    t.hostMoves = s.hostMoves ∧ (t.huf = s.huf ∨ (i = .hufEnc ∧ t.status = 0))

/-- R27: only a step that starts a HUF.ENC, or a reset, can change HUF. -/
def Obligations.OnlyHufEncOrResetChangesHuf : Prop :=
  ∀ s t : State, step s = .next t → t.huf ≠ s.huf →
    (∃ rest, s.hostMoves = .reset :: rest) ∨
    (∃ rest, s.hostMoves = .start :: rest ∧ s.cmd = 0x42 ∧ t.status = 0 ∧ t.huf.valid = true)

/-- A command's results depend on nothing but the registers R31 says it reads, and MAX_OUT: not on what earlier
commands left in OUT, RES, CNT and STATUS, and, for every command but HUF.DEC and HUF.DISP, not on HUF (R2, R19, R20,
R144). -/
def Obligations.ResultsDependOnlyOnReads : Prop :=
  ∀ (i : Instr) (s s' t : State), (readsArg i = true → s.arg = s'.arg) → (readsIn i = true → s.inp = s'.inp) →
    (readsHuf i = true → s.huf = s'.huf) → s.maxOut = s'.maxOut → exec i s = .next t →
    ∃ t', exec i s' = .next t' ∧ t'.out = t.out ∧ t'.res = t.res ∧ t'.cnt = t.cnt ∧ t'.status = t.status ∧
      (i = .hufEnc → t.status = 0 → t'.huf = t.huf)

/-- R138: with MAX_OUT unbounded no command raises CapacityExceeded; with a bound, an OUT that a command leaves never
exceeds it. -/
def Obligations.CapacityExceededOnlyWhenBounded : Prop :=
  ∀ (i : Instr) (s t : State), exec i s = .next t →
    (s.maxOut = none → t.status ≠ 5) ∧ (∀ k, s.maxOut = some k → t.out.length ≤ k)

/-- The invariants hold at reset. -/
def Obligations.InvariantsHoldAtReset : Prop :=
  HufInv State.reset.huf ∧ RegInv State.reset

/-- R29: every step keeps the invariant of HUF, from any state that has it. -/
def Obligations.StepKeepsHuffmanInvariant : Prop :=
  ∀ s t : State, HufInv s.huf → step s = .next t → HufInv t.huf

/-- Every step keeps the invariant of the registers, from any state that has it: capacities, status codes, and what an
error leaves. -/
def Obligations.StepKeepsRegisterInvariant : Prop :=
  ∀ s t : State, RegInv s → step s = .next t → RegInv t

/-! ### The host's side -/

/-- R49: for every command and every operand, the command's mnemonic with the operand in its `n`, `b"..."` or `t"..."`
form assembles to exactly the write of the command's CMD value, the write of the operand's value and the start; and the
assembler answers for no other line, so an assembled line writes at most one operand, to the register its command reads
(what it refuses where R49 is silent is the model's choice, log entry 12). -/
def Obligations.AssembledLineStartsCommand : Prop :=
  (∀ (line : List Char) (i : Instr) (w : List HostMove), AsmLine line i w →
    assemble line = some (.writeCmd (encode i) :: w ++ [.start])) ∧
  (∀ (line : List Char) (ms : List HostMove), assemble line = some ms →
    ∃ i w, AsmLine line i w ∧ ms = .writeCmd (encode i) :: w ++ [.start] ∧
      (w = [] ∧ i = .hufDisp ∨ (∃ v, w = [.writeArg v] ∧ readsArg i = true) ∨
        (∃ v, w = [.writeIn v] ∧ readsIn i = true)))

/-- R34: the host's conversion of a bit-string: '0' is 0, '1' is 1, every other character the non-bit 2, which every
bit-consuming command answers with MalformedStream (HUF.DEC once a code is kept). -/
def Obligations.StrayCharacterIsMalformed : Prop :=
  ∀ (str : List Char) (c : Char) (s : State), c ∈ str → c ≠ '0' → c ≠ '1' → s.inp = bitStringIn str →
    ∀ i ∈ [Instr.grDec, .grDect, .egDec, .egDect, .fibDec, .fibDect, .hufDec], (i = .hufDec → s.huf.valid = true) →
      exec i s = .next (errState s 2)
end

