-- ==== Sys2Proof/Laws/State.lean ====
section
/-! SUPPORT. One lemma per field per update of the state, and one per register the host reads. -/

namespace Sys2Proof.Machine

/-! ### raise -/

@[simp] theorem State.raise_cmd (s : State) (e : Err) : (s.raise e).cmd = s.cmd := rfl
@[simp] theorem State.raise_arg (s : State) (e : Err) : (s.raise e).arg = s.arg := rfl
@[simp] theorem State.raise_inp (s : State) (e : Err) : (s.raise e).inp = s.inp := rfl
@[simp] theorem State.raise_out (s : State) (e : Err) : (s.raise e).out = [] := rfl
@[simp] theorem State.raise_res (s : State) (e : Err) : (s.raise e).res = 0 := rfl
@[simp] theorem State.raise_cnt (s : State) (e : Err) : (s.raise e).cnt = 0 := rfl
@[simp] theorem State.raise_status (s : State) (e : Err) : (s.raise e).status = e.code := rfl
@[simp] theorem State.raise_huf (s : State) (e : Err) : (s.raise e).huf = s.huf := rfl
@[simp] theorem State.raise_maxIn (s : State) (e : Err) : (s.raise e).maxIn = s.maxIn := rfl
@[simp] theorem State.raise_maxOut (s : State) (e : Err) : (s.raise e).maxOut = s.maxOut := rfl
@[simp] theorem State.raise_hostMoves (s : State) (e : Err) : (s.raise e).hostMoves = s.hostMoves := rfl

/-! ### complete -/

@[simp] theorem State.complete_cmd (s : State) (c : Completion) : (s.complete c).cmd = s.cmd := rfl
@[simp] theorem State.complete_arg (s : State) (c : Completion) : (s.complete c).arg = s.arg := rfl
@[simp] theorem State.complete_inp (s : State) (c : Completion) : (s.complete c).inp = s.inp := rfl
@[simp] theorem State.complete_out (s : State) (c : Completion) : (s.complete c).out = c.out := rfl
@[simp] theorem State.complete_res (s : State) (c : Completion) : (s.complete c).res = c.res := rfl
@[simp] theorem State.complete_cnt (s : State) (c : Completion) : (s.complete c).cnt = c.cnt := rfl
@[simp] theorem State.complete_status (s : State) (c : Completion) : (s.complete c).status = statusOk := rfl
@[simp] theorem State.complete_huf (s : State) (c : Completion) : (s.complete c).huf = c.huf.getD s.huf := rfl
@[simp] theorem State.complete_maxIn (s : State) (c : Completion) : (s.complete c).maxIn = s.maxIn := rfl
@[simp] theorem State.complete_maxOut (s : State) (c : Completion) : (s.complete c).maxOut = s.maxOut := rfl
@[simp] theorem State.complete_hostMoves (s : State) (c : Completion) : (s.complete c).hostMoves = s.hostMoves := rfl

/-! ### withMoves -/

@[simp] theorem State.withMoves_cmd (s : State) (r : List HostMove) : (s.withMoves r).cmd = s.cmd := rfl
@[simp] theorem State.withMoves_arg (s : State) (r : List HostMove) : (s.withMoves r).arg = s.arg := rfl
@[simp] theorem State.withMoves_inp (s : State) (r : List HostMove) : (s.withMoves r).inp = s.inp := rfl
@[simp] theorem State.withMoves_out (s : State) (r : List HostMove) : (s.withMoves r).out = s.out := rfl
@[simp] theorem State.withMoves_res (s : State) (r : List HostMove) : (s.withMoves r).res = s.res := rfl
@[simp] theorem State.withMoves_cnt (s : State) (r : List HostMove) : (s.withMoves r).cnt = s.cnt := rfl
@[simp] theorem State.withMoves_status (s : State) (r : List HostMove) : (s.withMoves r).status = s.status := rfl
@[simp] theorem State.withMoves_huf (s : State) (r : List HostMove) : (s.withMoves r).huf = s.huf := rfl
@[simp] theorem State.withMoves_maxIn (s : State) (r : List HostMove) : (s.withMoves r).maxIn = s.maxIn := rfl
@[simp] theorem State.withMoves_maxOut (s : State) (r : List HostMove) : (s.withMoves r).maxOut = s.maxOut := rfl
@[simp] theorem State.withMoves_hostMoves (s : State) (r : List HostMove) : (s.withMoves r).hostMoves = r := rfl

/-! ### hostWriteCmd -/

@[simp] theorem hostWriteCmd_cmd (s : State) (v : BitVec 8) : (hostWriteCmd s v).cmd = v := rfl
@[simp] theorem hostWriteCmd_arg (s : State) (v : BitVec 8) : (hostWriteCmd s v).arg = s.arg := rfl
@[simp] theorem hostWriteCmd_inp (s : State) (v : BitVec 8) : (hostWriteCmd s v).inp = s.inp := rfl
@[simp] theorem hostWriteCmd_out (s : State) (v : BitVec 8) : (hostWriteCmd s v).out = s.out := rfl
@[simp] theorem hostWriteCmd_res (s : State) (v : BitVec 8) : (hostWriteCmd s v).res = s.res := rfl
@[simp] theorem hostWriteCmd_cnt (s : State) (v : BitVec 8) : (hostWriteCmd s v).cnt = s.cnt := rfl
@[simp] theorem hostWriteCmd_status (s : State) (v : BitVec 8) : (hostWriteCmd s v).status = s.status := rfl
@[simp] theorem hostWriteCmd_huf (s : State) (v : BitVec 8) : (hostWriteCmd s v).huf = s.huf := rfl
@[simp] theorem hostWriteCmd_maxIn (s : State) (v : BitVec 8) : (hostWriteCmd s v).maxIn = s.maxIn := rfl
@[simp] theorem hostWriteCmd_maxOut (s : State) (v : BitVec 8) : (hostWriteCmd s v).maxOut = s.maxOut := rfl
@[simp] theorem hostWriteCmd_hostMoves (s : State) (v : BitVec 8) : (hostWriteCmd s v).hostMoves = s.hostMoves := rfl

/-! ### hostWriteArg -/

@[simp] theorem hostWriteArg_cmd (s : State) (v : Word) : (hostWriteArg s v).cmd = s.cmd := rfl
@[simp] theorem hostWriteArg_arg (s : State) (v : Word) : (hostWriteArg s v).arg = v := rfl
@[simp] theorem hostWriteArg_inp (s : State) (v : Word) : (hostWriteArg s v).inp = s.inp := rfl
@[simp] theorem hostWriteArg_out (s : State) (v : Word) : (hostWriteArg s v).out = s.out := rfl
@[simp] theorem hostWriteArg_res (s : State) (v : Word) : (hostWriteArg s v).res = s.res := rfl
@[simp] theorem hostWriteArg_cnt (s : State) (v : Word) : (hostWriteArg s v).cnt = s.cnt := rfl
@[simp] theorem hostWriteArg_status (s : State) (v : Word) : (hostWriteArg s v).status = s.status := rfl
@[simp] theorem hostWriteArg_huf (s : State) (v : Word) : (hostWriteArg s v).huf = s.huf := rfl
@[simp] theorem hostWriteArg_maxIn (s : State) (v : Word) : (hostWriteArg s v).maxIn = s.maxIn := rfl
@[simp] theorem hostWriteArg_maxOut (s : State) (v : Word) : (hostWriteArg s v).maxOut = s.maxOut := rfl
@[simp] theorem hostWriteArg_hostMoves (s : State) (v : Word) : (hostWriteArg s v).hostMoves = s.hostMoves := rfl

/-! ### placeCommand -/

@[simp] theorem placeCommand_cmd (s : State) (b : BitVec 8) : (placeCommand s b).cmd = b := rfl
@[simp] theorem placeCommand_arg (s : State) (b : BitVec 8) : (placeCommand s b).arg = s.arg := rfl
@[simp] theorem placeCommand_inp (s : State) (b : BitVec 8) : (placeCommand s b).inp = s.inp := rfl
@[simp] theorem placeCommand_out (s : State) (b : BitVec 8) : (placeCommand s b).out = s.out := rfl
@[simp] theorem placeCommand_res (s : State) (b : BitVec 8) : (placeCommand s b).res = s.res := rfl
@[simp] theorem placeCommand_cnt (s : State) (b : BitVec 8) : (placeCommand s b).cnt = s.cnt := rfl
@[simp] theorem placeCommand_status (s : State) (b : BitVec 8) : (placeCommand s b).status = s.status := rfl
@[simp] theorem placeCommand_huf (s : State) (b : BitVec 8) : (placeCommand s b).huf = s.huf := rfl
@[simp] theorem placeCommand_maxIn (s : State) (b : BitVec 8) : (placeCommand s b).maxIn = s.maxIn := rfl
@[simp] theorem placeCommand_maxOut (s : State) (b : BitVec 8) : (placeCommand s b).maxOut = s.maxOut := rfl
@[simp] theorem placeCommand_hostMoves (s : State) (b : BitVec 8) : (placeCommand s b).hostMoves = .start :: s.hostMoves := rfl

/-! ### hostReset -/

@[simp] theorem hostReset_cmd (s : State) : (hostReset s).cmd = 0 := rfl
@[simp] theorem hostReset_arg (s : State) : (hostReset s).arg = 0 := rfl
@[simp] theorem hostReset_inp (s : State) : (hostReset s).inp = [] := rfl
@[simp] theorem hostReset_out (s : State) : (hostReset s).out = [] := rfl
@[simp] theorem hostReset_res (s : State) : (hostReset s).res = 0 := rfl
@[simp] theorem hostReset_cnt (s : State) : (hostReset s).cnt = 0 := rfl
@[simp] theorem hostReset_status (s : State) : (hostReset s).status = 0 := rfl
@[simp] theorem hostReset_huf (s : State) : (hostReset s).huf = Huf.reset := rfl
@[simp] theorem hostReset_maxIn (s : State) : (hostReset s).maxIn = s.maxIn := rfl
@[simp] theorem hostReset_maxOut (s : State) : (hostReset s).maxOut = s.maxOut := rfl
@[simp] theorem hostReset_hostMoves (s : State) : (hostReset s).hostMoves = s.hostMoves := rfl

/-! ### okState -/

@[simp] theorem okState_cmd (s : State) (o : List Word) (r : Word) (n : Nat) : (Safety.okState s o r n).cmd = s.cmd := rfl
@[simp] theorem okState_arg (s : State) (o : List Word) (r : Word) (n : Nat) : (Safety.okState s o r n).arg = s.arg := rfl
@[simp] theorem okState_inp (s : State) (o : List Word) (r : Word) (n : Nat) : (Safety.okState s o r n).inp = s.inp := rfl
@[simp] theorem okState_out (s : State) (o : List Word) (r : Word) (n : Nat) : (Safety.okState s o r n).out = o := rfl
@[simp] theorem okState_res (s : State) (o : List Word) (r : Word) (n : Nat) : (Safety.okState s o r n).res = r := rfl
@[simp] theorem okState_cnt (s : State) (o : List Word) (r : Word) (n : Nat) : (Safety.okState s o r n).cnt = n := rfl
@[simp] theorem okState_status (s : State) (o : List Word) (r : Word) (n : Nat) : (Safety.okState s o r n).status = 0 := rfl
@[simp] theorem okState_huf (s : State) (o : List Word) (r : Word) (n : Nat) : (Safety.okState s o r n).huf = s.huf := rfl
@[simp] theorem okState_maxIn (s : State) (o : List Word) (r : Word) (n : Nat) : (Safety.okState s o r n).maxIn = s.maxIn := rfl
@[simp] theorem okState_maxOut (s : State) (o : List Word) (r : Word) (n : Nat) : (Safety.okState s o r n).maxOut = s.maxOut := rfl
@[simp] theorem okState_hostMoves (s : State) (o : List Word) (r : Word) (n : Nat) : (Safety.okState s o r n).hostMoves = s.hostMoves := rfl

/-! ### errState -/

@[simp] theorem errState_cmd (s : State) (k : BitVec 8) : (Safety.errState s k).cmd = s.cmd := rfl
@[simp] theorem errState_arg (s : State) (k : BitVec 8) : (Safety.errState s k).arg = s.arg := rfl
@[simp] theorem errState_inp (s : State) (k : BitVec 8) : (Safety.errState s k).inp = s.inp := rfl
@[simp] theorem errState_out (s : State) (k : BitVec 8) : (Safety.errState s k).out = [] := rfl
@[simp] theorem errState_res (s : State) (k : BitVec 8) : (Safety.errState s k).res = 0 := rfl
@[simp] theorem errState_cnt (s : State) (k : BitVec 8) : (Safety.errState s k).cnt = 0 := rfl
@[simp] theorem errState_status (s : State) (k : BitVec 8) : (Safety.errState s k).status = k := rfl
@[simp] theorem errState_huf (s : State) (k : BitVec 8) : (Safety.errState s k).huf = s.huf := rfl
@[simp] theorem errState_maxIn (s : State) (k : BitVec 8) : (Safety.errState s k).maxIn = s.maxIn := rfl
@[simp] theorem errState_maxOut (s : State) (k : BitVec 8) : (Safety.errState s k).maxOut = s.maxOut := rfl
@[simp] theorem errState_hostMoves (s : State) (k : BitVec 8) : (Safety.errState s k).hostMoves = s.hostMoves := rfl

/-! ### hostRead -/

@[simp] theorem hostRead_out (s : State) : hostRead s .out = .seq s.out := rfl
@[simp] theorem hostRead_res (s : State) : hostRead s .res = .word s.res := rfl
@[simp] theorem hostRead_cnt (s : State) : hostRead s .cnt = .count s.cnt := rfl
@[simp] theorem hostRead_status (s : State) : hostRead s .status = .byte s.status := rfl
@[simp] theorem hostRead_hufValid (s : State) : hostRead s .hufValid = .bit (BitVec.ofBool s.huf.valid) := rfl
@[simp] theorem hostRead_paramM (s : State) : hostRead s .paramM = .byte paramM := rfl
@[simp] theorem hostRead_paramRbits (s : State) : hostRead s .paramRbits = .byte paramRbits := rfl
@[simp] theorem hostRead_paramValw (s : State) : hostRead s .paramValw = .byte paramValw := rfl
@[simp] theorem hostRead_paramSymmax (s : State) : hostRead s .paramSymmax = .word paramSymmax := rfl

end Sys2Proof.Machine
end

