-- ==== Sys2Proof/Laws/HostPort.lean ====
section
/-! SUPPORT. What each part of the assembler accepts (30_encoding.md R49), as the grammar of Sys2Proof/Safety.lean says
it. -/

namespace Sys2Proof.Machine

open Sys2Proof.Safety

/-- A digit below 16 by its character code. -/
theorem isDigit_iff_code {d : Nat} (h : d < 16) {c : Char} :
    IsDigit d c ↔ (d < 10 ∧ c.toNat = 0x30 + d) ∨ (10 ≤ d ∧ (c.toNat = 0x57 + d ∨ c.toNat = 0x37 + d)) := by
  have key : ∀ a b : Char, a = b ↔ b.toNat = a.toNat :=
    fun a b => ⟨fun e => by rw [e], fun e => (Char.toNat_inj.mp e).symm⟩
  interval_cases d <;> simp [IsDigit, key]

/-- A character has a value in a base up to 16 exactly when it is a digit below the base. -/
theorem digitValue_eq_some {base d : Nat} (hb : base ≤ 16) {c : Char} :
    digitValue base c = some d ↔ d < base ∧ IsDigit d c := by
  constructor
  · intro h
    have h' : d < base ∧ ((d < 10 ∧ c.toNat = 0x30 + d) ∨ (10 ≤ d ∧ (c.toNat = 0x57 + d ∨ c.toNat = 0x37 + d))) := by
      simp only [digitValue] at h
      split_ifs at h <;> simp at h <;> omega
    exact ⟨h'.1, (isDigit_iff_code (by omega)).mpr h'.2⟩
  · rintro ⟨h1, h2⟩
    rw [isDigit_iff_code (by omega)] at h2
    simp only [digitValue]
    split_ifs <;> first | omega | (dsimp only; rw [if_pos (by omega), Option.some.injEq]; omega)

/-- A string of digits is read with the most significant first, after the value already read. -/
theorem numberFrom_eq_some {base acc n : Nat} (hb : base ≤ 16) {cs : List Char} :
    numberFrom base acc cs = some n ↔
      ∃ ds : List Nat, (∀ d ∈ ds, d < base) ∧ List.Forall₂ IsDigit ds cs ∧
        n = base ^ ds.length * acc + Nat.ofDigits base ds.reverse := by
  induction cs generalizing acc with
  | nil => simp [numberFrom, eq_comm]
  | cons c t ih =>
    rw [numberFrom]
    constructor
    · intro h
      split at h
      · rename_i d hd
        obtain ⟨h1, h2⟩ := (digitValue_eq_some hb).mp hd
        obtain ⟨ds, h3, h4, h5⟩ := ih.mp h
        refine ⟨d :: ds, by simpa using ⟨h1, h3⟩, .cons h2 h4, ?_⟩
        rw [h5, List.reverse_cons, Nat.ofDigits_append]
        simp [Nat.ofDigits_singleton, pow_succ]
        ring
      · cases h
    · rintro ⟨ds, h1, h2, h3⟩
      obtain ⟨d, ds, hd, hds, rfl⟩ := List.forall₂_cons_right_iff.mp h2
      obtain ⟨h4, h5⟩ := List.forall_mem_cons.mp h1
      rw [(digitValue_eq_some hb).mpr ⟨h4, hd⟩]
      refine ih.mpr ⟨ds, h5, hds, ?_⟩
      rw [h3, List.reverse_cons, Nat.ofDigits_append]
      simp [Nat.ofDigits_singleton, pow_succ]
      ring

/-- A whole string of digits is read as the number it writes. -/
theorem numberFrom_eq_numeral {base n : Nat} (hb : base ≤ 16) {cs : List Char} (hne : cs ≠ []) :
    numberFrom base 0 cs = some n ↔ Numeral base n cs := by
  rw [numberFrom_eq_some hb]
  constructor
  · rintro ⟨ds, h1, h2, h3⟩
    refine ⟨ds, ?_, h1, h2, by simpa using h3.symm⟩
    rintro rfl
    exact hne (by simpa using h2)
  · rintro ⟨ds, -, h1, h2, h3⟩
    exact ⟨ds, h1, h2, by simpa using h3.symm⟩

/-- No number is written with no character. -/
theorem not_numeral_nil {base n : Nat} : ¬ Numeral base n [] := by
  rintro ⟨ds, h, -, h2, -⟩
  exact h (by simpa using h2)

/-- A decimal number does not begin with `0x`. -/
theorem not_decimal_0x {n : Nat} {cs : List Char} : ¬ Numeral 10 n ('0' :: 'x' :: cs) := by
  intro h
  have h := (numberFrom_eq_numeral (by decide) (by simp)).mpr h
  have hx : digitValue 10 'x' = none := by decide
  have h0 : digitValue 10 '0' = some 0 := by decide
  simp [numberFrom, h0, hx] at h

/-- The `n` operand: a decimal number or `0x` and a hexadecimal one, which ARG can hold. -/
theorem parseNumber_eq_some {cs : List Char} {v : Word} :
    parseNumber cs = some v ↔
      ∃ n, n ≤ Config.valMax ∧ v = BitVec.ofNat 32 n ∧
        (Numeral 10 n cs ∨ ∃ t, cs = '0' :: 'x' :: t ∧ Numeral 16 n t) := by
  have limit : ∀ r : Option Nat,
      (match r with
        | some n => if n ≤ Config.valMax then some (BitVec.ofNat 32 n) else none
        | none => none) = some v ↔ ∃ n, n ≤ Config.valMax ∧ v = BitVec.ofNat 32 n ∧ r = some n := by
    intro r
    cases r with
    | none => simp
    | some n =>
      simp only [Option.some.injEq]
      constructor
      · intro h
        split at h
        · rename_i hn
          exact ⟨n, hn, (Option.some.inj h).symm, rfl⟩
        · cases h
      · rintro ⟨m, h1, h2, rfl⟩
        rw [if_pos h1, h2]
  unfold parseNumber
  refine (limit _).trans ?_
  refine exists_congr fun n => and_congr_right fun _ => and_congr_right fun _ => ?_
  split
  · simp [not_numeral_nil]
  · simp [not_decimal_0x, not_numeral_nil]
  · rename_i t hne
    rw [numberFrom_eq_numeral (by decide) (fun h => hne h)]
    simp [not_decimal_0x]
  · rename_i hnil h1 h2
    rw [numberFrom_eq_numeral (by decide) (fun h => hnil h)]
    constructor
    · exact .inl
    · rintro (h | ⟨t, rfl, -⟩)
      · exact h
      · exact absurd rfl (h2 t)

/-- The inside of `b"..."`: bits, and the quote that ends the line. -/
theorem parseBits_eq_some {cs : List Char} {x : List Word} :
    parseBits cs = some x ↔
      ∃ bs : Bits, cs = bs.map (fun b => if b then '1' else '0') ++ ['"'] ∧ x = bs.map (fun b => if b then 1 else 0) := by
  induction cs generalizing x with
  | nil => simp [parseBits]
  | cons c t ih =>
    constructor
    · intro h
      rw [parseBits.eq_def] at h
      split at h
      · cases ‹_ = []›
      · rename_i t' he
        cases he
        split at h
        · rename_i ht
          cases h
          exact ⟨[], by simp [ht], rfl⟩
        · cases h
      · rename_i c' t' _ he
        cases he
        split at h
        · rename_i hc
          obtain ⟨y, hy, rfl⟩ := Option.map_eq_some_iff.mp h
          obtain ⟨bs, rfl, rfl⟩ := ih.mp hy
          rcases hc with rfl | rfl
          · exact ⟨false :: bs, rfl, rfl⟩
          · exact ⟨true :: bs, rfl, rfl⟩
        · cases h
    · rintro ⟨bs, h1, rfl⟩
      cases bs with
      | nil =>
        cases h1
        rfl
      | cons b bs =>
        simp only [List.map_cons, List.cons_append, List.cons.injEq] at h1
        obtain ⟨rfl, h1⟩ := h1
        have ht := ih.mpr ⟨bs, h1, rfl⟩
        cases b <;> simp [parseBits, ht, bitElement]

/-- The inside of `t"..."` as the grammar writes it is read as the text it stands for. -/
theorem parseText_of_asmText {cs : List Char} {x : List Word} (h : AsmText cs x) :
    parseText (cs ++ ['"']) = some x := by
  induction h with
  | nil => rfl
  | @plain c cs x h1 h2 _ ih =>
    rw [List.cons_append, parseText.eq_def]
    split <;> simp_all
  | @hex d e h l cs x h1 h2 _ ih =>
    have hd : ∀ {d : Nat} {c : Char}, IsDigit d c → d < 16 := by
      intro d c h
      by_contra hd
      rcases h with h | h <;>
        exact absurd h (by rw [List.getElem?_eq_none (by simpa using Nat.not_lt.mp hd)]; simp)
    have h1' := (digitValue_eq_some (le_refl 16)).mpr ⟨hd h1, h1⟩
    have h2' := (digitValue_eq_some (le_refl 16)).mpr ⟨hd h2, h2⟩
    simp [parseText, numberFrom, h1', h2', ih]
  | quote _ ih => simp [parseText, ih]
  | backslash _ ih => simp [parseText, ih]

/-- What the inside of `t"..."` is read as, the grammar writes, and the closing quote ends the line. -/
theorem asmText_of_parseText {cs : List Char} {x : List Word} (h : parseText cs = some x) :
    ∃ t, cs = t ++ ['"'] ∧ AsmText t x := by
  induction cs using parseText.induct generalizing x with
  | case1 => cases h
  | case2 =>
    simp only [parseText, if_true] at h
    cases h
    exact ⟨[], rfl, .nil⟩
  | case3 t ht => simp [parseText, ht] at h
  | case4 h' l t v hv ih =>
    simp only [parseText, hv, Option.map_eq_some_iff] at h
    obtain ⟨y, hy, rfl⟩ := h
    obtain ⟨t, rfl, ht⟩ := ih hy
    obtain ⟨ds, -, h2, h3⟩ := (numberFrom_eq_some (le_refl 16)).mp hv
    obtain ⟨d, ds, hd, h4, rfl⟩ := List.forall₂_cons_right_iff.mp h2
    obtain ⟨e, es, he, h5, rfl⟩ := List.forall₂_cons_right_iff.mp h4
    obtain rfl := List.forall₂_nil_right_iff.mp h5
    refine ⟨'\\' :: 'x' :: h' :: l :: t, rfl, ?_⟩
    have hv' : v = 16 * d + e := by simpa [Nat.ofDigits, add_comm] using h3
    rw [hv']
    exact .hex hd he ht
  | case5 h' l t hv => simp [parseText, hv] at h
  | case6 t ih =>
    simp only [parseText, Option.map_eq_some_iff] at h
    obtain ⟨y, hy, rfl⟩ := h
    obtain ⟨t, rfl, ht⟩ := ih hy
    exact ⟨_, rfl, .quote ht⟩
  | case7 t ih =>
    simp only [parseText, Option.map_eq_some_iff] at h
    obtain ⟨y, hy, rfl⟩ := h
    obtain ⟨t, rfl, ht⟩ := ih hy
    exact ⟨_, rfl, .backslash ht⟩
  | case8 t h1 h2 h3 =>
    rw [parseText.eq_def] at h
    split at h <;> first | (simp_all; done) | (rename_i hne heq; cases heq; exact (hne rfl).elim)
  | case9 c t h1 h2 h3 h4 h5 ih =>
    have hp : parseText (c :: t) = (parseText t).map (BitVec.ofNat 32 c.toNat :: ·) := by
      rw [parseText.eq_def]
      split <;> simp_all
    rw [hp, Option.map_eq_some_iff] at h
    obtain ⟨y, hy, rfl⟩ := h
    obtain ⟨t, rfl, ht⟩ := ih hy
    exact ⟨c :: t, rfl, .plain (fun e => h1 e) (fun e => h5 e) ht⟩

/-- The mnemonic table gives a command for its own mnemonic and for nothing else. -/
theorem mnemonics_lookup {mn : List Char} {i : Instr} : mnemonics.lookup mn = some i ↔ mn = asmMnemonic i := by
  constructor
  · intro h
    simp only [mnemonics, List.lookup_cons] at h
    repeat'
      split at h
      · rename_i hm
        cases h
        exact eq_of_beq hm
    cases h
  · rintro rfl
    cases i <;> decide

/-- A mnemonic holds no space, so the operand begins at the first one. -/
theorem takeWhile_mnemonic (i : Instr) (t : List Char) (ht : t.head? = none ∨ t.head? = some ' ') :
    (asmMnemonic i ++ t).takeWhile (fun c => c != ' ') = asmMnemonic i := by
  have hi : (asmMnemonic i).all (fun c => c != ' ') = true := by cases i <;> decide
  rw [List.takeWhile_append_of_pos (List.all_eq_true.mp hi)]
  rcases t with - | ⟨c, t⟩
  · simp
  · simp at ht
    simp [ht]

/-- The assembler on a mnemonic and what follows it. -/
theorem assemble_mnemonic (i : Instr) (t : List Char) (ht : t.head? = none ∨ t.head? = some ' ') :
    assemble (asmMnemonic i ++ t) =
      (parseOperand (operandForm i) t).map (fun w => .writeCmd (encode i) :: w ++ [.start]) := by
  rw [assemble, takeWhile_mnemonic i t ht]
  simp only [mnemonics_lookup.mpr rfl, List.drop_left]
  cases parseOperand (operandForm i) t <;> rfl

/-- An assembled line is a mnemonic and an operand of the form its command takes. -/
theorem assemble_eq_some {line : List Char} {ms : List HostMove} (h : assemble line = some ms) :
    ∃ i t w, line = asmMnemonic i ++ t ∧ parseOperand (operandForm i) t = some w ∧
      ms = .writeCmd (encode i) :: w ++ [.start] := by
  rw [assemble] at h
  split at h
  · cases h
  · rename_i i hi
    split at h
    · cases h
    · rename_i w hw
      cases h
      refine ⟨i, _, w, ?_, hw, rfl⟩
      rw [← mnemonics_lookup.mp hi]
      have := List.takeWhile_append_dropWhile (p := fun c => c != ' ') (l := line)
      conv_lhs => rw [← List.take_append_drop (line.takeWhile (fun c => c != ' ')).length line]
      congr 1
      exact (List.prefix_iff_eq_take.mp (List.takeWhile_prefix _)).symm

end Sys2Proof.Machine
end

