-- ==== Sys2Proof/Laws/Ops.lean ====
section
/-! SUPPORT. One lemma for each shared operation that says what it can do: bit sequences, emission, the operand checks,
the unary scan, the end of a command, the shared single and text commands. -/

namespace Sys2Proof.Machine

/-! ### Except -/

@[simp] theorem except_bind_ok {α β : Type} (a : α) (f : α → Except Err β) : (Except.ok a >>= f) = f a := rfl

@[simp] theorem except_bind_error {α β : Type} (e : Err) (f : α → Except Err β) :
    ((Except.error e : Except Err α) >>= f) = .error e := rfl

/-- A bind that answers `ok` had an `ok` to go on from. -/
theorem except_bind_eq_ok {α β : Type} {x : Except Err α} {f : α → Except Err β} {b : β} :
    (x >>= f) = .ok b ↔ ∃ a, x = .ok a ∧ f a = .ok b := by
  cases x <;> simp

/-- A bind that answers an error got it from one of its two parts. -/
theorem except_bind_eq_error {α β : Type} {x : Except Err α} {f : α → Except Err β} {e : Err} :
    (x >>= f) = .error e ↔ x = .error e ∨ ∃ a, x = .ok a ∧ f a = .error e := by
  cases x <;> simp

/-! ### Bit sequences -/

@[simp] theorem zeros_length (k : Nat) : (zeros k).length = k := by simp [zeros]

@[simp] theorem bin_length (v w : Nat) : (bin v w).length = w := by
  induction w generalizing v with
  | zero => rfl
  | succ w ih => simp [bin, ih]

@[simp] theorem val_nil : val [] = 0 := rfl

@[simp] theorem val_append_singleton (s : Bits) (b : Bool) : val (s ++ [b]) = 2 * val s + b.toNat := by
  simp [val]

/-- `val` undoes `bin` on every value that fits (R13). -/
theorem val_bin (v w : Nat) (h : v < 2 ^ w) : val (bin v w) = v := by
  induction w generalizing v with
  | zero => simp [bin]; omega
  | succ w ih =>
    rw [bin, val_append_singleton, ih (v / 2) (by rw [pow_succ] at h; omega)]
    rcases Nat.mod_two_eq_zero_or_one v with hv | hv <;> simp [hv] <;> omega

/-- A bit sequence of length `w` denotes a number below `2 ^ w`. -/
theorem val_lt (s : Bits) : val s < 2 ^ s.length := by
  induction s using List.reverseRecOn with
  | nil => simp
  | append_singleton s b ih =>
    rw [val_append_singleton, List.length_append, List.length_singleton, pow_succ]
    have : b.toNat ≤ 1 := by cases b <;> simp
    omega

/-- A bit sequence that begins with 1 denotes at least 1. -/
theorem val_cons_true_pos (s : Bits) : 1 ≤ val (true :: s) := by
  induction s using List.reverseRecOn with
  | nil => simp [val]
  | append_singleton s b ih =>
    rw [← List.cons_append, val_append_singleton]
    omega

@[simp] theorem bitWords_length (s : Bits) : (bitWords s).length = s.length := by simp [bitWords]

@[simp] theorem bitWords_nil : bitWords [] = [] := rfl

@[simp] theorem bitWords_append (s t : Bits) : bitWords (s ++ t) = bitWords s ++ bitWords t := by simp [bitWords]

theorem bitWord_toNat (b : Bool) : (bitWord b).toNat = b.toNat := by cases b <;> rfl

/-! ### The operand checks -/

/-- Read back, the elements of a bit sequence are that bit sequence. -/
@[simp] theorem checkBits_bitWords (s : Bits) : checkBits (bitWords s) = .ok s := by
  have h1 : (bitWords s).all (fun e => decide (e.toNat ≤ 1)) = true := by
    simp only [List.all_eq_true, bitWords, List.mem_map, decide_eq_true_eq]
    rintro _ ⟨b, -, rfl⟩
    cases b <;> decide
  have h2 : (bitWords s).map (fun e => e == 1) = s := by
    simp only [bitWords, List.map_map]
    conv_rhs => rw [← List.map_id s]
    apply List.map_congr_left
    intro b _
    cases b <;> rfl
  rw [checkBits, if_pos h1, h2]

/-- CheckBits answers with a bit sequence exactly when the elements are that sequence's. -/
theorem checkBits_eq_ok {x : List Word} {s : Bits} : checkBits x = .ok s ↔ x = bitWords s := by
  constructor
  · intro h
    rw [checkBits] at h
    split at h
    · rename_i hx
      injection h with h
      subst h
      rw [bitWords, List.map_map]
      conv_lhs => rw [← List.map_id x]
      apply List.map_congr_left
      intro e he
      have : e.toNat ≤ 1 := by simpa using List.all_eq_true.mp hx e he
      have : e = 0 ∨ e = 1 := by
        rcases Nat.le_one_iff_eq_zero_or_eq_one.mp this with h | h
        · left; exact BitVec.eq_of_toNat_eq (by simpa using h)
        · right; exact BitVec.eq_of_toNat_eq (by simpa using h)
      rcases this with rfl | rfl <;> rfl
    · cases h
  · rintro rfl
    exact checkBits_bitWords s

/-- Elements that are all bits are those of a bit sequence. -/
theorem exists_bitWords {x : List Word} (h : Safety.IsBits x) : ∃ s, x = bitWords s := by
  refine ⟨x.map (fun e => e == 1), checkBits_eq_ok.mp ?_⟩
  rw [checkBits, if_pos]
  simpa [Safety.IsBits] using h

/-- An element that is no bit makes CheckBits raise MalformedStream. -/
theorem checkBits_not_bits {x : List Word} (h : ¬ Safety.IsBits x) : checkBits x = .error .malformedStream := by
  rw [checkBits, if_neg]
  intro hx
  exact h (fun e he => by simpa using List.all_eq_true.mp hx e he)

theorem isBits_bitWords (s : Bits) : Safety.IsBits (bitWords s) := by
  intro e he
  simp only [bitWords, List.mem_map] at he
  obtain ⟨b, -, rfl⟩ := he
  cases b <;> decide

/-- CheckText passes a text in the symbol range. -/
theorem checkText_ok {x : List Word} (h : ∀ c ∈ x, c.toNat ≤ 255) : checkText x = .ok x := by
  rw [checkText, if_pos]
  simpa [Config.symMax] using h

/-- CheckText raises InvalidInput on a text with a symbol out of range. -/
theorem checkText_error {x : List Word} (h : ∃ c ∈ x, 255 < c.toNat) : checkText x = .error .invalidInput := by
  rw [checkText, if_neg]
  obtain ⟨c, hc, hl⟩ := h
  intro hx
  have := List.all_eq_true.mp hx c hc
  simp [Config.symMax] at this
  omega

/-- CheckText answers only with the text it was given, all of it in range. -/
theorem checkText_eq_ok {x y : List Word} : checkText x = .ok y ↔ y = x ∧ ∀ c ∈ x, c.toNat ≤ 255 := by
  constructor
  · intro h
    rw [checkText] at h
    split at h
    · rename_i hx
      injection h with h
      exact ⟨h.symm, fun c hc => by simpa [Config.symMax] using List.all_eq_true.mp hx c hc⟩
    · cases h
  · rintro ⟨rfl, h⟩
    exact checkText_ok h

/-! ### Emission -/

/-- The capacity can hold `n` elements. -/
def Holds (cap : Config.Capacity) (n : Nat) : Prop := ∀ k, cap = some k → n ≤ k

theorem holds_mono {cap : Config.Capacity} {m n : Nat} (h : Holds cap n) (hm : m ≤ n) : Holds cap m :=
  fun k hk => hm.trans (h k hk)

/-- Emission succeeds exactly when the output so far and the new elements fit, and appends them; else
CapacityExceeded (R44, R138). -/
theorem emitAll_ok {cap : Config.Capacity} {o x : List Word} (h : Holds cap (o.length + x.length)) :
    emitAll cap o x = .ok (o ++ x) := by
  induction x generalizing o with
  | nil => simp [emitAll]
  | cons e t ih =>
    have hne : cap ≠ some o.length := by
      intro hc
      have := h _ hc
      simp at this
    rw [emitAll, emit, if_neg hne, except_bind_ok, ih]
    · simp
    · refine holds_mono h ?_
      simp; omega

theorem emitAll_error {cap : Config.Capacity} {o x : List Word} (ho : Holds cap o.length)
    (h : ¬ Holds cap (o.length + x.length)) : emitAll cap o x = .error .capacityExceeded := by
  induction x generalizing o with
  | nil => simp at h; exact absurd ho h
  | cons e t ih =>
    rw [emitAll, emit]
    split
    · rfl
    · rename_i hne
      rw [except_bind_ok]
      apply ih
      · intro k hk
        have h1 := ho k hk
        have h2 : k ≠ o.length := fun hh => hne (hh ▸ hk)
        simp; omega
      · intro hh
        apply h
        intro k hk
        have := hh k hk
        simp at this ⊢
        omega

theorem emit_ok {cap : Config.Capacity} {o : List Word} {e : Word} (h : Holds cap (o.length + 1)) :
    emit cap o e = .ok (o ++ [e]) := by
  rw [emit, if_neg]
  intro hc
  have := h _ hc
  omega

theorem emit_error {cap : Config.Capacity} {o : List Word} {e : Word} (ho : Holds cap o.length)
    (h : ¬ Holds cap (o.length + 1)) : emit cap o e = .error .capacityExceeded := by
  rw [emit, if_pos]
  simp only [Holds, not_forall] at h
  obtain ⟨k, hk, hlt⟩ := h
  have := ho k hk
  rw [hk]
  congr 1
  omega

/-- What an emission can do: append, within the capacity, or raise CapacityExceeded. -/
theorem emitAll_cases (cap : Config.Capacity) (o x : List Word) :
    (emitAll cap o x = .ok (o ++ x) ∧ (Holds cap o.length → Holds cap (o ++ x).length)) ∨
      (emitAll cap o x = .error .capacityExceeded ∧ cap ≠ none) := by
  induction x generalizing o with
  | nil => left; simp [emitAll]
  | cons e t ih =>
    rw [emitAll, emit]
    split
    · right; rename_i h; simp [h]
    · rename_i hne
      rw [except_bind_ok]
      rcases ih (o ++ [e]) with ⟨h1, h2⟩ | h
      · left
        refine ⟨by rw [h1]; simp, ?_⟩
        intro ho
        have := h2 (fun k hk => by
          have h1 := ho k hk
          have h2 : k ≠ o.length := fun hh => hne (hh ▸ hk)
          simp; omega)
        simpa using this
      · right; exact h

/-! ### The end of a command -/

@[simp] theorem finish_ok (s : State) (c : Completion) : s.finish (.ok c) = .next (s.complete c) := rfl

@[simp] theorem finish_error (s : State) (e : Err) : s.finish (.error e) = .next (s.raise e) := rfl

/-- The end of a command is always a next state: the completion it computed, or the error it raised (R143). -/
theorem finish_eq_next {s t : State} {r : Except Err Completion} :
    s.finish r = .next t ↔ (∃ c, r = .ok c ∧ t = s.complete c) ∨ (∃ e, r = .error e ∧ t = s.raise e) := by
  cases r <;> simp [eq_comm]

theorem raise_eq_errState (s : State) (e : Err) : s.raise e = Safety.errState s e.code := rfl

theorem complete_eq_okState (s : State) (o : List Word) (r : Word) (n : Nat) :
    s.complete { out := o, res := r, cnt := n } = Safety.okState s o r n := rfl

/-! ### The unary scan -/

@[simp] theorem unaryPrefix_zeros_true (q : Nat) (t : Bits) :
    unaryPrefix (zeros q ++ true :: t) = .ok (q, true :: t) := by
  induction q with
  | zero => rfl
  | succ q ih =>
    show unaryPrefix (false :: (zeros q ++ true :: t)) = _
    rw [unaryPrefix, ih]
    rfl

@[simp] theorem unaryPrefix_zeros (q : Nat) : unaryPrefix (zeros q) = .error .malformedStream := by
  induction q with
  | zero => rfl
  | succ q ih =>
    show unaryPrefix (false :: zeros q) = _
    rw [unaryPrefix, ih]
    rfl

/-- The scan answers with the zeros it passed and the bits from the first 1 on. -/
theorem unaryPrefix_eq_ok {s u : Bits} {q : Nat} :
    unaryPrefix s = .ok (q, u) ↔ ∃ t, u = true :: t ∧ s = zeros q ++ true :: t := by
  constructor
  · intro h
    induction s generalizing q u with
    | nil => simp [unaryPrefix] at h
    | cons b s ih =>
      cases b with
      | true =>
        simp only [unaryPrefix, Except.ok.injEq, Prod.mk.injEq] at h
        exact ⟨s, h.2.symm, by simp [zeros, ← h.1]⟩
      | false =>
        rw [unaryPrefix, except_bind_eq_ok] at h
        obtain ⟨⟨q', u'⟩, h1, h2⟩ := h
        obtain ⟨t, rfl, rfl⟩ := ih h1
        cases h2
        exact ⟨t, rfl, rfl⟩
  · rintro ⟨t, rfl, rfl⟩
    exact unaryPrefix_zeros_true q t

/-! ### The shared commands -/

/-- A single encode: the codeword, or CapacityExceeded. -/
theorem encodeOne_ok {cap : Config.Capacity} {code : Bits} (h : Holds cap code.length) :
    encodeOne cap code = .ok { out := bitWords code } := by
  rw [encodeOne, emitAll_ok (by simpa using h)]
  simp

theorem encodeOne_error {cap : Config.Capacity} {code : Bits} (h : ¬ Holds cap code.length) :
    encodeOne cap code = .error .capacityExceeded := by
  rw [encodeOne, emitAll_error (fun k _ => by simp) (by simpa using h)]
  rfl

/-- A single decode of a value that fits RES. -/
theorem decodeOne_ok {dec : Bits → Except Err (Nat × Nat)} {s : Bits} {v n : Nat} (h : dec s = .ok (v, n))
    (hv : v ≤ Config.valMax) : decodeOne dec s = .ok { res := BitVec.ofNat 32 v, cnt := n } := by
  rw [decodeOne, h, except_bind_ok]
  simp only
  rw [if_neg (by omega)]
  rfl

/-- A single decode of a value that does not fit RES. -/
theorem decodeOne_large {dec : Bits → Except Err (Nat × Nat)} {s : Bits} {v n : Nat} (h : dec s = .ok (v, n))
    (hv : Config.valMax < v) : decodeOne dec s = .error .malformedStream := by
  rw [decodeOne, h, except_bind_ok]
  simp only
  rw [if_pos hv]

/-- A single decode whose decoder raises. -/
theorem decodeOne_error {dec : Bits → Except Err (Nat × Nat)} {s : Bits} {e : Err} (h : dec s = .error e) :
    decodeOne dec s = .error e := by
  rw [decodeOne, h]
  rfl

/-- A text encode all of whose symbols have a codeword. -/
theorem encodeLoop_ok {cap : Config.Capacity} {code : Word → Except Err Bits} {o text : List Word} {ws : List Bits}
    (hc : List.Forall₂ (fun c w => code c = .ok w) text ws) (h : Holds cap (o.length + ws.flatten.length)) :
    encodeLoop cap code o text = .ok (o ++ bitWords ws.flatten) := by
  induction hc generalizing o with
  | nil => simp [encodeLoop]
  | @cons c w text ws h1 _ ih =>
    rw [encodeLoop, h1, except_bind_ok, emitAll_ok, except_bind_ok, ih]
    · simp
    · refine holds_mono h ?_
      simp; omega
    · refine holds_mono h ?_
      simp

/-- A text encode that runs over the capacity on codewords it has reached. -/
theorem encodeLoop_overflow {cap : Config.Capacity} {code : Word → Except Err Bits} {o pre post : List Word}
    {ws : List Bits} (hc : List.Forall₂ (fun c w => code c = .ok w) pre ws) (ho : Holds cap o.length)
    (h : ¬ Holds cap (o.length + ws.flatten.length)) :
    encodeLoop cap code o (pre ++ post) = .error .capacityExceeded := by
  induction hc generalizing o with
  | nil => simp at h; exact absurd ho h
  | @cons c w pre ws h1 _ ih =>
    rw [List.cons_append, encodeLoop, h1, except_bind_ok]
    by_cases hw : Holds cap (o.length + (bitWords w).length)
    · rw [emitAll_ok hw, except_bind_ok]
      apply ih
      · simpa using hw
      · intro hh
        apply h
        refine holds_mono hh ?_
        simp; omega
    · rw [emitAll_error ho hw]
      rfl

/-- A text encode that reaches a symbol with no codeword. -/
theorem encodeLoop_symbol_error {cap : Config.Capacity} {code : Word → Except Err Bits} {o pre post : List Word}
    {ws : List Bits} {c : Word} {e : Err} (hc : List.Forall₂ (fun c w => code c = .ok w) pre ws)
    (hs : code c = .error e) (h : Holds cap (o.length + ws.flatten.length)) :
    encodeLoop cap code o (pre ++ c :: post) = .error e := by
  induction hc generalizing o with
  | nil => simp [encodeLoop, hs]
  | @cons d w pre ws h1 _ ih =>
    rw [List.cons_append, encodeLoop, h1, except_bind_ok, emitAll_ok, except_bind_ok]
    · apply ih
      refine holds_mono h ?_
      simp; omega
    · refine holds_mono h ?_
      simp

end Sys2Proof.Machine
end

