-- ==== Sys2Proof/Laws/Huffman.lean ====
section
/-! SUPPORT. What the operations of the Huffman codec can do: the code table as a map, the search for a codeword, the
stream parser, the selection of the least handle, and the count of a symbol. -/

namespace Sys2Proof.Machine

open Sys2Proof.Safety

/-! ### The code table (R27, R101) -/

@[simp] theorem tableGet_nil (c : Word) : tableGet [] c = none := rfl

/-- An assignment changes the entry of its symbol and no other. -/
theorem tableGet_tableSet (T : List (Word × Bits)) (c d : Word) (p : Bits) :
    tableGet (tableSet T c p) d = if c = d then some p else tableGet T d := by
  induction T with
  | nil => rfl
  | cons e T ih =>
    obtain ⟨x, q⟩ := e
    rw [tableSet]
    split
    · rfl
    · split
      · rename_i h
        subst h
        simp only [tableGet]
        split <;> rfl
      · rename_i h
        simp only [tableGet, ih]
        by_cases hx : x = d
        · subst hx; simp [h]
        · simp [hx]

/-- The symbols of the table strictly rise. -/
def TableSorted (T : List (Word × Bits)) : Prop := T.Pairwise (fun a b => a.1.toNat < b.1.toNat)

/-- What is in the table after an assignment was assigned or was there before. -/
theorem mem_of_mem_tableSet {T : List (Word × Bits)} {c : Word} {p : Bits} {e : Word × Bits}
    (h : e ∈ tableSet T c p) : e = (c, p) ∨ e ∈ T := by
  induction T with
  | nil => simpa [tableSet] using h
  | cons f T ih =>
    obtain ⟨x, q⟩ := f
    rw [tableSet] at h
    split at h
    · simpa using h
    · split at h
      · rcases List.mem_cons.mp h with h | h
        · exact .inl h
        · exact .inr (List.mem_cons_of_mem _ h)
      · rcases List.mem_cons.mp h with h | h
        · exact .inr (by simp [h])
        · rcases ih h with h | h
          · exact .inl h
          · exact .inr (List.mem_cons_of_mem _ h)

/-- An assignment keeps the table sorted. -/
theorem tableSet_sorted {T : List (Word × Bits)} (h : TableSorted T) (c : Word) (p : Bits) :
    TableSorted (tableSet T c p) := by
  induction T with
  | nil => simp [tableSet, TableSorted]
  | cons f T ih =>
    obtain ⟨x, q⟩ := f
    obtain ⟨h1, h2⟩ := List.pairwise_cons.mp h
    rw [tableSet]
    split
    · rename_i hc
      refine List.pairwise_cons.mpr ⟨?_, h⟩
      intro e he
      rcases List.mem_cons.mp he with rfl | he
      · exact hc
      · exact lt_trans hc (h1 e he)
    · rename_i hc
      split
      · rename_i hx
        subst hx
        exact List.pairwise_cons.mpr ⟨h1, h2⟩
      · rename_i hx
        refine List.pairwise_cons.mpr ⟨?_, ih h2⟩
        intro e he
        rcases mem_of_mem_tableSet he with rfl | he
        · have : c.toNat ≠ x.toNat := fun hh => hx (BitVec.eq_of_toNat_eq hh)
          simp only at hc ⊢
          omega
        · exact h1 e he

/-- In a sorted table the entry of a symbol is the one pair with that symbol. -/
theorem tableGet_eq_some {T : List (Word × Bits)} (h : TableSorted T) {c : Word} {p : Bits} :
    tableGet T c = some p ↔ (c, p) ∈ T := by
  induction T with
  | nil => simp
  | cons f T ih =>
    obtain ⟨x, q⟩ := f
    obtain ⟨h1, h2⟩ := List.pairwise_cons.mp h
    rw [tableGet]
    split
    · rename_i hx
      subst hx
      constructor
      · intro hq; simp at hq; simp [hq]
      · intro hm
        rcases List.mem_cons.mp hm with hm | hm
        · simp at hm; simp [hm]
        · have := h1 _ hm
          simp at this
    · rename_i hx
      rw [ih h2]
      simp [Ne.symm hx]

/-- A codeword that is found stands in the table. -/
theorem mem_of_tableFind {T : List (Word × Bits)} {p : Bits} {c : Word} (h : tableFind T p = some c) : (c, p) ∈ T := by
  induction T with
  | nil => cases h
  | cons f T ih =>
    obtain ⟨x, q⟩ := f
    rw [tableFind] at h
    split at h
    · rename_i hq
      cases h
      simp [hq]
    · exact List.mem_cons_of_mem _ (ih h)

/-- In a prefix-free table a codeword that stands in it is found, and only its own symbol is. -/
theorem tableFind_eq_some {T : List (Word × Bits)} (h : PrefixFree T) {c : Word} {p : Bits} :
    tableFind T p = some c ↔ (c, p) ∈ T := by
  refine ⟨mem_of_tableFind, ?_⟩
  induction T with
  | nil => simp
  | cons f T ih =>
    obtain ⟨x, q⟩ := f
    obtain ⟨h1, h2⟩ := List.pairwise_cons.mp h
    intro hm
    rw [tableFind]
    rcases List.mem_cons.mp hm with hm | hm
    · simp at hm; simp [hm]
    · rw [if_neg]
      · exact ih h2 hm
      · intro hq
        exact (h1 _ hm).1 (by simp [hq])

/-- In a prefix-free table no codeword is a proper prefix of another. -/
theorem prefixFree_eq {T : List (Word × Bits)} (h : PrefixFree T) {a b : Word × Bits} (ha : a ∈ T) (hb : b ∈ T)
    (hp : a.2 <+: b.2) : a = b := by
  induction T with
  | nil => cases ha
  | cons f T ih =>
    obtain ⟨h1, h2⟩ := List.pairwise_cons.mp h
    rcases List.mem_cons.mp ha with ha' | ha'
    · rcases List.mem_cons.mp hb with hb' | hb'
      · rw [ha', hb']
      · rw [ha'] at hp
        exact absurd hp (h1 _ hb').1
    · rcases List.mem_cons.mp hb with hb' | hb'
      · rw [hb'] at hp
        exact absurd hp (h1 _ ha').2
      · exact ih h2 ha' hb'

/-! ### The stream parser (R103) -/

/-- The parser over bits that complete no codeword only collects them. -/
theorem hufParseLoop_skip {cap : Config.Capacity} {T : List (Word × Bits)} {o : List Word} {acc s t : Bits}
    (h : ∀ p, p ≠ [] → p <+: s → tableFind T (acc ++ p) = none) :
    hufParseLoop cap T o acc (s ++ t) = hufParseLoop cap T o (acc ++ s) t := by
  induction s generalizing acc with
  | nil => simp
  | cons b s ih =>
    rw [List.cons_append, hufParseLoop, h [b] (by simp) (by simp)]
    simp only
    rw [ih]
    · simp
    · intro p hp hps
      rw [List.append_assoc]
      exact h ([b] ++ p) (by simp) (by simpa using hps)

/-- The parser on a codeword of a prefix-free table: its symbol is emitted, and the candidate is empty again. -/
theorem hufParseLoop_codeword {cap : Config.Capacity} {T : List (Word × Bits)} (hT : PrefixFree T) {o : List Word}
    {c : Word} {p t : Bits} (hm : (c, p) ∈ T) (hne : p ≠ []) :
    hufParseLoop cap T o [] (p ++ t) = (emit cap o c >>= fun o => hufParseLoop cap T o [] t) := by
  obtain ⟨q, b, rfl⟩ : ∃ q b, p = q ++ [b] := ⟨p.dropLast, p.getLast hne, (List.dropLast_append_getLast hne).symm⟩
  rw [List.append_assoc, hufParseLoop_skip, List.nil_append, List.singleton_append, hufParseLoop,
    (tableFind_eq_some hT).mpr hm]
  intro r _ hr
  rw [List.nil_append]
  by_contra hcon
  obtain ⟨d, hd⟩ := Option.ne_none_iff_exists'.mp hcon
  have hd := mem_of_tableFind hd
  have heq := prefixFree_eq hT hd hm (hr.trans (List.prefix_append _ _))
  have hr' : r = q ++ [b] := congrArg Prod.snd heq
  have := hr.length_le
  rw [hr'] at this
  simp at this

/-- The parser on the codewords of a text that fits the capacity. -/
theorem hufParseLoop_text {cap : Config.Capacity} {T : List (Word × Bits)} (hT : PrefixFree T)
    (hne : ∀ e ∈ T, e.2 ≠ []) {o text : List Word} {ws : List Bits} {rest : Bits}
    (hw : List.Forall₂ (fun c w => (c, w) ∈ T) text ws) (h : Holds cap (o.length + text.length)) :
    hufParseLoop cap T o [] (ws.flatten ++ rest) = hufParseLoop cap T (o ++ text) [] rest := by
  induction hw generalizing o with
  | nil => simp
  | @cons c w text ws h1 _ ih =>
    rw [List.flatten_cons, List.append_assoc, hufParseLoop_codeword hT h1 (hne _ h1),
      emit_ok (holds_mono h (by simp)), except_bind_ok, ih]
    · simp
    · refine holds_mono h ?_
      simp; omega

/-- The parser on the codewords of a text that does not fit the capacity. -/
theorem hufParseLoop_overflow {cap : Config.Capacity} {T : List (Word × Bits)} (hT : PrefixFree T)
    (hne : ∀ e ∈ T, e.2 ≠ []) {o text : List Word} {ws : List Bits} {rest : Bits}
    (hw : List.Forall₂ (fun c w => (c, w) ∈ T) text ws) (ho : Holds cap o.length)
    (h : ¬ Holds cap (o.length + text.length)) :
    hufParseLoop cap T o [] (ws.flatten ++ rest) = .error .capacityExceeded := by
  induction hw generalizing o with
  | nil => simp at h; exact absurd ho h
  | @cons c w text ws h1 _ ih =>
    rw [List.flatten_cons, List.append_assoc, hufParseLoop_codeword hT h1 (hne _ h1)]
    by_cases h' : Holds cap (o.length + 1)
    · rw [emit_ok h', except_bind_ok]
      apply ih
      · simpa using h'
      · intro hh
        exact h (holds_mono hh (by simp; omega))
    · rw [emit_error ho h']
      rfl

/-! ### The selection of the least handle (R98) -/

/-- There is a least handle exactly when there is a handle. -/
theorem leastHandle_eq_none {nodes : List HufNode} {W : List Nat} : leastHandle nodes W = none ↔ W = [] := by
  cases W with
  | nil => simp [leastHandle]
  | cons h t =>
    rw [leastHandle]
    split
    · simp
    · split <;> simp

/-- The least handle is one of the collection. -/
theorem leastHandle_mem {nodes : List HufNode} {W : List Nat} {a : Nat} (h : leastHandle nodes W = some a) :
    a ∈ W := by
  induction W generalizing a with
  | nil => cases h
  | cons g t ih =>
    rw [leastHandle] at h
    split at h
    · cases h; simp
    · rename_i x hx
      split at h
      · cases h; exact List.mem_cons_of_mem _ (ih hx)
      · cases h; simp

/-- No other handle of the collection comes before the least one. -/
theorem leastHandle_least {nodes : List HufNode} {W : List Nat} {a : Nat} (h : leastHandle nodes W = some a) :
    ∀ g ∈ W, g = a ∨ KeyBefore nodes a g := by
  induction W generalizing a with
  | nil => cases h
  | cons g t ih =>
    rw [leastHandle] at h
    split at h
    · rename_i hx
      cases h
      rw [leastHandle_eq_none] at hx
      subst hx
      simp
    · rename_i x hx
      have ih := ih hx
      split at h
      · rename_i hb
        cases h
        simp only [selectsBefore, decide_eq_true_eq] at hb
        intro y hy
        rcases List.mem_cons.mp hy with rfl | hy
        · exact .inr hb
        · exact ih y hy
      · rename_i hb
        cases h
        simp only [selectsBefore, decide_eq_true_eq] at hb
        intro y hy
        rcases List.mem_cons.mp hy with rfl | hy
        · exact .inl rfl
        · have hxy := ih y hy
          simp only [KeyBefore] at hxy ⊢
          rcases hxy with rfl | hxy <;> omega

end Sys2Proof.Machine
end

