-- ==== Sys2Proof/Laws/PerInstr.lean ====
section
/-! SUPPORT. The per-command family `EncodeLegal`: the byte that encodes a command is none of the reserved values of
R48. -/

namespace Sys2Proof.Laws.EncodeLegal

/-- The encoding of the command is not among the reserved CMD values (R48). -/
def Statement (i : Instr) : Prop := wellFormedCmd (encode i) = true

theorem grEnc : Statement .grEnc := rfl
theorem grDec : Statement .grDec := rfl
theorem grEnct : Statement .grEnct := rfl
theorem grDect : Statement .grDect := rfl
theorem egEnc : Statement .egEnc := rfl
theorem egDec : Statement .egDec := rfl
theorem egEnct : Statement .egEnct := rfl
theorem egDect : Statement .egDect := rfl
theorem fibEnc : Statement .fibEnc := rfl
theorem fibDec : Statement .fibDec := rfl
theorem fibEnct : Statement .fibEnct := rfl
theorem fibDect : Statement .fibDect := rfl
theorem fibGen : Statement .fibGen := rfl
theorem hufEnc : Statement .hufEnc := rfl
theorem hufDec : Statement .hufDec := rfl
theorem hufDisp : Statement .hufDisp := rfl

end Sys2Proof.Laws.EncodeLegal
end

