-- ==== Sys2Proof/Laws/TextDecode.lean ====
section
/-! SUPPORT. What the loop of the text decoders can do, for any codeword decoder: it reads codeword after codeword,
stops with CapacityExceeded when the next symbol does not fit, and passes on the error of the first codeword it cannot
read. -/

namespace Sys2Proof.Machine

/-- `w` is a codeword of the symbol `c` for the decoder `dec`, whatever bits follow it. -/
def ReadsSymbol (dec : Bits → Except Err (Nat × Nat)) (c : Word) (w : Bits) : Prop :=
  w ≠ [] ∧ c.toNat ≤ 255 ∧ ∀ t, dec (w ++ t) = .ok (c.toNat, w.length)

@[simp] theorem decodeLoop_nil (cap : Config.Capacity) (dec : Bits → Except Err (Nat × Nat)) (fuel : Nat)
    (o : List Word) : decodeLoop cap dec fuel o [] = .ok o := by
  cases fuel <;> rfl

/-- One pass over a codeword that can be read and whose symbol fits. -/
theorem decodeLoop_symbol {cap : Config.Capacity} {dec : Bits → Except Err (Nat × Nat)} {fuel : Nat} {o : List Word}
    {c : Word} {w t : Bits} (hw : ReadsSymbol dec c w) (h : Holds cap (o.length + 1)) :
    decodeLoop cap dec (fuel + 1) o (w ++ t) = decodeLoop cap dec fuel (o ++ [c]) t := by
  obtain ⟨hne, hc, hd⟩ := hw
  obtain ⟨b, u, rfl⟩ := List.exists_cons_of_ne_nil hne
  have hd := hd t
  rw [List.cons_append] at hd ⊢
  rw [decodeLoop, hd, except_bind_ok]
  simp only
  rw [if_neg (by simp [Config.symMax]; omega), emit_ok h, except_bind_ok]
  congr 1
  · simp
  · rw [← List.cons_append, List.drop_left]

/-- One pass over a codeword whose symbol does not fit. -/
theorem decodeLoop_full {cap : Config.Capacity} {dec : Bits → Except Err (Nat × Nat)} {fuel : Nat} {o : List Word}
    {c : Word} {w t : Bits} (hw : ReadsSymbol dec c w) (ho : Holds cap o.length) (h : ¬ Holds cap (o.length + 1)) :
    decodeLoop cap dec (fuel + 1) o (w ++ t) = .error .capacityExceeded := by
  obtain ⟨hne, hc, hd⟩ := hw
  obtain ⟨b, u, rfl⟩ := List.exists_cons_of_ne_nil hne
  have hd := hd t
  rw [List.cons_append] at hd ⊢
  rw [decodeLoop, hd, except_bind_ok]
  simp only
  rw [if_neg (by simp [Config.symMax]; omega), emit_error ho h]
  rfl

/-- The loop over the codewords of a text that fits: it comes to the bits after them with the text emitted, and with
fuel enough for those bits. -/
theorem decodeLoop_text {cap : Config.Capacity} {dec : Bits → Except Err (Nat × Nat)} {fuel : Nat} {o text : List Word}
    {ws : List Bits} {rest : Bits} (hw : List.Forall₂ (ReadsSymbol dec) text ws)
    (h : Holds cap (o.length + text.length)) (hf : (ws.flatten ++ rest).length ≤ fuel) :
    ∃ fuel', rest.length ≤ fuel' ∧
      decodeLoop cap dec fuel o (ws.flatten ++ rest) = decodeLoop cap dec fuel' (o ++ text) rest := by
  induction hw generalizing o fuel with
  | nil => exact ⟨fuel, by simpa using hf, by simp⟩
  | @cons c w text ws h1 _ ih =>
    have hlen : 0 < w.length := List.length_pos_iff.mpr h1.1
    obtain ⟨fuel, rfl⟩ : ∃ f, fuel = f + 1 := ⟨fuel - 1, by simp at hf; omega⟩
    obtain ⟨fuel', hf', he⟩ := ih (o := o ++ [c]) (fuel := fuel) (by
      refine holds_mono h ?_
      simp; omega) (by simp at hf ⊢; omega)
    refine ⟨fuel', hf', ?_⟩
    rw [List.flatten_cons, List.append_assoc, decodeLoop_symbol h1 (holds_mono h (by simp)), he]
    simp

/-- The loop over the codewords of a text that does not fit. -/
theorem decodeLoop_overflow {cap : Config.Capacity} {dec : Bits → Except Err (Nat × Nat)} {fuel : Nat}
    {o text : List Word} {ws : List Bits} {rest : Bits} (hw : List.Forall₂ (ReadsSymbol dec) text ws)
    (ho : Holds cap o.length) (h : ¬ Holds cap (o.length + text.length))
    (hf : (ws.flatten ++ rest).length ≤ fuel) :
    decodeLoop cap dec fuel o (ws.flatten ++ rest) = .error .capacityExceeded := by
  induction hw generalizing o fuel with
  | nil => simp at h; exact absurd ho h
  | @cons c w text ws h1 _ ih =>
    have hlen : 0 < w.length := List.length_pos_iff.mpr h1.1
    obtain ⟨fuel, rfl⟩ : ∃ f, fuel = f + 1 := ⟨fuel - 1, by simp at hf; omega⟩
    rw [List.flatten_cons, List.append_assoc]
    by_cases h' : Holds cap (o.length + 1)
    · rw [decodeLoop_symbol h1 h']
      apply ih
      · simpa using h'
      · intro hh
        exact h (holds_mono hh (by simp; omega))
      · simp at hf ⊢; omega
    · rw [decodeLoop_full h1 ho h']

/-- The loop on bits whose first codeword cannot be read. -/
theorem decodeLoop_error {cap : Config.Capacity} {dec : Bits → Except Err (Nat × Nat)} {fuel : Nat} {o : List Word}
    {s : Bits} {e : Err} (hs : s ≠ []) (hd : dec s = .error e) (hf : s.length ≤ fuel) :
    decodeLoop cap dec fuel o s = .error e := by
  obtain ⟨b, t, rfl⟩ := List.exists_cons_of_ne_nil hs
  obtain ⟨fuel, rfl⟩ : ∃ f, fuel = f + 1 := ⟨fuel - 1, by simp at hf; omega⟩
  rw [decodeLoop, hd]
  rfl

/-- The loop on bits whose first codeword is of a value above SYM_MAX. -/
theorem decodeLoop_large {cap : Config.Capacity} {dec : Bits → Except Err (Nat × Nat)} {fuel : Nat} {o : List Word}
    {s : Bits} {v n : Nat} (hs : s ≠ []) (hd : dec s = .ok (v, n)) (hv : 255 < v) (hf : s.length ≤ fuel) :
    decodeLoop cap dec fuel o s = .error .malformedStream := by
  obtain ⟨b, t, rfl⟩ := List.exists_cons_of_ne_nil hs
  obtain ⟨fuel, rfl⟩ : ∃ f, fuel = f + 1 := ⟨fuel - 1, by simp at hf; omega⟩
  rw [decodeLoop, hd, except_bind_ok]
  simp only
  rw [if_pos (by simpa [Config.symMax] using hv)]

/-- A decoder that raises nothing but MalformedStream gives a loop whose output never passes the capacity. -/
theorem decodeLoop_holds {cap : Config.Capacity} {dec : Bits → Except Err (Nat × Nat)} {fuel : Nat}
    {o o' : List Word} {s : Bits} (ho : Holds cap o.length) (h : decodeLoop cap dec fuel o s = .ok o') :
    Holds cap o'.length := by
  induction fuel generalizing o s with
  | zero =>
    cases s with
    | nil => simp at h; exact h ▸ ho
    | cons b t => simp [decodeLoop] at h
  | succ fuel ih =>
    cases s with
    | nil => simp at h; exact h ▸ ho
    | cons b t =>
      rw [decodeLoop, except_bind_eq_ok] at h
      obtain ⟨⟨v, n⟩, -, h⟩ := h
      simp only at h
      split at h
      · cases h
      · rw [except_bind_eq_ok] at h
        obtain ⟨o1, h1, h⟩ := h
        rw [emit] at h1
        split at h1
        · cases h1
        · rename_i hne
          cases h1
          apply ih _ h
          intro k hk
          have h1 := ho k hk
          have h2 : k ≠ o.length := fun hh => hne (hh ▸ hk)
          simp; omega

end Sys2Proof.Machine
end

