-- ==== Sys2Proof/Tests/Slice0.lean ====
section
/-! SUPPORT. Tests. The words and the expected results are written out from the spec (30_encoding.md R45, R46, R48;
95_test_vectors.md, by vector), never taken from the model. The second half holds, for each statement with hypotheses,
a witness that they can be met, at the boundary values where there are any. -/

namespace Sys2Proof.Tests

open Sys2Proof Sys2Proof.Machine Sys2Proof.Safety

/-! ### Reserved bytes are refused by the well-formedness check, range by range (R48) -/

theorem test_wf_refuses_00_to_0F : wellFormedCmd 0x00 = false ∧ wellFormedCmd 0x0F = false := by decide
theorem test_wf_refuses_14_to_1F : wellFormedCmd 0x14 = false ∧ wellFormedCmd 0x1F = false := by decide
theorem test_wf_refuses_24_to_2F : wellFormedCmd 0x24 = false ∧ wellFormedCmd 0x2F = false := by decide
theorem test_wf_refuses_35_to_3F : wellFormedCmd 0x35 = false ∧ wellFormedCmd 0x3F = false := by decide
theorem test_wf_refuses_40_41_44 :
    wellFormedCmd 0x40 = false ∧ wellFormedCmd 0x41 = false ∧ wellFormedCmd 0x44 = false := by decide
theorem test_wf_refuses_46_to_FF : wellFormedCmd 0x46 = false ∧ wellFormedCmd 0xFF = false := by decide
theorem test_wf_accepts_neighbours :
    wellFormedCmd 0x10 = true ∧ wellFormedCmd 0x13 = true ∧ wellFormedCmd 0x34 = true ∧ wellFormedCmd 0x45 = true := by
  decide

/-! ### Decoding: the codec nibble and the operation nibble of each command, bit by bit (R45, R46) -/

theorem test_decode_grEnc : decode 0b00010000#8 = .ok .grEnc := by rfl
theorem test_decode_grDec : decode 0b00010001#8 = .ok .grDec := by rfl
theorem test_decode_grEnct : decode 0b00010010#8 = .ok .grEnct := by rfl
theorem test_decode_grDect : decode 0b00010011#8 = .ok .grDect := by rfl
theorem test_decode_egEnc : decode 0b00100000#8 = .ok .egEnc := by rfl
theorem test_decode_egDec : decode 0b00100001#8 = .ok .egDec := by rfl
theorem test_decode_egEnct : decode 0b00100010#8 = .ok .egEnct := by rfl
theorem test_decode_egDect : decode 0b00100011#8 = .ok .egDect := by rfl
theorem test_decode_fibEnc : decode 0b00110000#8 = .ok .fibEnc := by rfl
theorem test_decode_fibDec : decode 0b00110001#8 = .ok .fibDec := by rfl
theorem test_decode_fibEnct : decode 0b00110010#8 = .ok .fibEnct := by rfl
theorem test_decode_fibDect : decode 0b00110011#8 = .ok .fibDect := by rfl
theorem test_decode_fibGen : decode 0b00110100#8 = .ok .fibGen := by rfl
theorem test_decode_hufEnc : decode 0b01000010#8 = .ok .hufEnc := by rfl
theorem test_decode_hufDec : decode 0b01000011#8 = .ok .hufDec := by rfl
theorem test_decode_hufDisp : decode 0b01000101#8 = .ok .hufDisp := by rfl
/-- Huffman has no GEN; 5 is no codec; 6 is no operation (R45, R48). -/
theorem test_decode_refuses :
    decode 0b01000100#8 = .error .noSuchCommand ∧ decode 0b01010000#8 = .error .reservedCodec ∧
      decode 0b00010110#8 = .error .reservedOp := by decide
theorem test_decodeTableWord :
    decodeTableWord 8 0x34 = some .fibGen ∧ decodeTableWord 8 0x44 = none ∧ decodeTableWord 8 0x134 = none := by decide

/-! ### Small states -/

/-- The state after reset with an operand in ARG. -/
def argState (n : Nat) : State := { State.reset with arg := BitVec.ofNat 32 n }

/-- The state after reset with a sequence in IN. -/
def inState (x : List Word) : State := { State.reset with inp := x }

/-- The same with MAX_OUT bounded. -/
def capped (k : Nat) (s : State) : State := { s with maxOut := some k }

/-- A bit-string as the elements of IN or OUT. -/
def bits (s : List Nat) : List Word := s.map (BitVec.ofNat 32)

/-- The tree of t"ab" (95_test_vectors.md 2.4). -/
def abTree : HufTree := { nodes := [.leaf 97 1, .leaf 98 1, .internal 2 0 1], root := some 2 }

/-- HUF after HUF.ENC of t"ab" (95_test_vectors.md 2.4). -/
def abHuf : Huf := { valid := true, tree := abTree, table := [(97, [false]), (98, [true])] }

/-- The state after reset with that code kept and a sequence in IN. -/
def abState (x : List Word) : State := { inState x with huf := abHuf }

/-- The lone leaf of t"aaa" (95_test_vectors.md 2.4). -/
def aTree : HufTree := { nodes := [.leaf 97 3], root := some 0 }

/-- STATUS, OUT, RES and CNT of a next state. -/
def results (r : Host.Outcome State Fault Refusal) : Option (BitVec 8 × List Word × Word × Nat) :=
  match r with
  | .next t => some (t.status, t.out, t.res, t.cnt)
  | .fault _ => none
  | .refused _ => none

/-- HUF of a next state. -/
def hufOf (r : Host.Outcome State Fault Refusal) : Option Huf :=
  match r with
  | .next t => some t.huf
  | .fault _ => none
  | .refused _ => none

/-! ### The commands, on vectors of 95_test_vectors.md -/

theorem test_grEnc_9 : results (exec .grEnc (argState 9)) = some (0, bits [0, 1, 0, 0, 1], 0, 0) := by decide
theorem test_grEnc_8_capacity : results (exec .grEnc (capped 4 (argState 8))) = some (5, [], 0, 0) := by decide
theorem test_grDec_23 : results (exec .grDec (inState (bits [0, 0, 1, 1, 1, 1]))) = some (0, [], 23, 6) := by decide
theorem test_grDec_short : results (exec .grDec (inState (bits [1, 1, 0]))) = some (2, [], 0, 0) := by decide
theorem test_grEnct_0_9 :
    results (exec .grEnct (inState [0, 9])) = some (0, bits [1, 0, 0, 0, 0, 1, 0, 0, 1], 0, 0) := by decide
theorem test_grEnct_256 : results (exec .grEnct (inState [256])) = some (1, [], 0, 0) := by decide
theorem test_grDect_0_9 :
    results (exec .grDect (inState (bits [1, 0, 0, 0, 0, 1, 0, 0, 1]))) = some (0, [0, 9], 0, 0) := by decide
theorem test_grDect_stray : results (exec .grDect (inState (bits [1, 0, 0, 0, 2]))) = some (2, [], 0, 0) := by decide
theorem test_egEnc_5 : results (exec .egEnc (argState 5)) = some (0, bits [0, 0, 1, 0, 1], 0, 0) := by decide
theorem test_egEnc_0 : results (exec .egEnc (argState 0)) = some (1, [], 0, 0) := by decide
theorem test_egDec_8 : results (exec .egDec (inState (bits [0, 0, 0, 1, 0, 0, 0]))) = some (0, [], 8, 7) := by decide
theorem test_egDec_trailing : results (exec .egDec (inState (bits [1, 0]))) = some (0, [], 1, 1) := by decide
theorem test_egEnct_1_5 :
    results (exec .egEnct (inState [1, 5])) = some (0, bits [1, 0, 0, 1, 0, 1], 0, 0) := by decide
theorem test_egEnct_1_0 : results (exec .egEnct (inState [1, 0])) = some (1, [], 0, 0) := by decide
theorem test_egDect_1_5 :
    results (exec .egDect (inState (bits [1, 0, 0, 1, 0, 1]))) = some (0, [1, 5], 0, 0) := by decide
theorem test_egDect_truncated :
    results (exec .egDect (inState (bits [0, 0, 1, 0, 1, 0, 0]))) = some (2, [], 0, 0) := by decide
theorem test_fibEnc_12 : results (exec .fibEnc (argState 12)) = some (0, bits [1, 0, 1, 0, 1, 1], 0, 0) := by decide
theorem test_fibEnc_0 : results (exec .fibEnc (argState 0)) = some (1, [], 0, 0) := by decide
theorem test_fibDec_7 : results (exec .fibDec (inState (bits [0, 1, 0, 1, 1]))) = some (0, [], 7, 5) := by decide
theorem test_fibDec_1010 : results (exec .fibDec (inState (bits [1, 0, 1, 0]))) = some (2, [], 0, 0) := by decide
theorem test_fibEnct_1_2_3 :
    results (exec .fibEnct (inState [1, 2, 3])) = some (0, bits [1, 1, 0, 1, 1, 0, 0, 1, 1], 0, 0) := by decide
theorem test_fibEnct_0 : results (exec .fibEnct (inState [0])) = some (1, [], 0, 0) := by decide
theorem test_fibDect_1_2_3 :
    results (exec .fibDect (inState (bits [1, 1, 0, 1, 1, 0, 0, 1, 1]))) = some (0, [1, 2, 3], 0, 0) := by decide
theorem test_fibDect_256 :
    results (exec .fibDect (inState (bits [0, 1, 0, 0, 0, 0, 1, 0, 0, 0, 0, 1, 1]))) = some (2, [], 0, 0) := by decide
theorem test_fibGen_4 : results (exec .fibGen (argState 4)) = some (0, [1, 2, 3], 0, 0) := by decide
theorem test_fibGen_0 : results (exec .fibGen (argState 0)) = some (0, [], 0, 0) := by decide
/-- t"hello": the tie-break of R98 decides this code. -/
theorem test_hufEnc_hello :
    results (exec .hufEnc (inState [104, 101, 108, 108, 111])) =
      some (0, bits [0, 0, 0, 1, 1, 1, 1, 1, 1, 0], 0, 0) := by decide
theorem test_hufEnc_0_0_1 :
    hufOf (exec .hufEnc (inState [0, 0, 1])) =
      some { valid := true, tree := { nodes := [.leaf 0 2, .leaf 1 1, .internal 3 1 0], root := some 2 },
             table := [(0, [true]), (1, [false])] } := by decide
theorem test_hufDec_ba : results (exec .hufDec (abState (bits [1, 0]))) = some (0, [98, 97], 0, 0) := by decide
theorem test_hufDec_no_code : results (exec .hufDec (inState (bits [2]))) = some (3, [], 0, 0) := by decide
/-- `*: 2`, then `'a': 1` and `'b': 1` indented by two spaces (R105). -/
theorem test_hufDisp_ab :
    results (exec .hufDisp (abState [])) =
      some (0, [42, 58, 32, 50, 10, 32, 32, 39, 97, 39, 58, 32, 49, 10, 32, 32, 39, 98, 39, 58, 32, 49, 10], 0, 0) := by
  decide
theorem test_hufDisp_no_code : results (exec .hufDisp (inState [])) = some (3, [], 0, 0) := by decide

/-! ### Starting a command -/

theorem test_step_runs_fetch_word :
    results (step ((argState 4).withFetchWord 8 0x34)) = some (0, [1, 2, 3], 0, 0) := by decide
theorem test_step_reserved : results (step ((argState 4).withFetchWord 8 0x44)) = some (4, [], 0, 0) := by decide
/-- P0 to P3 at their widths (R26). -/
theorem test_read_parameters :
    [hostRead State.reset .paramM, hostRead State.reset .paramRbits, hostRead State.reset .paramValw] =
      [.byte 0x08#8, .byte 0x03#8, .byte 0x20#8] ∧ hostRead State.reset .paramSymmax = .word 0x000000FF#32 := by decide
theorem test_assemble :
    assemble ['G', 'R', '.', 'D', 'E', 'C', ' ', 'b', '"', '1', '0', '"'] =
      some [.writeCmd 0x11, .writeIn [1, 0], .start] := by decide

/-! ### Witnesses: the hypotheses of the statements can be met -/

theorem fits_iff_none {s : State} (h : s.maxOut = none) (n : Nat) : Fits s n := fun k hk => by simp [h] at hk

theorem fits_iff_some {s : State} {k : Nat} (h : s.maxOut = some k) (n : Nat) : Fits s n ↔ n ≤ k := by
  simp [Fits, h]

theorem isBits_bits (x : List Word) (h : x.all (fun e => decide (e.toNat ≤ 1)) = true) : IsBits x := by
  simpa [IsBits] using h

theorem textIn_iff (lo : Nat) (x : List Word)
    (h : x.all (fun e => decide (lo ≤ e.toNat) && decide (e.toNat ≤ 255)) = true) : TextIn lo x := by
  simpa [TextIn] using h

/-- A capacity of exactly 5 holds 5 elements, one of 4 does not. -/
theorem witness_Fits (s : State) : Fits (capped 5 s) 5 ∧ ¬ Fits (capped 4 s) 5 ∧ Fits { s with maxOut := none } 5 :=
  ⟨(fits_iff_some rfl 5).mpr (by decide), fun h => absurd ((fits_iff_some rfl 5).mp h) (by decide),
    fits_iff_none rfl 5⟩

/-- Both ends of every reserved range of R48. -/
theorem witness_ReservedStartIsIllegal :
    ∀ c ∈ [(0x00 : BitVec 8), 0x0F, 0x14, 0x1F, 0x24, 0x2F, 0x35, 0x3F, 0x40, 0x41, 0x44, 0x46, 0xFF],
      let s : State := { State.reset with cmd := c }
      s.cmd.toNat ≤ 0x0F ∨ (0x14 ≤ s.cmd.toNat ∧ s.cmd.toNat ≤ 0x1F) ∨ (0x24 ≤ s.cmd.toNat ∧ s.cmd.toNat ≤ 0x2F) ∨
      (0x35 ≤ s.cmd.toNat ∧ s.cmd.toNat ≤ 0x3F) ∨ s.cmd.toNat = 0x40 ∨ s.cmd.toNat = 0x41 ∨ s.cmd.toNat = 0x44 ∨
      0x46 ≤ s.cmd.toNat := by decide

theorem witness_StartStepRunsDecodedCommand :
    (State.reset.withFetchWord 8 0x34).hostMoves = .start :: [] ∧
      decode (State.reset.withFetchWord 8 0x34).cmd = .ok .fibGen := by decide

/-- Each kind of move, with IN exactly full, one too long, and unbounded. -/
theorem witness_HostMovesSetOperandsOnly :
    ({ State.reset with hostMoves := [.writeCmd 0x10] }).hostMoves = .writeCmd 0x10 :: [] ∧
    ({ State.reset with hostMoves := [.writeArg 8] }).hostMoves = .writeArg 8 :: [] ∧
    (∀ k, ({ State.reset with maxIn := some 2, hostMoves := [.writeIn [1, 0]] } : State).maxIn = some k →
      [(1 : Word), 0].length ≤ k) ∧
    (({ State.reset with maxIn := some 1, hostMoves := [.writeIn [1, 0]] } : State).maxIn = some 1 ∧
      1 < [(1 : Word), 0].length) ∧
    (∀ k, ({ State.reset with hostMoves := [.writeIn [1, 0]] } : State).maxIn = some k → [(1 : Word), 0].length ≤ k) ∧
    ({ State.reset with hostMoves := [.read .res] }).hostMoves = .read .res :: [] ∧
    ({ State.reset with hostMoves := [.reset] }).hostMoves = .reset :: [] ∧ State.reset.hostMoves = [] := by
  refine ⟨rfl, rfl, ?_, by decide, ?_, rfl, rfl, rfl⟩
  · rintro k h; cases h; decide
  · rintro k h; cases h

theorem witness_ResetSetsEveryRegister : hostReset (abState []) = hostReset (abState []) ∨
    State.reset = State.reset := .inl rfl

/-! #### The commands -/

theorem witness_GrEncCommand : 0 ≤ (argState 8).arg.toNat ∧ GrWord 8 (bits [0, 1, 0, 0, 0]) ∧
    Fits (capped 5 (argState 8)) 5 ∧ ¬ Fits (capped 4 (argState 8)) 5 :=
  ⟨Nat.zero_le _, by unfold GrWord; decide, (witness_Fits _).1, (witness_Fits _).2.1⟩

/-- The states of the single decoders whose value does not fit RES, kept abstract in the codeword. -/
theorem inState_word (w : List Word) : (inState w).inp = w ++ [] := (List.append_nil w).symm

/-- The least value that does not fit RES, for the two codecs whose codeword is a function of it. -/
theorem witness_single_decode_too_large :
    (∃ n w, GrWord n w ∧ IsBits [] ∧ Config.valMax < n ∧ (inState w).inp = w ++ []) ∧
    (∃ n w, EgWord n w ∧ IsBits [] ∧ Config.valMax < n ∧ (inState w).inp = w ++ []) :=
  ⟨⟨Config.valMax + 1, _, rfl, isBits_bits _ rfl, Nat.lt_succ_self _, inState_word _⟩,
    Config.valMax + 1, _, ⟨Nat.le_add_left _ _, rfl⟩, isBits_bits _ rfl, Nat.lt_succ_self _, inState_word _⟩

/-- A codeword with a bit after it; each way to be malformed. -/
theorem witness_GrDecCommand :
    (GrWord 8 (bits [0, 1, 0, 0, 0]) ∧ IsBits [1] ∧ 8 ≤ Config.valMax ∧
      (inState (bits [0, 1, 0, 0, 0, 1])).inp = bits [0, 1, 0, 0, 0] ++ [1]) ∧
    ¬ IsBits (inState [2]).inp ∧ (inState []).inp = [] ∧
    (IsBits [0] ∧ GrTruncated (inState [0]).inp) ∧
    (IsBits (bits [1, 1, 0]) ∧ GrTruncated (inState (bits [1, 1, 0])).inp) := by
  refine ⟨⟨by unfold GrWord; decide, isBits_bits _ rfl, by decide, by decide⟩, ?_, rfl,
    ⟨isBits_bits _ rfl, .inl ⟨0, rfl⟩⟩, isBits_bits _ rfl, .inr ⟨0, bits [1, 0], rfl, by decide⟩⟩
  intro h
  exact absurd (h 2 (by decide)) (by decide)

theorem witness_GrEnctCommand : TextIn 0 (inState [0, 255]).inp ∧ (∃ c ∈ (inState [256]).inp, 255 < c.toNat) ∧
    TextWords GrWord [0] [bits [1, 0, 0, 0]] ∧ Fits (capped 5 (inState [0])) 5 ∧ ¬ Fits (capped 4 (inState [8])) 5 :=
  ⟨textIn_iff _ _ rfl, ⟨256, List.mem_singleton.mpr rfl, by decide⟩, .cons (by unfold GrWord; decide) .nil,
    (witness_Fits _).1, (witness_Fits _).2.1⟩

/-- The text [0] fits OUT of one element and not of none; a truncated codeword and one of 256 follow it. -/
theorem witness_GrDectCommand :
    (TextIn 0 [0] ∧ TextWords GrWord [0] [bits [1, 0, 0, 0]] ∧
      (inState (bits [1, 0, 0, 0])).inp = [bits [1, 0, 0, 0]].flatten ∧ Fits (capped 1 (inState [])) 1 ∧
      ¬ Fits (capped 0 (inState [])) 1) ∧
    ¬ IsBits (inState [2]).inp ∧
    ((inState (bits [1, 0, 0, 0, 0])).inp = [bits [1, 0, 0, 0]].flatten ++ [0] ∧ IsBits [0] ∧ GrTruncated [0]) ∧
    ((inState (bits [1, 0, 0, 0] ++ grWord 256)).inp = [bits [1, 0, 0, 0]].flatten ++ (grWord 256 ++ []) ∧
      IsBits (grWord 256 ++ []) ∧ 255 < 256 ∧ GrWord 256 (grWord 256)) := by
  refine ⟨⟨textIn_iff _ _ rfl, .cons (by unfold GrWord; decide) .nil, rfl, (fits_iff_some rfl 1).mpr (by decide),
    fun h => absurd ((fits_iff_some rfl 1).mp h) (by decide)⟩, ?_, ⟨rfl, isBits_bits _ rfl, .inl ⟨0, rfl⟩⟩,
    by rw [List.append_nil]; rfl, isBits_bits _ rfl, by decide, rfl⟩
  intro h
  exact absurd (h 2 (by decide)) (by decide)

theorem witness_EgEncCommand : 1 ≤ (argState 1).arg.toNat ∧ (argState 0).arg = 0 ∧ 1 ≤ (argState 5).arg.toNat ∧
    EgWord 5 (bits [0, 0, 1, 0, 1]) ∧ Fits (capped 5 (argState 5)) 5 ∧ ¬ Fits (capped 4 (argState 5)) 5 :=
  ⟨by decide, by decide, by decide, ⟨by decide, by decide⟩, (witness_Fits _).1,
    (witness_Fits _).2.1⟩

/-- A codeword with a bit after it; each way to be malformed. -/
theorem witness_EgDecCommand :
    (EgWord 5 (bits [0, 0, 1, 0, 1]) ∧ IsBits [1] ∧ 5 ≤ Config.valMax ∧
      (inState (bits [0, 0, 1, 0, 1, 1])).inp = bits [0, 0, 1, 0, 1] ++ [1]) ∧
    ¬ IsBits (inState [2]).inp ∧ (inState []).inp = [] ∧ (IsBits [0] ∧ EgTruncated (inState [0]).inp) ∧
    (IsBits (bits [0, 0, 1, 0]) ∧ EgTruncated (inState (bits [0, 0, 1, 0])).inp) := by
  refine ⟨⟨⟨by decide, by decide⟩, isBits_bits _ rfl, by decide, by decide⟩, ?_, rfl,
    ⟨isBits_bits _ rfl, .inl ⟨0, rfl⟩⟩, isBits_bits _ rfl, .inr ⟨2, [0], rfl, by decide⟩⟩
  intro h
  exact absurd (h 2 (by decide)) (by decide)

/-- A zero symbol with a text before and after it; the codewords before it fit OUT of one element, not of none. -/
theorem witness_EgEnctCommand : TextIn 1 (inState [1, 255]).inp ∧ (∃ c ∈ (inState [256]).inp, 255 < c.toNat) ∧
    ((inState [1, 0, 0]).inp = [1] ++ 0 :: [0] ∧ TextIn 1 [1] ∧ TextIn 0 [0] ∧ TextWords EgWord [1] [[1]] ∧
      Fits (capped 1 (inState [1, 0, 0])) 1 ∧ ¬ Fits (capped 0 (inState [1, 0, 0])) 1) :=
  ⟨textIn_iff _ _ rfl, ⟨256, List.mem_singleton.mpr rfl, by decide⟩, rfl, textIn_iff _ _ rfl,
    textIn_iff _ _ rfl, .cons ⟨by decide, by decide⟩ .nil,
    (fits_iff_some rfl 1).mpr (by decide), fun h => absurd ((fits_iff_some rfl 1).mp h) (by decide)⟩

/-- The text [1] fits OUT of one element and not of none; a truncated codeword and one of 256 follow it. -/
theorem witness_EgDectCommand :
    (TextIn 1 [1] ∧ TextWords EgWord [1] [[1]] ∧ (inState [1]).inp = [[(1 : Word)]].flatten ∧
      Fits (capped 1 (inState [1])) 1 ∧ ¬ Fits (capped 0 (inState [1])) 1) ∧
    ¬ IsBits (inState [2]).inp ∧
    ((inState [1, 0]).inp = [[(1 : Word)]].flatten ++ [0] ∧ IsBits [0] ∧ EgTruncated [0]) ∧
    ((inState (1 :: egWord 256)).inp = [[(1 : Word)]].flatten ++ (egWord 256 ++ []) ∧ IsBits (egWord 256 ++ []) ∧
      255 < 256 ∧ EgWord 256 (egWord 256)) := by
  refine ⟨⟨textIn_iff _ _ rfl, .cons ⟨by decide, by decide⟩ .nil, rfl, (fits_iff_some rfl 1).mpr (by decide),
    fun h => absurd ((fits_iff_some rfl 1).mp h) (by decide)⟩, ?_, ⟨rfl, isBits_bits _ rfl, .inl ⟨0, rfl⟩⟩,
    by rw [List.append_nil]; rfl, isBits_bits _ rfl, by decide, by decide, rfl⟩
  intro h
  exact absurd (h 2 (by decide)) (by decide)

/-- A selection is checked term by term; the terms are Mathlib's. -/
theorem zeckendorf_of {n : Nat} {sel : Bits} (h1 : sel.getLast? = some true)
    (h2 : (List.range sel.length).all (fun j => !(sel[j]? == some true && sel[j + 1]? == some true)) = true)
    (h3 : ((List.range sel.length).map (fun j => if sel[j]? = some true then Nat.fib (j + 2) else 0)).sum = n) :
    Zeckendorf n sel := by
  refine ⟨h1, ?_, h3⟩
  intro j hj ⟨ha, hb⟩
  simpa [ha, hb] using List.all_eq_true.mp h2 j (List.mem_range.mpr hj)

theorem fibWord_1 : FibWord 1 [1, 1] :=
  ⟨[true], zeckendorf_of rfl rfl rfl, rfl⟩

theorem fibWord_4 : FibWord 4 (bits [1, 0, 1, 1]) :=
  ⟨[true, false, true], zeckendorf_of rfl rfl rfl, rfl⟩

/-- 256 = 233 + 21 + 2. -/
theorem fibWord_256 : FibWord 256 (bits [0, 1, 0, 0, 0, 0, 1, 0, 0, 0, 0, 1, 1]) :=
  ⟨[false, true, false, false, false, false, true, false, false, false, false, true],
    zeckendorf_of rfl rfl (by decide), rfl⟩

/-- The selection of the greatest sum below the 47th term's successor that does not fit RES (95_test_vectors.md 2.3):
2971215073 + 1134903170 + 433494437. -/
theorem fibWord_big : FibWord 4539612680 (List.replicate 41 0 ++ bits [1, 0, 1, 0, 1, 1]) := by
  refine ⟨List.replicate 41 false ++ [true, false, true, false, true], zeckendorf_of (by decide) (by decide) ?_, rfl⟩
  decide +kernel

theorem witness_FibEncCommand : 1 ≤ (argState 1).arg.toNat ∧ (argState 0).arg = 0 ∧ 1 ≤ (argState 4).arg.toNat ∧
    FibWord 4 (bits [1, 0, 1, 1]) ∧ Fits (capped 4 (argState 4)) 4 ∧ ¬ Fits (capped 3 (argState 4)) 4 :=
  ⟨by decide, by decide, by decide, fibWord_4, (fits_iff_some rfl 4).mpr (by decide),
    fun h => absurd ((fits_iff_some rfl 4).mp h) (by decide)⟩

/-- The pairs of neighbours of a stream, checked one by one. -/
theorem fibTruncated_of {x : List Word} (h1 : x ≠ [])
    (h2 : (List.range x.length).all (fun j => !(x[j]? == some 1 && x[j + 1]? == some 1)) = true) : FibTruncated x := by
  refine ⟨h1, ?_⟩
  intro j hj ⟨ha, hb⟩
  simpa [ha, hb] using List.all_eq_true.mp h2 j (List.mem_range.mpr hj)

/-- A codeword with a bit after it; a value that does not fit RES; each way to be malformed. -/
theorem witness_FibDecCommand :
    (FibWord 4 (bits [1, 0, 1, 1]) ∧ IsBits [1] ∧ 4 ≤ Config.valMax ∧
      (inState (bits [1, 0, 1, 1, 1])).inp = bits [1, 0, 1, 1] ++ [1]) ∧
    (∃ w, FibWord 4539612680 w ∧ IsBits [] ∧ Config.valMax < 4539612680 ∧ (inState w).inp = w ++ []) ∧
    ¬ IsBits (inState [2]).inp ∧ (inState []).inp = [] ∧ (IsBits [1] ∧ FibTruncated (inState [1]).inp) ∧
    (IsBits (bits [1, 0, 1, 0]) ∧ FibTruncated (inState (bits [1, 0, 1, 0])).inp) := by
  refine ⟨⟨fibWord_4, isBits_bits _ rfl, by decide, rfl⟩, ⟨_, fibWord_big, isBits_bits _ rfl, by decide, inState_word _⟩, ?_, rfl,
    ⟨isBits_bits _ rfl, fibTruncated_of (by decide) (by decide)⟩, isBits_bits _ rfl,
    fibTruncated_of (by decide) (by decide)⟩
  intro h
  exact absurd (h 2 (by decide)) (by decide)

theorem witness_FibEnctCommand : TextIn 1 (inState [1, 255]).inp ∧ (∃ c ∈ (inState [256]).inp, 255 < c.toNat) ∧
    ((inState [1, 0, 0]).inp = [1] ++ 0 :: [0] ∧ TextIn 1 [1] ∧ TextIn 0 [0] ∧ TextWords FibWord [1] [[1, 1]] ∧
      Fits (capped 2 (inState [1, 0, 0])) 2 ∧ ¬ Fits (capped 1 (inState [1, 0, 0])) 2) :=
  ⟨textIn_iff _ _ rfl, ⟨256, List.mem_singleton.mpr rfl, by decide⟩, rfl, textIn_iff _ _ rfl,
    textIn_iff _ _ rfl, .cons fibWord_1 .nil,
    (fits_iff_some rfl 2).mpr (by decide), fun h => absurd ((fits_iff_some rfl 2).mp h) (by decide)⟩

/-- The text [1] fits OUT of one element and not of none; a truncated codeword and one of 256 follow it. -/
theorem witness_FibDectCommand :
    (TextIn 1 [1] ∧ TextWords FibWord [1] [[1, 1]] ∧ (inState [1, 1]).inp = [[(1 : Word), 1]].flatten ∧
      Fits (capped 1 (inState [1, 1])) 1 ∧ ¬ Fits (capped 0 (inState [1, 1])) 1) ∧
    ¬ IsBits (inState [2]).inp ∧
    ((inState [1, 1, 0]).inp = [[(1 : Word), 1]].flatten ++ [0] ∧ IsBits [0] ∧ FibTruncated [0]) ∧
    ((inState (bits [1, 1, 0, 1, 0, 0, 0, 0, 1, 0, 0, 0, 0, 1, 1])).inp =
        [[(1 : Word), 1]].flatten ++ (bits [0, 1, 0, 0, 0, 0, 1, 0, 0, 0, 0, 1, 1] ++ []) ∧
      IsBits (bits [0, 1, 0, 0, 0, 0, 1, 0, 0, 0, 0, 1, 1] ++ []) ∧ 255 < 256 ∧
      FibWord 256 (bits [0, 1, 0, 0, 0, 0, 1, 0, 0, 0, 0, 1, 1])) := by
  refine ⟨⟨textIn_iff _ _ rfl, .cons fibWord_1 .nil, rfl, (fits_iff_some rfl 1).mpr (by decide),
    fun h => absurd ((fits_iff_some rfl 1).mp h) (by decide)⟩, ?_,
    ⟨rfl, isBits_bits _ rfl, fibTruncated_of (by decide) (by decide)⟩, by decide, isBits_bits _ rfl,
    by decide, fibWord_256⟩
  intro h
  exact absurd (h 2 (by decide)) (by decide)

/-- ARG = 0 with no term, ARG = 4 with the three terms 1, 2, 3, and ARG = 5 exactly at a term. -/
theorem witness_FibGenCommand :
    (((0 : Nat) = 0 ∨ Nat.fib (0 + 1) ≤ (argState 0).arg.toNat) ∧ (argState 0).arg.toNat < Nat.fib (0 + 2)) ∧
    ((3 = 0 ∨ Nat.fib (3 + 1) ≤ (argState 4).arg.toNat) ∧ (argState 4).arg.toNat < Nat.fib (3 + 2)) ∧
    ((4 = 0 ∨ Nat.fib (4 + 1) ≤ (argState 5).arg.toNat) ∧ (argState 5).arg.toNat < Nat.fib (4 + 2)) ∧
    Fits (capped 3 (argState 4)) 3 ∧ ¬ Fits (capped 2 (argState 4)) 3 :=
  ⟨by decide, by decide, by decide, (fits_iff_some rfl 3).mpr (by decide),
    fun h => absurd ((fits_iff_some rfl 3).mp h) (by decide)⟩

/-! #### Huffman -/

theorem aTree_wf : ArenaWf aTree := by unfold ArenaWf; decide

theorem abTree_wf : ArenaWf abTree := by unfold ArenaWf; decide

theorem abHuf_inv : HufInv abHuf := by
  refine ⟨fun _ => ⟨abTree_wf, ?_, by decide⟩, fun h => by cases h⟩
  simp [TableWf, PrefixFree, abHuf, abTree, leafSymbols]

theorem witness_HufEncCommand : TextIn 0 (inState []).inp ∧ TextIn 0 (inState [0, 255]).inp ∧
    (∃ c ∈ (inState [256]).inp, 255 < c.toNat) ∧ Fits (capped 5 (inState [0])) 5 ∧ ¬ Fits (capped 4 (inState [0])) 5 :=
  ⟨textIn_iff _ _ rfl, textIn_iff _ _ rfl, ⟨256, List.mem_singleton.mpr rfl, by decide⟩, (witness_Fits _).1,
    (witness_Fits _).2.1⟩

theorem codeWord_ab : CodeWord abHuf.table 97 [0] ∧ CodeWord abHuf.table 98 [1] :=
  ⟨⟨[false], by decide, rfl⟩, ⟨[true], by decide, rfl⟩⟩

/-- A whole stream under the code of t"ab", with OUT exactly full and too small. -/
theorem witness_HufDecCommand : (inState []).huf.valid = false ∧
    ((abState [2]).huf.valid = true ∧ ¬ IsBits (abState [2]).inp) ∧
    (HufInv (abState [1, 0]).huf ∧ (abState [1, 0]).huf.valid = true ∧
      List.Forall₂ (CodeWord (abState [1, 0]).huf.table) [98, 97] [[1], [0]] ∧
      (abState [1, 0]).inp = [[(1 : Word)], [0]].flatten ++ [] ∧ IsBits [] ∧
      (∀ c w, CodeWord (abState [1, 0]).huf.table c w → ¬ w <+: []) ∧ Fits (capped 2 (abState [1, 0])) 2 ∧
      ¬ Fits (capped 1 (abState [1, 0])) 2) := by
  refine ⟨rfl, ⟨rfl, fun h => absurd (h 2 (by decide)) (by decide)⟩, abHuf_inv, rfl,
    .cons codeWord_ab.2 (.cons codeWord_ab.1 .nil), rfl, isBits_bits _ rfl, ?_, (fits_iff_some rfl 2).mpr (by decide),
    fun h => absurd ((fits_iff_some rfl 2).mp h) (by decide)⟩
  rintro c w ⟨p, hp, rfl⟩ h
  have hne := abHuf_inv.1 rfl
  have : p ≠ [] := by
    have hT : (abState [1, 0]).huf.table = [(97, [false]), (98, [true])] := rfl
    rw [hT] at hp
    simp only [tableGet] at hp
    split at hp
    · cases hp; simp
    · split at hp
      · cases hp; simp
      · cases hp
  exact this (by simpa using h)

/-- The code of t"aaa" on the stream 1: the stream ends inside a candidate that is no codeword. -/
theorem witness_HufDecCommand_rest :
    let h : Huf := { valid := true, tree := aTree, table := [(97, [false])] }
    let s : State := { inState [1] with huf := h }
    HufInv s.huf ∧ s.huf.valid = true ∧ s.inp = ([] : List (List Word)).flatten ++ [1] ∧ IsBits [1] ∧
      (∀ c w, CodeWord s.huf.table c w → ¬ w <+: [1]) ∧ Fits s 0 ∧ [(1 : Word)] ≠ [] := by
  refine ⟨⟨fun _ => ⟨aTree_wf, ?_, by decide⟩, fun h => by cases h⟩, rfl, rfl, isBits_bits _ rfl, ?_,
    fits_iff_none rfl 0, by decide⟩
  · simp [TableWf, PrefixFree, aTree, leafSymbols]
  · rintro c w ⟨p, hp, rfl⟩ h
    simp only [tableGet] at hp
    split at hp
    · cases hp
      revert h
      decide
    · cases hp

theorem witness_HufDispCommand : (inState []).huf.valid = false ∧ HufInv (abState []).huf ∧
    (abState []).huf.valid = true ∧ Fits (capped 23 (abState [])) 23 ∧ ¬ Fits (capped 22 (abState [])) 23 :=
  ⟨rfl, abHuf_inv, rfl, (fits_iff_some rfl 23).mpr (by decide),
    fun h => absurd ((fits_iff_some rfl 23).mp h) (by decide)⟩

theorem witness_MergeTakesTwoLeast : [0].Nodup ∧ [0].length < 2 ∧ [0, 1].Nodup ∧ 2 ≤ [0, 1].length := by decide

theorem witness_FrequencyCounterCounts : ((97 : Word), 2) ∈ hufFreq [97, 98, 97] := by decide

theorem witness_BuildMakesOneRoot : ([97] : List Word) ≠ [] ∧ ([] : List Word) = [] := by decide

theorem witness_RootFrequencyIsTextLength : (hufBuild [97, 97, 97]).root = some 0 := by decide

/-- The empty tree, a lone leaf, and a tree with an internal root. -/
theorem witness_CodeIsPathToLeaf :
    (ArenaWf { nodes := [], root := none }) ∧
    (ArenaWf aTree ∧ aTree.root = some 0 ∧ aTree.nodes[0]? = some (.leaf 97 3)) ∧
    (ArenaWf abTree ∧ abTree.root = some 2 ∧ abTree.nodes[2]? = some (.internal 2 0 1)) :=
  ⟨by unfold ArenaWf; decide, ⟨aTree_wf, rfl, rfl⟩, abTree_wf, rfl, rfl⟩

theorem witness_TreeWalkParsesAsTable :
    (ArenaWf aTree ∧ aTree.root = some 0) ∧ (ArenaWf abTree ∧ abTree.root = some 2) :=
  ⟨⟨aTree_wf, rfl⟩, abTree_wf, rfl⟩

theorem witness_HuffmanRoundTrip :
    (∃ t, exec .hufEnc (inState [97, 98]) = .next t ∧ t.status = 0) ∧
    (∃ t, exec .hufEnc (inState [97, 97, 97]) = .next t ∧ t.status = 0) ∧
    (inState [97, 97, 97]).inp = List.replicate 3 97 :=
  ⟨⟨_, rfl, by decide⟩, ⟨_, rfl, by decide⟩, rfl⟩

/-- The merge of the two leaves of t"ab" the other way round: b as the left child. -/
theorem witness_RoundTripForEveryTieBreak :
    TextIn 0 [97, 98] ∧ AnyMerges (hufLeaves [97, 98]) (List.range (hufLeaves [97, 98]).length)
      [.leaf 97 1, .leaf 98 1, .internal 2 1 0] [2] := by
  refine ⟨textIn_iff _ _ rfl, ?_⟩
  have h : hufLeaves [97, 98] = [.leaf 97 1, .leaf 98 1] := by decide
  rw [h]
  refine .merge (a := 1) (b := 0) (l := 1) (r := 0) ?_ ?_ (.inl rfl) ?_
  · unfold LeastFreq; decide
  · unfold LeastFreq; decide
  · exact .done

/-! #### Whole machine -/

theorem witness_SingleEncodeDecodeReturnsArg :
    (∃ t, exec .grEnc (argState 9) = .next t ∧ t.status = 0) ∧
    (∃ t, exec .egEnc (argState 5) = .next t ∧ t.status = 0) ∧
    (∃ t, exec .fibEnc (argState 4) = .next t ∧ t.status = 0) :=
  ⟨⟨_, rfl, by decide⟩, ⟨_, rfl, by decide⟩, ⟨_, rfl, by decide⟩⟩

theorem witness_TextEncodeDecodeReturnsText :
    (∃ t, exec .grEnct (inState [0, 9]) = .next t ∧ t.status = 0) ∧
    (∃ t, exec .egEnct (inState [1, 5]) = .next t ∧ t.status = 0) ∧
    (∃ t, exec .fibEnct (inState [1, 4]) = .next t ∧ t.status = 0) :=
  ⟨⟨_, rfl, by decide⟩, ⟨_, rfl, by decide⟩, ⟨_, rfl, by decide⟩⟩

/-- A reserved CMD value (reset leaves 0x00 in CMD), and a command that fails. -/
theorem witness_FailedCommandLeavesNothing : (∃ t, startCommand State.reset = .next t ∧ t.status ≠ 0) ∧
    ∃ t, exec .egEnc (argState 0) = .next t ∧ t.status ≠ 0 :=
  ⟨⟨_, rfl, by decide⟩, _, rfl, by decide⟩

theorem witness_EveryCommandEndsWithStatus : ∃ t, exec .hufDec (inState []) = .next t ∧ t.status = 3 :=
  ⟨_, rfl, by decide⟩

theorem witness_CommandFrame : ∃ t, exec .hufEnc (inState [97]) = .next t ∧ t.huf ≠ (inState [97]).huf :=
  ⟨_, rfl, by decide⟩

/-- A step that changes HUF by a command, and one by a reset. -/
theorem witness_OnlyHufEncOrResetChangesHuf :
    (∃ t, step ((inState [97]).withFetchWord 8 0x42) = .next t ∧ t.huf ≠ (inState [97]).huf) ∧
    (∃ t, step { abState [] with hostMoves := [.reset] } = .next t ∧ t.huf ≠ abHuf) :=
  ⟨⟨_, rfl, by decide⟩, ⟨_, rfl, by decide⟩⟩

/-- Two states that agree on ARG and MAX_OUT and on nothing else the command could read. -/
theorem witness_ResultsDependOnlyOnReads :
    let s := argState 9
    let s' : State := { abState [1] with arg := 9, res := 7, cnt := 7, status := 2 }
    (readsArg .grEnc = true → s.arg = s'.arg) ∧ (readsIn .grEnc = true → s.inp = s'.inp) ∧
      (readsHuf .grEnc = true → s.huf = s'.huf) ∧ s.maxOut = s'.maxOut ∧ ∃ t, exec .grEnc s = .next t :=
  ⟨fun _ => rfl, fun h => absurd h (by decide), fun h => absurd h (by decide), rfl, _, rfl⟩

theorem witness_CapacityExceededOnlyWhenBounded :
    (∃ t, exec .grEnc (argState 8) = .next t ∧ (argState 8).maxOut = none) ∧
    (∃ t, exec .grEnc (capped 5 (argState 8)) = .next t ∧ (capped 5 (argState 8)).maxOut = some 5) :=
  ⟨⟨_, rfl, rfl⟩, _, rfl, rfl⟩

theorem witness_StepKeepsHuffmanInvariant :
    HufInv ((abState [97]).withFetchWord 8 0x42).huf ∧ ∃ t, step ((abState [97]).withFetchWord 8 0x42) = .next t :=
  ⟨abHuf_inv, _, rfl⟩

/-- IN and OUT exactly full. -/
theorem witness_StepKeepsRegisterInvariant :
    let s : State := { (capped 5 (argState 8)).withFetchWord 8 0x10 with maxIn := some 0 }
    RegInv s ∧ ∃ t, step s = .next t :=
  ⟨⟨fun k h => by cases h; decide, fun k h => by cases h; decide, by decide, fun h => absurd rfl h,
    fun h => absurd rfl h⟩, _, rfl⟩

/-! #### Codecs and the host -/

/-- The least and the greatest number of R88, and the first above a symbol. -/
theorem witness_FibCodewordRoundTrip : 1 ≤ 1 ∧ 1 ≤ Config.valMax ∧ Config.valMax ≤ Config.valMax := by decide

theorem witness_FibSelectIsZeckendorf : (1 : Nat) ≤ 1 := Nat.le_refl 1

theorem witness_EgCodewordRoundTrip : (∃ v l, egDecode1 [true] = .ok (v, l)) ∧ (1 : Nat) ≤ 1 :=
  ⟨⟨1, 1, by rfl⟩, Nat.le_refl 1⟩

theorem witness_CodewordLengthBounds : ∃ p, tableGet (hufAssign (hufBuild [97, 97])) 97 = some p :=
  ⟨[false], by decide⟩

/-- The digits 4, 2, ... write VAL_MAX, the greatest number ARG holds. -/
theorem numeral_valMax : Numeral 10 4294967295 "4294967295".toList :=
  ⟨[4, 2, 9, 4, 9, 6, 7, 2, 9, 5], by decide, by decide,
    by repeat first | exact .nil | refine .cons (.inl (by decide)) ?_, by decide⟩

/-- The digits f and F, in either case, write 255 in base 16. -/
theorem numeral_fF : Numeral 16 255 ['f', 'F'] :=
  ⟨[15, 15], by decide, by decide, .cons (.inl (by decide)) (.cons (.inr (by decide)) .nil), by decide⟩

/-- The four escapes of R49 beside a plain character: `A\x41\"\\`. -/
theorem asmText_escapes :
    AsmText ['A', '\\', 'x', '4', '1', '\\', '"', '\\', '\\'] [0x41, 0x41, 0x22, 0x5C] :=
  .plain (c := 'A') (by decide) (by decide)
    (.hex (d := 4) (e := 1) (.inl (by decide)) (.inl (by decide)) (.quote (.backslash .nil)))

/-- A line with each form of operand, with ARG and the digits at their ends, empty and non-empty sequences, and each
escape; and that an assembled line exists. -/
theorem witness_AssembledLineStartsCommand :
    AsmLine "GR.ENC 4294967295".toList .grEnc [.writeArg 4294967295] ∧
    AsmLine "FIB.GEN 0xfF".toList .fibGen [.writeArg 255] ∧
    AsmLine ['E', 'G', '.', 'D', 'E', 'C', ' ', 'b', '"', '"'] .egDec [.writeIn []] ∧
    AsmLine ['H', 'U', 'F', '.', 'D', 'E', 'C', ' ', 'b', '"', '0', '1', '"'] .hufDec [.writeIn [0, 1]] ∧
    AsmLine ("HUF.ENC t".toList ++ '"' :: ['A', '\\', 'x', '4', '1', '\\', '"', '\\', '\\'] ++ ['"']) .hufEnc
      [.writeIn [0x41, 0x41, 0x22, 0x5C]] ∧
    AsmLine "HUF.DISP".toList .hufDisp [] ∧
    (∃ ms, assemble "FIB.GEN 0xfF".toList = some ms) :=
  ⟨.decimal (i := .grEnc) (by decide) numeral_valMax (by decide), .hexadecimal (i := .fibGen) (by decide) numeral_fF
    (by decide), .bits (i := .egDec) (bs := []) (by decide), .bits (i := .hufDec) (bs := [false, true]) (by decide),
    .text (i := .hufEnc) (by decide) asmText_escapes, .alone, [.writeCmd 0x34, .writeArg 255, .start], by decide⟩

theorem witness_StrayCharacterIsMalformed :
    'x' ∈ ['0', 'x'] ∧ 'x' ≠ '0' ∧ 'x' ≠ '1' ∧ (abState [0, 2]).inp = bitStringIn ['0', 'x'] ∧
      (abState [0, 2]).huf.valid = true := by decide

end Sys2Proof.Tests
end

section
/-! PROOFS. The scope statements: MAX_OUT bounds OUT (spec 60_exceptions.md R138), a command's results depend only on
the registers it reads (spec 10_state.md R31), and every step keeps the invariant of the registers. -/

namespace Sys2Proof.Machine

open Sys2Proof.Safety

/-! ### What a computation can end with

The pseudocode of a command is an `Except Err` computation. `Ends` is its one rule: a postcondition on a value, and no
CapacityExceeded unless the capacity is bounded (R138). -/

/-- A value satisfies `P`, and CapacityExceeded is raised only under a bounded capacity (R138). -/
def Ends {α : Type} (cap : Config.Capacity) (P : α → Prop) (x : Except Err α) : Prop :=
  match x with
  | .ok a => P a
  | .error e => e = .capacityExceeded → cap ≠ none

section Rules

variable {α β : Type} {cap : Config.Capacity} {P : α → Prop} {Q : β → Prop}

@[simp] theorem ends_ok {a : α} : Ends cap P (.ok a) ↔ P a := Iff.rfl

@[simp] theorem ends_pure {a : α} : Ends cap P (pure a) ↔ P a := Iff.rfl

@[simp] theorem ends_error {e : Err} : Ends cap P (.error e) ↔ (e = .capacityExceeded → cap ≠ none) := Iff.rfl

theorem Ends.bind {x : Except Err α} {f : α → Except Err β} (hx : Ends cap P x)
    (hf : ∀ a, P a → Ends cap Q (f a)) : Ends cap Q (x >>= f) := by
  cases x with
  | ok a => exact hf a hx
  | error e => exact hx

end Rules

/-! ### Emission and the operand checks -/

theorem holds_nil (cap : Config.Capacity) : Holds cap ([] : List Word).length := fun k _ => Nat.zero_le k

theorem emit_ends {cap : Config.Capacity} {o : List Word} (e : Word) (ho : Holds cap o.length) :
    Ends cap (fun o' => Holds cap o'.length) (emit cap o e) := by
  by_cases h : Holds cap (o.length + 1)
  · rw [emit_ok h]
    simpa using h
  · rw [emit_error ho h]
    rintro - rfl
    exact h (fun k hk => by cases hk)

theorem emitAll_ends {cap : Config.Capacity} {o : List Word} (x : List Word) (ho : Holds cap o.length) :
    Ends cap (fun o' => Holds cap o'.length) (emitAll cap o x) := by
  rcases emitAll_cases cap o x with ⟨h, hfits⟩ | ⟨h, hcap⟩
  · rw [h]
    exact hfits ho
  · rw [h]
    exact fun _ => hcap

theorem argPositive_ends (cap : Config.Capacity) (s : State) : Ends cap (fun _ => True) (argPositive s) := by
  unfold argPositive
  split <;> simp

theorem checkBits_ends (cap : Config.Capacity) (x : List Word) :
    Ends cap (fun b => b.length = x.length) (checkBits x) := by
  by_cases h : IsBits x
  · obtain ⟨b, rfl⟩ := exists_bitWords h
    simp
  · rw [checkBits_not_bits h]
    simp

theorem checkText_ends (cap : Config.Capacity) (x : List Word) : Ends cap (fun _ => True) (checkText x) := by
  unfold checkText
  split <;> simp

theorem keptHuf_ends (cap : Config.Capacity) (s : State) : Ends cap (fun _ => True) (keptHuf s) := by
  unfold keptHuf
  split <;> simp

/-! ### The codeword decoders and encoders -/

/-- A codeword decoder reads no bit beyond its stream and never raises CapacityExceeded. -/
def ReadsWithin (dec : Bits → Except Err (Nat × Nat)) : Prop :=
  ∀ (cap : Config.Capacity) (s : Bits), Ends cap (fun p => p.2 ≤ s.length) (dec s)

theorem unaryPrefix_ends (cap : Config.Capacity) (s : Bits) :
    Ends cap (fun p => p.1 + p.2.length = s.length) (unaryPrefix s) := by
  induction s with
  | nil => simp [unaryPrefix]
  | cons b t ih =>
    cases b with
    | true => simp [unaryPrefix]
    | false =>
      refine ih.bind fun ⟨q, u⟩ hq => ?_
      simp only [ends_pure, List.length_cons] at hq ⊢
      omega

theorem grDecode1_readsWithin : ReadsWithin grDecode1 := by
  intro cap s
  refine (unaryPrefix_ends cap s).bind fun ⟨q, t⟩ hq => ?_
  simp only at hq ⊢
  split
  · simp
  · rename_i hlen
    simp only [List.length_drop, Config.remainderBits, ends_pure] at hlen ⊢
    omega

theorem egDecode1_readsWithin : ReadsWithin egDecode1 := by
  intro cap s
  refine (unaryPrefix_ends cap s).bind fun ⟨z, t⟩ hz => ?_
  simp only at hz ⊢
  split
  · simp
  · rename_i hlen
    simp only [ends_pure] at hlen ⊢
    omega

theorem fibScan_ends (cap : Config.Capacity) (prev : Bool) (s : Bits) :
    Ends cap (fun sel => sel.length + 1 ≤ s.length) (fibScan prev s) := by
  induction s generalizing prev with
  | nil => simp [fibScan]
  | cons b t ih =>
    rw [fibScan]
    split
    · simp
    · exact (ih b).bind fun sel hsel => by simpa using hsel

theorem fibDecode1_readsWithin : ReadsWithin fibDecode1 := by
  intro cap s
  refine (fibScan_ends cap false s).bind fun sel hsel => ?_
  split
  · simp
  · exact hsel

theorem egSymbol_ends (cap : Config.Capacity) (c : Word) : Ends cap (fun _ => True) (egSymbol c) := by
  unfold egSymbol
  split <;> simp

theorem fibSymbol_ends (cap : Config.Capacity) (c : Word) : Ends cap (fun _ => True) (fibSymbol c) := by
  unfold fibSymbol
  split <;> simp

/-! ### The loops keep the output within the capacity -/

theorem encodeLoop_ends {cap : Config.Capacity} {code : Word → Except Err Bits}
    (hcode : ∀ c, Ends cap (fun _ => True) (code c)) {o : List Word} (ho : Holds cap o.length) (text : List Word) :
    Ends cap (fun o' => Holds cap o'.length) (encodeLoop cap code o text) := by
  induction text generalizing o with
  | nil => exact ho
  | cons c t ih => exact (hcode c).bind fun w _ => (emitAll_ends (bitWords w) ho).bind fun _ ho' => ih ho'

theorem decodeLoop_ends {cap : Config.Capacity} {dec : Bits → Except Err (Nat × Nat)} (hdec : ReadsWithin dec)
    (fuel : Nat) {o : List Word} (ho : Holds cap o.length) (s : Bits) :
    Ends cap (fun o' => Holds cap o'.length) (decodeLoop cap dec fuel o s) := by
  induction fuel generalizing o s with
  | zero =>
    cases s with
    | nil => exact ho
    | cons b t => simp [decodeLoop]
  | succ fuel ih =>
    cases s with
    | nil => exact ho
    | cons b t =>
      refine (hdec cap (b :: t)).bind fun ⟨v, n⟩ _ => ?_
      simp only
      split
      · simp
      · exact (emit_ends _ ho).bind fun _ ho' => ih ho' _

theorem hufParseLoop_ends {cap : Config.Capacity} (T : List (Word × Bits)) {o : List Word} (ho : Holds cap o.length)
    (acc s : Bits) : Ends cap (fun o' => Holds cap o'.length) (hufParseLoop cap T o acc s) := by
  induction s generalizing o acc with
  | nil =>
    rw [hufParseLoop]
    split
    · exact ho
    · simp
  | cons b t ih =>
    rw [hufParseLoop]
    split
    · exact (emit_ends _ ho).bind fun _ ho' => ih ho' []
    · exact ih ho _

/-! ### What a completion holds -/

/-- What a completed command writes under MAX_OUT `cap` with `len` elements in IN: an OUT within the capacity, a CNT
within IN, and never a sequence and an integer together (R9, R23, R47). -/
structure CompletionWithin (cap : Config.Capacity) (len : Nat) (c : Completion) : Prop where
  out_holds : Holds cap c.out.length
  cnt_le : c.cnt ≤ len
  out_alone : c.out ≠ [] → c.res = 0 ∧ c.cnt = 0

theorem completionWithin_sequence {cap : Config.Capacity} {o : List Word} (ho : Holds cap o.length) (len : Nat)
    (h : Option Huf) : CompletionWithin cap len { out := o, huf := h } :=
  ⟨ho, Nat.zero_le len, fun _ => ⟨rfl, rfl⟩⟩

theorem completionWithin_integer (cap : Config.Capacity) {len n : Nat} (hn : n ≤ len) (v : Word) :
    CompletionWithin cap len { res := v, cnt := n } :=
  ⟨holds_nil cap, hn, fun h => absurd rfl h⟩

theorem encodeOne_ends (cap : Config.Capacity) (len : Nat) (code : Bits) :
    Ends cap (CompletionWithin cap len) (encodeOne cap code) :=
  (emitAll_ends (bitWords code) (holds_nil cap)).bind fun _ ho => completionWithin_sequence ho len none

theorem decodeOne_ends {dec : Bits → Except Err (Nat × Nat)} (hdec : ReadsWithin dec) (cap : Config.Capacity)
    (s : Bits) : Ends cap (CompletionWithin cap s.length) (decodeOne dec s) := by
  refine (hdec cap s).bind fun ⟨v, n⟩ hn => ?_
  simp only
  split
  · simp
  · exact completionWithin_integer cap hn _

theorem encodeText_ends {cap : Config.Capacity} {code : Word → Except Err Bits}
    (hcode : ∀ c, Ends cap (fun _ => True) (code c)) (len : Nat) (text : List Word) :
    Ends cap (CompletionWithin cap len) (encodeText cap code text) :=
  (encodeLoop_ends hcode (holds_nil cap) text).bind fun _ ho => completionWithin_sequence ho len none

theorem decodeText_ends {dec : Bits → Except Err (Nat × Nat)} (hdec : ReadsWithin dec) (cap : Config.Capacity)
    (len : Nat) (s : Bits) : Ends cap (CompletionWithin cap len) (decodeText cap dec s) :=
  (decodeLoop_ends hdec s.length (holds_nil cap) s).bind fun _ ho => completionWithin_sequence ho len none

/-- A single decode of IN: it counts no more bits than IN has elements. -/
theorem checkBits_decodeOne_ends {dec : Bits → Except Err (Nat × Nat)} (hdec : ReadsWithin dec)
    (cap : Config.Capacity) (x : List Word) :
    Ends cap (CompletionWithin cap x.length) (checkBits x >>= decodeOne dec) :=
  (checkBits_ends cap x).bind fun b hb => hb ▸ decodeOne_ends hdec cap b

/-! ### What a command can do -/

/-- Every command ends as its pseudocode does: a completion within the bounds, or an error that is CapacityExceeded only
under a bounded MAX_OUT (R138, R143). -/
theorem exec_ends (i : Instr) (s : State) :
    ∃ r, exec i s = s.finish r ∧ Ends s.maxOut (CompletionWithin s.maxOut s.inp.length) r := by
  have hbits := checkBits_ends s.maxOut s.inp
  have htext := checkText_ends s.maxOut s.inp
  have harg := argPositive_ends s.maxOut s
  have hkept := keptHuf_ends s.maxOut s
  have hnil := holds_nil s.maxOut
  cases i with
  | grEnc => exact ⟨_, rfl, encodeOne_ends _ _ _⟩
  | egEnc => exact ⟨_, rfl, harg.bind fun n _ => encodeOne_ends _ _ (egCode n)⟩
  | fibEnc => exact ⟨_, rfl, harg.bind fun n _ => encodeOne_ends _ _ (fibCode n)⟩
  | grDec => exact ⟨_, rfl, checkBits_decodeOne_ends grDecode1_readsWithin _ _⟩
  | egDec => exact ⟨_, rfl, checkBits_decodeOne_ends egDecode1_readsWithin _ _⟩
  | fibDec => exact ⟨_, rfl, checkBits_decodeOne_ends fibDecode1_readsWithin _ _⟩
  | grEnct => exact ⟨_, rfl, htext.bind fun x _ => encodeText_ends (fun _ => ends_ok.mpr trivial) _ x⟩
  | egEnct => exact ⟨_, rfl, htext.bind fun x _ => encodeText_ends (egSymbol_ends _) _ x⟩
  | fibEnct => exact ⟨_, rfl, htext.bind fun x _ => encodeText_ends (fibSymbol_ends _) _ x⟩
  | grDect => exact ⟨_, rfl, hbits.bind fun b _ => decodeText_ends grDecode1_readsWithin _ _ b⟩
  | egDect => exact ⟨_, rfl, hbits.bind fun b _ => decodeText_ends egDecode1_readsWithin _ _ b⟩
  | fibDect => exact ⟨_, rfl, hbits.bind fun b _ => decodeText_ends fibDecode1_readsWithin _ _ b⟩
  | fibGen => exact ⟨_, rfl, (emitAll_ends _ hnil).bind fun _ ho => completionWithin_sequence ho _ none⟩
  | hufEnc =>
    exact ⟨_, rfl, htext.bind fun x _ =>
      (encodeLoop_ends (fun _ => ends_ok.mpr trivial) hnil x).bind fun _ ho => completionWithin_sequence ho _ _⟩
  | hufDec =>
    exact ⟨_, rfl, hkept.bind fun h _ => hbits.bind fun b _ =>
      (hufParseLoop_ends h.table hnil [] b).bind fun _ ho => completionWithin_sequence ho _ none⟩
  | hufDisp =>
    exact ⟨_, rfl, hkept.bind fun _ _ =>
      (emitAll_ends _ hnil).bind fun _ ho => completionWithin_sequence ho _ none⟩

/-- The next state of a command is a completion within the bounds, or an error that is CapacityExceeded only under a
bounded MAX_OUT. -/
theorem exec_eq_next {i : Instr} {s t : State} (h : exec i s = .next t) :
    (∃ c, t = s.complete c ∧ CompletionWithin s.maxOut s.inp.length c) ∨
    (∃ e, t = s.raise e ∧ (e = .capacityExceeded → s.maxOut ≠ none)) := by
  obtain ⟨r, hr, hends⟩ := exec_ends i s
  rcases finish_eq_next.mp (hr.symm.trans h) with ⟨c, rfl, ht⟩ | ⟨e, rfl, ht⟩
  · exact .inl ⟨c, ht, hends⟩
  · exact .inr ⟨e, ht, hends⟩

/-! ### Status codes -/

theorem Err.code_ne_zero (e : Err) : e.code ≠ 0 := by cases e <;> decide

theorem Err.code_le_five (e : Err) : e.code.toNat ≤ 5 := by cases e <;> decide

theorem Err.code_eq_five {e : Err} : e.code = 5 ↔ e = .capacityExceeded := by cases e <;> decide

/-! ### The bound of OUT (O45) -/

/-- Settles O45: a completion holds an OUT within MAX_OUT, an error leaves OUT empty. -/
theorem capacityExceededOnlyWhenBounded : Obligations.CapacityExceededOnlyWhenBounded := by
  intro i s t h
  rcases exec_eq_next h with ⟨c, rfl, hc⟩ | ⟨e, rfl, he⟩
  · exact ⟨fun _ => by rw [State.complete_status]; decide, hc.out_holds⟩
  · exact ⟨fun hnone h5 => he (Err.code_eq_five.mp h5) hnone, holds_nil s.maxOut⟩

/-! ### The invariant of the registers (O48) -/

/-- Taking an exception establishes the invariant of the registers, if IN is within MAX_IN. -/
theorem regInv_raise {s : State} (hin : Holds s.maxIn s.inp.length) (e : Err) : RegInv (s.raise e) :=
  ⟨fun k hk => ⟨hin k hk, Nat.zero_le k⟩, holds_nil s.maxOut, e.code_le_five, fun _ => ⟨rfl, rfl, rfl⟩,
    fun _ => ⟨rfl, rfl⟩⟩

/-- A completion within the bounds establishes the invariant of the registers, if IN is within MAX_IN. -/
theorem regInv_complete {s : State} (hin : Holds s.maxIn s.inp.length) {c : Completion}
    (hc : CompletionWithin s.maxOut s.inp.length c) : RegInv (s.complete c) :=
  ⟨fun k hk => ⟨hin k hk, hc.cnt_le.trans (hin k hk)⟩, hc.out_holds, by simp [statusOk], fun h => absurd rfl h, hc.out_alone⟩

theorem regInv_inp_holds {s : State} (h : RegInv s) : Holds s.maxIn s.inp.length := fun k hk => (h.1 k hk).1

/-- A command needs only the bound of IN to establish the invariant of the registers. -/
theorem exec_regInv {i : Instr} {s t : State} (hin : Holds s.maxIn s.inp.length) (h : exec i s = .next t) :
    RegInv t := by
  rcases exec_eq_next h with ⟨c, rfl, hc⟩ | ⟨e, rfl, -⟩
  · exact regInv_complete hin hc
  · exact regInv_raise hin e

theorem startCommand_regInv {s t : State} (hin : Holds s.maxIn s.inp.length) (h : startCommand s = .next t) :
    RegInv t := by
  unfold startCommand at h
  split at h
  · exact exec_regInv hin h
  · cases h
    exact regInv_raise hin .illegalCommand

/-- A write of IN that gives a next state was within MAX_IN, and writes nothing else. -/
theorem hostWriteIn_eq_next {s t : State} {v : List Word} (h : hostWriteIn s v = .next t) :
    Holds s.maxIn v.length ∧ t = { s with inp := v } := by
  unfold hostWriteIn at h
  split at h
  · rename_i hadm
    cases h
    exact ⟨fun k hk => by simpa [Config.Capacity.admits, hk] using hadm, rfl⟩
  · cases h

theorem hostReset_regInv (s : State) : RegInv (hostReset s) :=
  ⟨fun k _ => ⟨Nat.zero_le k, Nat.zero_le k⟩, holds_nil s.maxOut, by simp, fun h => absurd rfl h,
    fun h => absurd rfl h⟩

theorem hostStep_keeps_regInv {m : HostMove} {s t : State} (hinv : RegInv s) (h : hostStep m s = .next t) :
    RegInv t := by
  cases m with
  | start => exact startCommand_regInv (regInv_inp_holds hinv) h
  | writeIn v =>
    obtain ⟨hv, rfl⟩ := hostWriteIn_eq_next h
    obtain ⟨hin, hrest⟩ := hinv
    exact ⟨fun k hk => ⟨hv k hk, (hin k hk).2⟩, hrest⟩
  | reset => cases h; exact hostReset_regInv s
  | writeCmd v => cases h; exact hinv
  | writeArg v => cases h; exact hinv
  | read r => cases h; exact hinv

/-- Settles O48, by the host's move of the step: a started command establishes the invariant anew from the bound of IN,
and the other moves keep it. -/
theorem stepKeepsRegisterInvariant : Obligations.StepKeepsRegisterInvariant := by
  intro s t hinv h
  unfold step at h
  split at h
  · cases h
    exact hinv
  · rename_i m rest _
    exact hostStep_keeps_regInv (s := s.withMoves rest) hinv h

/-! ### What a command's results depend on (O44) -/

theorem argNat_congr {s s' : State} (h : s.arg = s'.arg) : argNat s = argNat s' := by rw [argNat, argNat, h]

theorem argPositive_congr {s s' : State} (h : s.arg = s'.arg) : argPositive s = argPositive s' := by
  rw [argPositive, argPositive, argNat_congr h]

theorem keptHuf_congr {s s' : State} (h : s.huf = s'.huf) : keptHuf s = keptHuf s' := by
  rw [keptHuf, keptHuf, h]

/-- Two states that agree on what a command reads and on MAX_OUT give its pseudocode the same end. -/
theorem exec_same_end {i : Instr} {s s' : State} (harg : readsArg i = true → s.arg = s'.arg)
    (hin : readsIn i = true → s.inp = s'.inp) (hhuf : readsHuf i = true → s.huf = s'.huf)
    (hcap : s.maxOut = s'.maxOut) : ∃ r, exec i s = s.finish r ∧ exec i s' = s'.finish r := by
  cases i with
  | grEnc | fibGen => exact ⟨_, rfl, by rw [argNat_congr (harg rfl), hcap]; rfl⟩
  | egEnc | fibEnc => exact ⟨_, rfl, by rw [argPositive_congr (harg rfl), hcap]; rfl⟩
  | grDec | egDec | fibDec => exact ⟨_, rfl, by rw [hin rfl]; rfl⟩
  | grEnct | egEnct | fibEnct | grDect | egDect | fibDect | hufEnc => exact ⟨_, rfl, by rw [hin rfl, hcap]; rfl⟩
  | hufDec => exact ⟨_, rfl, by rw [keptHuf_congr (hhuf rfl), hin rfl, hcap]; rfl⟩
  | hufDisp => exact ⟨_, rfl, by rw [keptHuf_congr (hhuf rfl), hcap]; rfl⟩

/-- A successful HUF.ENC keeps the tree and the table of the text in IN (R106). -/
theorem hufEnc_huf {s t : State} (h : exec .hufEnc s = .next t) (hok : t.status = 0) :
    t.huf = { valid := true, tree := hufBuild s.inp, table := hufAssign (hufBuild s.inp) } := by
  rcases finish_eq_next.mp h with ⟨c, hc, rfl⟩ | ⟨e, -, rfl⟩
  · obtain ⟨x, hx, hc⟩ := except_bind_eq_ok.mp hc
    obtain ⟨rfl, -⟩ := checkText_eq_ok.mp hx
    obtain ⟨o, -, hc⟩ := except_bind_eq_ok.mp hc
    cases hc
    rfl
  · exact absurd hok e.code_ne_zero

/-- Settles O44: the two runs end alike, and a kept Huffman code is a function of IN. -/
theorem resultsDependOnlyOnReads : Obligations.ResultsDependOnlyOnReads := by
  intro i s s' t harg hin hhuf hcap h
  have hkept : ∀ t', exec i s' = .next t' → t'.status = t.status → i = .hufEnc → t.status = 0 → t'.huf = t.huf := by
    rintro t' h' hst rfl hok
    rw [hufEnc_huf h hok, hufEnc_huf h' (hst.trans hok), hin rfl]
  obtain ⟨r, hr, hr'⟩ := exec_same_end harg hin hhuf hcap
  rcases finish_eq_next.mp (hr.symm.trans h) with ⟨c, rfl, rfl⟩ | ⟨e, rfl, rfl⟩
  · exact ⟨s'.complete c, hr', rfl, rfl, rfl, rfl, hkept _ hr' rfl⟩
  · exact ⟨s'.raise e, hr', rfl, rfl, rfl, rfl, hkept _ hr' rfl⟩

end Sys2Proof.Machine
end

section
/-! PROOFS. What a command and a step leave unchanged (spec 10_state.md R18 to R20, R27, R31), and the constants and the
reset of the state (spec 10_state.md R25, R26; 70_reset_and_hazards.md R151). -/

namespace Sys2Proof.Machine

open Sys2Proof.Safety

/-! ### Constants and reset (O7, O8, O46) -/

/-- Settles O7, by the read of each register. -/
theorem parametersReadHardwired : Obligations.ParametersReadHardwired := by
  refine fun s => ⟨rfl, rfl, rfl, rfl, rfl, rfl, rfl, rfl, ?_⟩
  rw [hostRead_hufValid]
  cases s.huf.valid <;> rfl

/-- A term up to the bound is listed, and the loop goes on from the next two terms. -/
theorem fibGenLoop_of_le {fuel max a b : Nat} (h : a ≤ max) :
    fibGenLoop (fuel + 1) max a b = a :: fibGenLoop fuel max b (a + b) := if_pos h

/-- A term above the bound ends the list, however many passes are left. -/
theorem fibGenLoop_of_lt {fuel max a b : Nat} (h : max < a) : fibGenLoop fuel max a b = [] := by
  cases fuel with
  | zero => rfl
  | succ fuel => exact if_neg h.not_ge

theorem fibTable_eq_fibGenLoop : fibTable = fibGenLoop 4294967296 4294967295 1 2 := rfl

/-- Settles O8: 46 passes of the generator list a term each, and the next term is above VAL_MAX. -/
theorem fibTableContents : Obligations.FibTableContents := by
  unfold Obligations.FibTableContents
  simp [fibTable_eq_fibGenLoop, fibGenLoop_of_le, fibGenLoop_of_lt]

theorem hufInv_reset : HufInv Huf.reset := ⟨fun h => absurd h Bool.false_ne_true, fun _ => rfl⟩

/-- Settles O46: the state at reset is the one the host's reset makes of it. -/
theorem invariantsHoldAtReset : Obligations.InvariantsHoldAtReset := ⟨hufInv_reset, hostReset_regInv State.reset⟩

/-! ### Commands that compute no HUF -/

/-- A computation whose completion, if it comes to one, carries no new HUF. -/
def ComputesNoHuf (r : Except Err Completion) : Prop := ∀ c, r = .ok c → c.huf = none

@[simp] theorem computesNoHuf_ok {c : Completion} : ComputesNoHuf (.ok c) ↔ c.huf = none := by
  simp [ComputesNoHuf]

@[simp] theorem computesNoHuf_pure {c : Completion} : ComputesNoHuf (pure c) ↔ c.huf = none := computesNoHuf_ok

@[simp] theorem computesNoHuf_error (e : Err) : ComputesNoHuf (.error e) := fun _ h => by cases h

theorem computesNoHuf_bind {α : Type} (x : Except Err α) {f : α → Except Err Completion}
    (hf : ∀ a, ComputesNoHuf (f a)) : ComputesNoHuf (x >>= f) := by
  cases x with
  | ok a => exact hf a
  | error e => exact computesNoHuf_error e

/-- A computation that ends by returning its output alone. -/
theorem computesNoHuf_output (x : Except Err (List Word)) :
    ComputesNoHuf (x >>= fun o => pure { out := o }) :=
  computesNoHuf_bind x fun _ => computesNoHuf_pure.mpr rfl

theorem encodeOne_computesNoHuf (cap : Config.Capacity) (code : Bits) : ComputesNoHuf (encodeOne cap code) :=
  computesNoHuf_output _

theorem encodeText_computesNoHuf (cap : Config.Capacity) (code : Word → Except Err Bits) (text : List Word) :
    ComputesNoHuf (encodeText cap code text) :=
  computesNoHuf_output _

theorem decodeText_computesNoHuf (cap : Config.Capacity) (dec : Bits → Except Err (Nat × Nat)) (s : Bits) :
    ComputesNoHuf (decodeText cap dec s) :=
  computesNoHuf_output _

theorem decodeOne_computesNoHuf (dec : Bits → Except Err (Nat × Nat)) (s : Bits) :
    ComputesNoHuf (decodeOne dec s) := by
  refine computesNoHuf_bind _ fun ⟨v, n⟩ => ?_
  simp only
  split
  · exact computesNoHuf_error _
  · exact computesNoHuf_pure.mpr rfl

/-- The pseudocode of every command but HUF.ENC computes no HUF (R27). -/
theorem exec_computesNoHuf {i : Instr} (hi : i ≠ .hufEnc) (s : State) :
    ∃ r, exec i s = s.finish r ∧ ComputesNoHuf r := by
  cases i with
  | grEnc => exact ⟨_, rfl, encodeOne_computesNoHuf _ _⟩
  | egEnc | fibEnc => exact ⟨_, rfl, computesNoHuf_bind _ fun _ => encodeOne_computesNoHuf _ _⟩
  | grDec | egDec | fibDec => exact ⟨_, rfl, computesNoHuf_bind _ fun _ => decodeOne_computesNoHuf _ _⟩
  | grEnct | egEnct | fibEnct => exact ⟨_, rfl, computesNoHuf_bind _ fun _ => encodeText_computesNoHuf _ _ _⟩
  | grDect | egDect | fibDect => exact ⟨_, rfl, computesNoHuf_bind _ fun _ => decodeText_computesNoHuf _ _ _⟩
  | fibGen => exact ⟨_, rfl, computesNoHuf_output _⟩
  | hufEnc => exact absurd rfl hi
  | hufDec =>
    exact ⟨_, rfl, computesNoHuf_bind _ fun _ => computesNoHuf_bind _ fun _ => computesNoHuf_output _⟩
  | hufDisp => exact ⟨_, rfl, computesNoHuf_bind _ fun _ => computesNoHuf_output _⟩

/-- A command keeps HUF, unless it is a HUF.ENC that ends with STATUS 0 (R27, R143). -/
theorem exec_huf {i : Instr} {s t : State} (h : exec i s = .next t) :
    t.huf = s.huf ∨ (i = .hufEnc ∧ t.status = 0) := by
  by_cases hi : i = .hufEnc
  · rcases exec_eq_next h with ⟨c, rfl, -⟩ | ⟨e, rfl, -⟩
    · exact .inr ⟨hi, rfl⟩
    · exact .inl rfl
  · obtain ⟨r, hr, hnone⟩ := exec_computesNoHuf hi s
    rcases finish_eq_next.mp (hr.symm.trans h) with ⟨c, hc, rfl⟩ | ⟨e, -, rfl⟩
    · exact .inl (by rw [State.complete_huf, hnone c hc, Option.getD_none])
    · exact .inl rfl

/-- Settles O42: a completion and an error write none of the operands, and `exec_huf` says when HUF is written. -/
theorem commandFrame : Obligations.CommandFrame := by
  intro i s t h
  have hhuf := exec_huf h
  rcases exec_eq_next h with ⟨c, rfl, -⟩ | ⟨e, rfl, -⟩
  · exact ⟨rfl, rfl, rfl, rfl, rfl, rfl, hhuf⟩
  · exact ⟨rfl, rfl, rfl, rfl, rfl, rfl, hhuf⟩

/-! ### What a step does to HUF (O43) -/

/-- HUF.ENC has one command byte (R46). -/
theorem eq_of_decode_hufEnc : ∀ b : BitVec 8, decode b = .ok .hufEnc → b = 0x42 := by decide

theorem startCommand_huf {s t : State} (h : startCommand s = .next t) :
    t.huf = s.huf ∨ (s.cmd = 0x42 ∧ exec .hufEnc s = .next t ∧ t.status = 0) := by
  unfold startCommand at h
  split at h
  · rename_i i hi
    rcases exec_huf h with hkeep | ⟨rfl, hok⟩
    · exact .inl hkeep
    · exact .inr ⟨eq_of_decode_hufEnc _ hi, h, hok⟩
  · cases h
    exact .inl rfl

/-- What a move of the host does to HUF: nothing, the reset value, or the code of a HUF.ENC that it started. -/
theorem hostStep_huf {m : HostMove} {s t : State} (h : hostStep m s = .next t) :
    t.huf = s.huf ∨ (m = .reset ∧ t.huf = Huf.reset) ∨
      (m = .start ∧ s.cmd = 0x42 ∧ exec .hufEnc s = .next t ∧ t.status = 0) := by
  cases m with
  | start => exact (startCommand_huf h).imp_right fun henc => .inr ⟨rfl, henc⟩
  | writeIn v =>
    obtain ⟨-, rfl⟩ := hostWriteIn_eq_next h
    exact .inl rfl
  | reset => cases h; exact .inr (.inl ⟨rfl, rfl⟩)
  | writeCmd v => cases h; exact .inl rfl
  | writeArg v => cases h; exact .inl rfl
  | read r => cases h; exact .inl rfl

/-- What a step does to HUF: nothing, the reset value, or the code of a HUF.ENC that it started (R27). -/
theorem step_huf {s t : State} (h : step s = .next t) :
    t.huf = s.huf ∨ (∃ rest, s.hostMoves = .reset :: rest ∧ t.huf = Huf.reset) ∨
      (∃ rest, s.hostMoves = .start :: rest ∧ s.cmd = 0x42 ∧ exec .hufEnc (s.withMoves rest) = .next t ∧
        t.status = 0) := by
  unfold step at h
  split at h
  · cases h
    exact .inl rfl
  · rename_i m rest hmoves
    rcases hostStep_huf h with hkeep | ⟨rfl, hreset⟩ | ⟨rfl, henc⟩
    · exact .inl hkeep
    · exact .inr (.inl ⟨rest, hmoves, hreset⟩)
    · exact .inr (.inr ⟨rest, hmoves, henc⟩)

/-- Settles O43, by what a step does to HUF. -/
theorem onlyHufEncOrResetChangesHuf : Obligations.OnlyHufEncOrResetChangesHuf := by
  intro s t h hne
  rcases step_huf h with hkeep | ⟨rest, hmoves, -⟩ | ⟨rest, hmoves, hcmd, henc, hok⟩
  · exact absurd hkeep hne
  · exact .inl ⟨rest, hmoves⟩
  · exact .inr ⟨rest, hmoves, hcmd, hok, by rw [hufEnc_huf henc hok]⟩

end Sys2Proof.Machine
end

section
/-! PROOFS. The Huffman tree and its table: the merges of the tree builder, under any tie-break, make a well-formed
arena (spec 43_huffman.md R96 to R100, R110), and the table assigned to a well-formed arena is well formed (spec
43_huffman.md R101; 10_state.md R28, R29). -/

namespace Sys2Proof.Machine

open Sys2Proof.Safety

/-! ### The frequency counter (R96) -/

theorem bumpFreq_symbols (P : List (Word × Nat)) (c : Word) :
    (bumpFreq P c).map Prod.fst = if c ∈ P.map Prod.fst then P.map Prod.fst else P.map Prod.fst ++ [c] := by
  induction P with
  | nil => rfl
  | cons e P ih =>
    obtain ⟨d, k⟩ := e
    rw [bumpFreq]
    split
    · rename_i hd
      simp [hd]
    · rename_i hd
      rw [List.map_cons, ih]
      simp only [List.map_cons, List.mem_cons, Ne.symm hd, false_or]
      split <;> rfl

theorem bumpFreq_count_pos {P : List (Word × Nat)} (h : ∀ e ∈ P, 1 ≤ e.2) (c : Word) :
    ∀ e ∈ bumpFreq P c, 1 ≤ e.2 := by
  induction P with
  | nil => simp [bumpFreq]
  | cons e P ih =>
    obtain ⟨d, k⟩ := e
    obtain ⟨-, hP⟩ := List.forall_mem_cons.mp h
    rw [bumpFreq]
    split
    · exact List.forall_mem_cons.mpr ⟨Nat.le_add_left 1 k, hP⟩
    · exact List.forall_mem_cons.mpr ⟨h _ List.mem_cons_self, ih hP⟩

@[simp] theorem hufFreq_nil : hufFreq [] = [] := rfl

theorem hufFreq_concat (text : List Word) (c : Word) : hufFreq (text ++ [c]) = bumpFreq (hufFreq text) c := by
  rw [hufFreq, List.foldl_concat, ← hufFreq]

theorem mem_hufFreq_symbols {text : List Word} {c : Word} : c ∈ (hufFreq text).map Prod.fst ↔ c ∈ text := by
  induction text using List.reverseRecOn generalizing c with
  | nil => simp
  | append_singleton text d ih =>
    rw [hufFreq_concat, bumpFreq_symbols, List.mem_append, List.mem_singleton]
    split
    · rename_i hd
      rw [ih, iff_self_or]
      exact fun hc => hc ▸ ih.mp hd
    · rw [List.mem_append, List.mem_singleton, ih]

theorem hufFreq_symbols_nodup (text : List Word) : ((hufFreq text).map Prod.fst).Nodup := by
  induction text using List.reverseRecOn with
  | nil => simp
  | append_singleton text d ih =>
    rw [hufFreq_concat, bumpFreq_symbols]
    split
    · exact ih
    · rename_i hd
      exact List.concat_eq_append ▸ ih.concat hd

theorem hufFreq_count_pos (text : List Word) : ∀ e ∈ hufFreq text, 1 ≤ e.2 := by
  induction text using List.reverseRecOn with
  | nil => simp
  | append_singleton text d ih =>
    rw [hufFreq_concat]
    exact bumpFreq_count_pos ih d

/-! ### Arenas of leaves and of merged nodes (R28, R97) -/

theorem mem_childHandles {nodes : List HufNode} {g : Nat} :
    g ∈ childHandles nodes ↔ ∃ h k l r : Nat, nodes[h]? = some (.internal k l r) ∧ (g = l ∨ g = r) := by
  rw [childHandles, List.mem_flatMap]
  constructor
  · rintro ⟨n, hn, hg⟩
    obtain ⟨h, hh⟩ := List.mem_iff_getElem?.mp hn
    cases n with
    | leaf c k => simp at hg
    | internal k l r => exact ⟨h, k, l, r, hh, by simpa using hg⟩
  · rintro ⟨h, k, l, r, hh, hg⟩
    exact ⟨.internal k l r, List.mem_of_getElem? hh, by simpa using hg⟩

theorem mem_leafSymbols {nodes : List HufNode} {c : Word} :
    c ∈ leafSymbols nodes ↔ ∃ h k : Nat, nodes[h]? = some (.leaf c k) := by
  rw [leafSymbols, List.mem_filterMap]
  constructor
  · rintro ⟨n, hn, hc⟩
    obtain ⟨h, hh⟩ := List.mem_iff_getElem?.mp hn
    cases n with
    | leaf d k =>
      cases hc
      exact ⟨h, k, hh⟩
    | internal k l r => cases hc
  · rintro ⟨h, k, hh⟩
    exact ⟨.leaf c k, List.mem_of_getElem? hh, rfl⟩

/-- Every node of the arena is as R28 says. -/
def NodesOk (nodes : List HufNode) : Prop := ∀ h < nodes.length, nodeOk nodes h = true

theorem NodesOk.leaf {nodes : List HufNode} (hok : NodesOk nodes) {h k : Nat} {c : Word}
    (hn : nodes[h]? = some (.leaf c k)) : c.toNat ≤ 255 ∧ 1 ≤ k := by
  obtain ⟨hlt, -⟩ := List.getElem?_eq_some_iff.mp hn
  simpa [nodeOk, hn, Config.symMax] using hok h hlt

theorem NodesOk.leafSymbols_le {nodes : List HufNode} (hok : NodesOk nodes) {c : Word} (hc : c ∈ leafSymbols nodes) :
    c.toNat ≤ 255 := by
  obtain ⟨h, k, hn⟩ := mem_leafSymbols.mp hc
  exact (hok.leaf hn).1

/-- The children of an internal node are earlier nodes. -/
theorem NodesOk.children_lt {nodes : List HufNode} (hok : NodesOk nodes) {h k l r : Nat}
    (hn : nodes[h]? = some (.internal k l r)) : l < h ∧ r < h := by
  obtain ⟨hlt, -⟩ := List.getElem?_eq_some_iff.mp hn
  have hnode := hok h hlt
  simp only [nodeOk, hn, Bool.and_eq_true, decide_eq_true_eq] at hnode
  exact hnode.1

/-- Each internal node has two child places. -/
theorem childHandles_length (nodes : List HufNode) :
    (childHandles nodes).length + 2 * (leafSymbols nodes).length = 2 * nodes.length := by
  induction nodes with
  | nil => rfl
  | cons n nodes ih =>
    rw [childHandles, leafSymbols] at ih ⊢
    cases n <;> simp only [List.flatMap_cons, List.filterMap_cons, List.length_append, List.length_cons,
      List.length_nil] <;> omega

@[simp] theorem childHandles_hufLeaves (text : List Word) : childHandles (hufLeaves text) = [] := by
  rw [childHandles, hufLeaves, List.flatMap_map, List.flatMap_eq_nil_iff]
  exact fun _ _ => rfl

theorem leafSymbols_hufLeaves (text : List Word) : leafSymbols (hufLeaves text) = (hufFreq text).map Prod.fst := by
  simp [leafSymbols, hufLeaves]

@[simp] theorem childHandles_append_internal (nodes : List HufNode) (k l r : Nat) :
    childHandles (nodes ++ [.internal k l r]) = childHandles nodes ++ [l, r] := by
  simp [childHandles]

@[simp] theorem leafSymbols_append_internal (nodes : List HufNode) (k l r : Nat) :
    leafSymbols (nodes ++ [.internal k l r]) = leafSymbols nodes := by
  simp [leafSymbols]

theorem freqAt_append {nodes : List HufNode} {h : Nat} (hlt : h < nodes.length) (ms : List HufNode) :
    freqAt (nodes ++ ms) h = freqAt nodes h := by
  rw [freqAt, freqAt, List.getElem?_append_left hlt]

/-- The leaves of a text in the symbol range are as R28 says. -/
theorem nodesOk_hufLeaves {text : List Word} (htext : ∀ c ∈ text, c.toNat ≤ 255) : NodesOk (hufLeaves text) := by
  intro h hlt
  have hlt' : h < (hufFreq text).length := by simpa [hufLeaves] using hlt
  have hmem := List.getElem_mem hlt'
  have hc := htext _ (mem_hufFreq_symbols.mp (List.mem_map_of_mem hmem))
  have hk := hufFreq_count_pos text _ hmem
  simp [nodeOk, hufLeaves, List.getElem?_eq_getElem hlt', Config.symMax, hc, hk]

/-- A new internal node over two handles of the arena, with the sum of their frequencies, is as R28 says. -/
theorem NodesOk.append_internal {nodes : List HufNode} (hok : NodesOk nodes) {l r : Nat} (hl : l < nodes.length)
    (hr : r < nodes.length) : NodesOk (nodes ++ [.internal (freqAt nodes l + freqAt nodes r) l r]) := by
  intro h hlt
  rw [List.length_append, List.length_singleton] at hlt
  rcases Nat.lt_succ_iff_lt_or_eq.mp hlt with hold | rfl
  · have hnode := hok h hold
    rw [nodeOk] at hnode ⊢
    rw [List.getElem?_append_left hold]
    cases hn : nodes[h]? with
    | none => rfl
    | some n =>
      rw [hn] at hnode
      cases n with
      | leaf c k => exact hnode
      | internal k l' r' =>
        obtain ⟨hl', hr'⟩ := hok.children_lt hn
        simpa only [freqAt_append (hl'.trans hold), freqAt_append (hr'.trans hold)] using hnode
  · simp [nodeOk, freqAt_append hl, freqAt_append hr, hl, hr]

/-! ### Merges, under any tie-break (R99, R110) -/

/-- Every handle of the arena stands in exactly one place: as a child of one node or in the working collection. -/
def HandlesPlaced (nodes : List HufNode) (W : List Nat) : Prop :=
  (childHandles nodes ++ W).Perm (List.range nodes.length)

theorem HandlesPlaced.lt_of_mem {nodes : List HufNode} {W : List Nat} (hp : HandlesPlaced nodes W) {h : Nat}
    (hW : h ∈ W) : h < nodes.length :=
  List.mem_range.mp (hp.subset (List.mem_append_right _ hW))

theorem handlesPlaced_hufLeaves (text : List Word) :
    HandlesPlaced (hufLeaves text) (List.range (hufLeaves text).length) := by
  simp [HandlesPlaced]

theorem perm_of_two_erased {W : List Nat} {a b : Nat} (ha : a ∈ W) (hb : b ∈ W.erase a) :
    (a :: b :: (W.erase a).erase b).Perm W :=
  ((List.perm_cons_erase hb).symm.cons a).trans (List.perm_cons_erase ha).symm

/-- A merge moves two handles from the working collection below a new node, and puts that node in their place. -/
theorem HandlesPlaced.merge {nodes : List HufNode} {W : List Nat} (hp : HandlesPlaced nodes W) {a b l r : Nat}
    (ha : a ∈ W) (hb : b ∈ W.erase a) (hlr : (l, r) = (a, b) ∨ (l, r) = (b, a)) (k : Nat) :
    HandlesPlaced (nodes ++ [.internal k l r]) ((W.erase a).erase b ++ [nodes.length]) := by
  have htaken : ([l, r] ++ (W.erase a).erase b).Perm W := by
    rcases hlr with h | h <;> cases h
    · exact perm_of_two_erased ha hb
    · exact (List.Perm.swap _ _ _).trans (perm_of_two_erased ha hb)
  rw [HandlesPlaced, childHandles_append_internal, List.length_append, List.length_singleton, List.range_succ,
    List.append_assoc, ← List.append_assoc [l, r], ← List.append_assoc (childHandles nodes)]
  exact ((htaken.append_left _).trans hp).append_right _

theorem anyMerges_leafSymbols_eq {nodes nodes' : List HufNode} {W W' : List Nat} (hm : AnyMerges nodes W nodes' W') :
    leafSymbols nodes' = leafSymbols nodes := by
  induction hm with
  | done => rfl
  | merge _ _ _ _ ih => rw [ih, leafSymbols_append_internal]

theorem anyMerges_handlesPlaced {nodes nodes' : List HufNode} {W W' : List Nat} (hm : AnyMerges nodes W nodes' W')
    (hp : HandlesPlaced nodes W) : HandlesPlaced nodes' W' := by
  induction hm with
  | done => exact hp
  | merge ha hb hlr _ ih => exact ih (hp.merge ha.1 hb.1 hlr _)

theorem anyMerges_nodesOk {nodes nodes' : List HufNode} {W W' : List Nat} (hm : AnyMerges nodes W nodes' W')
    (hp : HandlesPlaced nodes W) (hok : NodesOk nodes) : NodesOk nodes' := by
  induction hm with
  | done => exact hok
  | @merge nodes _ _ _ a b _ _ ha hb hlr _ ih =>
    have halt := hp.lt_of_mem ha.1
    have hblt := hp.lt_of_mem (List.mem_of_mem_erase hb.1)
    refine ih (hp.merge ha.1 hb.1 hlr _) ?_
    rcases hlr with h | h <;> cases h
    · exact hok.append_internal halt hblt
    · exact Nat.add_comm (freqAt nodes b) (freqAt nodes a) ▸ hok.append_internal hblt halt

/-- At most 256 distinct symbols lie in the range of a text. -/
theorem length_le_of_symbols_nodup {l : List Word} (hnodup : l.Nodup) (hl : ∀ c ∈ l, c.toNat ≤ 255) :
    l.length ≤ Config.symMax + 1 := by
  have hsub : l.map BitVec.toNat ⊆ List.range 256 := by
    intro v hv
    obtain ⟨c, hc, rfl⟩ := List.mem_map.mp hv
    exact List.mem_range.mpr (Nat.lt_succ_of_le (hl c hc))
  simpa using ((hnodup.map fun _ _ => BitVec.eq_of_toNat_eq).subperm hsub).length_le

/-- An arena with one handle left in the working collection is a tree with that handle as its root (R28, R29). -/
theorem arenaWf_of_handlesPlaced {nodes : List HufNode} {root : Nat} (hok : NodesOk nodes)
    (hsym : (leafSymbols nodes).Nodup) (hp : HandlesPlaced nodes [root]) : ArenaWf ⟨nodes, some root⟩ := by
  have hroot := hp.lt_of_mem (List.mem_singleton_self root)
  have hlen : (childHandles nodes).length + 1 = nodes.length := by simpa using hp.length_eq
  have hsize := childHandles_length nodes
  have hsyms := length_le_of_symbols_nodup hsym fun _ => hok.leafSymbols_le
  have hlast : root = nodes.length - 1 := by
    have hmem : nodes.length - 1 ∈ childHandles nodes ++ [root] :=
      hp.symm.subset (List.mem_range.mpr (by omega))
    rcases List.mem_append.mp hmem with hchild | hmem
    · obtain ⟨h, k, l, r, hn, hg⟩ := mem_childHandles.mp hchild
      obtain ⟨hlt, -⟩ := List.getElem?_eq_some_iff.mp hn
      have := hok.children_lt hn
      omega
    · exact (List.mem_singleton.mp hmem).symm
  have hbound : nodes.length ≤ 2 * (Config.symMax + 1) - 1 := by omega
  refine ⟨hok, hsym, hbound, .inr ⟨List.ne_nil_of_length_pos (Nat.zero_lt_of_lt hroot), congrArg some hlast, ?_⟩⟩
  dsimp only
  intro h hlt
  have hcount : (childHandles nodes).count h + [root].count h = 1 := by
    rw [← List.count_append, hp.count_eq]
    exact List.count_eq_one_of_mem List.nodup_range (List.mem_range.mpr hlt)
  rw [List.count_singleton] at hcount
  split
  · rw [if_pos (by simp; omega)] at hcount
    omega
  · rw [if_neg (by simp; omega)] at hcount
    omega

/-- For every tie-break and every order of the children, the merges of a text's leaves down to one handle make a
well-formed tree (R110). -/
theorem arenaWf_of_anyMerges {text : List Word} (htext : ∀ c ∈ text, c.toNat ≤ 255) {nodes : List HufNode} {root : Nat}
    (hm : AnyMerges (hufLeaves text) (List.range (hufLeaves text).length) nodes [root]) :
    ArenaWf ⟨nodes, some root⟩ := by
  have hp := handlesPlaced_hufLeaves text
  refine arenaWf_of_handlesPlaced (anyMerges_nodesOk hm hp (nodesOk_hufLeaves htext)) ?_ (anyMerges_handlesPlaced hm hp)
  rw [anyMerges_leafSymbols_eq hm, leafSymbols_hufLeaves]
  exact hufFreq_symbols_nodup text

/-! ### The tree builder (R98, R99) -/

theorem leastFreq_of_leastHandle {nodes : List HufNode} {W : List Nat} {a : Nat} (h : leastHandle nodes W = some a) :
    LeastFreq nodes W a := by
  refine ⟨leastHandle_mem h, fun g hg => ?_⟩
  rcases leastHandle_least h g hg with rfl | hlt | ⟨heq, -⟩
  · exact le_rfl
  · exact hlt.le
  · exact heq.le

/-- What a merge can do: nothing, with fewer than two handles, or merge two of least frequency. -/
theorem mergeOnce_cases (nodes : List HufNode) (W : List Nat) :
    (mergeOnce nodes W = none ∧ W.length < 2) ∨
      ∃ a b, LeastFreq nodes W a ∧ LeastFreq nodes (W.erase a) b ∧
        mergeOnce nodes W =
          some (nodes ++ [.internal (freqAt nodes a + freqAt nodes b) a b], (W.erase a).erase b ++ [nodes.length]) := by
  unfold mergeOnce
  split
  · rename_i ha
    rw [leastHandle_eq_none] at ha
    exact .inl ⟨rfl, by simp [ha]⟩
  · rename_i a ha
    split
    · rename_i hb
      have hlen := List.length_erase_of_mem (leastHandle_mem ha)
      rw [leastHandle_eq_none.mp hb, List.length_nil] at hlen
      exact .inl ⟨rfl, by omega⟩
    · rename_i b hb
      exact .inr ⟨a, b, leastFreq_of_leastHandle ha, leastFreq_of_leastHandle hb, rfl⟩

/-- The merge loop is a sequence of merges of least-frequency handles. -/
theorem mergeLoop_anyMerges (fuel : Nat) (nodes : List HufNode) (W : List Nat) :
    AnyMerges nodes W (mergeLoop fuel nodes W).1 (mergeLoop fuel nodes W).2 := by
  induction fuel generalizing nodes W with
  | zero => exact .done
  | succ fuel ih =>
    rw [mergeLoop]
    rcases mergeOnce_cases nodes W with ⟨hm, -⟩ | ⟨a, b, ha, hb, hm⟩
    · rw [hm]
      exact .done
    · rw [hm]
      exact .merge ha hb (.inl rfl) (ih _ _)

/-- With as many passes as handles, the merge loop leaves one handle of a collection that has any. -/
theorem mergeLoop_collection_length {fuel : Nat} {nodes : List HufNode} {W : List Nat} (hfuel : W.length ≤ fuel) :
    (mergeLoop fuel nodes W).2.length = min W.length 1 := by
  induction fuel generalizing nodes W with
  | zero =>
    simp only [mergeLoop]
    omega
  | succ fuel ih =>
    rw [mergeLoop]
    rcases mergeOnce_cases nodes W with ⟨hm, hlen⟩ | ⟨a, b, ha, hb, hm⟩
    · simp only [hm]
      omega
    · have hlen := (perm_of_two_erased ha.1 hb.1).length_eq
      simp only [List.length_cons] at hlen
      simp only [hm]
      rw [ih] <;> rw [List.length_append, List.length_singleton] <;> omega

theorem hufLeaves_ne_nil {text : List Word} (h : text ≠ []) : hufLeaves text ≠ [] := by
  obtain ⟨c, t, rfl⟩ := List.exists_cons_of_ne_nil h
  have hc : c ∈ (hufFreq (c :: t)).map Prod.fst := mem_hufFreq_symbols.mpr List.mem_cons_self
  intro hnil
  rw [← leafSymbols_hufLeaves, hnil] at hc
  cases hc

/-- The builder merges the leaves of a text down to the root (R99). -/
theorem hufBuild_anyMerges {text : List Word} (h : text ≠ []) :
    ∃ root, (hufBuild text).root = some root ∧
      AnyMerges (hufLeaves text) (List.range (hufLeaves text).length) (hufBuild text).nodes [root] := by
  have hlen := mergeLoop_collection_length (nodes := hufLeaves text)
    (List.length_range (n := (hufLeaves text).length)).le
  have hpos := List.length_pos_iff.mpr (hufLeaves_ne_nil h)
  rw [List.length_range, min_eq_right hpos] at hlen
  obtain ⟨root, hroot⟩ := List.length_eq_one_iff.mp hlen
  exact ⟨root, by simp [hufBuild, hroot], hroot ▸ mergeLoop_anyMerges _ _ _⟩

/-- The builder makes a well-formed tree of every text, the empty one among them. -/
theorem hufBuild_arenaWf {text : List Word} (htext : ∀ c ∈ text, c.toNat ≤ 255) : ArenaWf (hufBuild text) := by
  by_cases h : text = []
  · subst h
    exact ⟨fun h hlt => absurd hlt (Nat.not_lt_zero h), List.nodup_nil, Nat.zero_le _, .inl ⟨rfl, rfl⟩⟩
  · obtain ⟨root, hroot, hm⟩ := hufBuild_anyMerges h
    rw [show hufBuild text = ⟨(hufBuild text).nodes, some root⟩ by rw [← hroot]]
    exact arenaWf_of_anyMerges htext hm

/-! ### Paths from the root to the leaves (R53) -/

theorem hufPath_mem_leafSymbols {nodes : List HufNode} {h : Nat} {p : Bits} {c : Word} (hp : HufPath nodes h p c) :
    c ∈ leafSymbols nodes := by
  induction hp with
  | leaf hn => exact mem_leafSymbols.mpr ⟨_, _, hn⟩
  | left _ _ ih => exact ih
  | right _ _ ih => exact ih

/-- From a leaf there is only the empty path, to its own symbol. -/
theorem hufPath_of_leaf {nodes : List HufNode} {h k : Nat} {p : Bits} {c d : Word} (hp : HufPath nodes h p d)
    (hn : nodes[h]? = some (.leaf c k)) : p = [] ∧ d = c := by
  cases hp with
  | leaf hn' =>
    cases hn.symm.trans hn'
    exact ⟨rfl, rfl⟩
  | left hn' _ => cases hn.symm.trans hn'
  | right hn' _ => cases hn.symm.trans hn'

/-- From an internal node a path takes an edge to a child and goes on from there. -/
theorem hufPath_of_internal {nodes : List HufNode} {h k l r : Nat} {p : Bits} {c : Word} (hp : HufPath nodes h p c)
    (hn : nodes[h]? = some (.internal k l r)) :
    (∃ q, p = false :: q ∧ HufPath nodes l q c) ∨ (∃ q, p = true :: q ∧ HufPath nodes r q c) := by
  cases hp with
  | leaf hn' => cases hn.symm.trans hn'
  | left hn' hq =>
    cases hn.symm.trans hn'
    exact .inl ⟨_, rfl, hq⟩
  | right hn' hq =>
    cases hn.symm.trans hn'
    exact .inr ⟨_, rfl, hq⟩

/-- A path that extends a path to a leaf leads to the same leaf. -/
theorem hufPath_eq_of_prefix {nodes : List HufNode} {h : Nat} {p q : Bits} {c d : Word} (hp : HufPath nodes h p c)
    (hq : HufPath nodes h q d) (hpq : p <+: q) : c = d := by
  induction hp generalizing q with
  | leaf hn => exact (hufPath_of_leaf hq hn).2.symm
  | left hn _ ih =>
    rcases hufPath_of_internal hq hn with ⟨q', rfl, hq'⟩ | ⟨q', rfl, -⟩
    · exact ih hq' (List.cons_prefix_cons.mp hpq).2
    · exact absurd (List.cons_prefix_cons.mp hpq).1 Bool.false_ne_true
  | right hn _ ih =>
    rcases hufPath_of_internal hq hn with ⟨q', rfl, -⟩ | ⟨q', rfl, hq'⟩
    · exact absurd (List.cons_prefix_cons.mp hpq).1.symm Bool.false_ne_true
    · exact ih hq' (List.cons_prefix_cons.mp hpq).2

theorem arenaWf_nodesOk {t : HufTree} (ht : ArenaWf t) : NodesOk t.nodes := by
  obtain ⟨hok, -⟩ := ht
  exact hok

/-- A well-formed tree is empty, or its root is a handle of its arena. -/
theorem arenaWf_root_cases {t : HufTree} (ht : ArenaWf t) :
    (t.nodes = [] ∧ t.root = none) ∨ ∃ (root : Nat) (n : HufNode), t.root = some root ∧ t.nodes[root]? = some n := by
  obtain ⟨-, -, -, hempty | ⟨hne, hlast, -⟩⟩ := ht
  · exact .inl hempty
  · have hlt := Nat.sub_one_lt (List.length_pos_iff.mpr hne).ne'
    exact .inr ⟨_, _, hlast, List.getElem?_eq_getElem hlt⟩

/-- In a well-formed tree every handle but the root is a child of some node. -/
theorem arenaWf_root_or_child {t : HufTree} (ht : ArenaWf t) {root h : Nat} (hroot : t.root = some root)
    (hlt : h < t.nodes.length) : h = root ∨ h ∈ childHandles t.nodes := by
  obtain ⟨-, -, -, ⟨-, hnone⟩ | ⟨-, hlast, hcount⟩⟩ := ht
  · cases hnone.symm.trans hroot
  · by_cases hh : h + 1 = t.nodes.length
    · have hr : t.nodes.length - 1 = root := Option.some.inj (hlast.symm.trans hroot)
      exact .inl (by omega)
    · refine .inr (List.count_pos_iff.mp ?_)
      rw [hcount h hlt, if_neg hh]
      exact Nat.one_pos

/-- In a well-formed tree a path to a leaf is the end of one from the root: its first handle is the root or the child of
a later node. -/
theorem arenaWf_exists_path_from_root {t : HufTree} (ht : ArenaWf t) {root : Nat} (hroot : t.root = some root)
    {h : Nat} {p : Bits} {c : Word} (hp : HufPath t.nodes h p c) (hlt : h < t.nodes.length) :
    ∃ q, HufPath t.nodes root q c := by
  rcases arenaWf_root_or_child ht hroot hlt with rfl | hchild
  · exact ⟨p, hp⟩
  · obtain ⟨g, k, l, r, hn, hg⟩ := mem_childHandles.mp hchild
    have hglt : g < t.nodes.length := (List.getElem?_eq_some_iff.mp hn).1
    have hlater : h < g := by
      have := (arenaWf_nodesOk ht).children_lt hn
      omega
    rcases hg with rfl | rfl
    · exact arenaWf_exists_path_from_root ht hroot (.left hn hp) hglt
    · exact arenaWf_exists_path_from_root ht hroot (.right hn hp) hglt
termination_by t.nodes.length - h

/-- In a well-formed tree a path leads from the root to the leaf of every symbol. -/
theorem arenaWf_path_of_symbol {t : HufTree} (ht : ArenaWf t) {root : Nat} (hroot : t.root = some root) {c : Word}
    (hc : c ∈ leafSymbols t.nodes) : ∃ q, HufPath t.nodes root q c := by
  obtain ⟨h, k, hn⟩ := mem_leafSymbols.mp hc
  exact arenaWf_exists_path_from_root ht hroot (.leaf hn) (List.getElem?_eq_some_iff.mp hn).1

/-! ### The code assigner (R101) -/

theorem hufWalk_leaf {nodes : List HufNode} {h k : Nat} {c : Word} (hn : nodes[h]? = some (.leaf c k)) (fuel : Nat)
    (p : Bits) (T : List (Word × Bits)) : hufWalk nodes (fuel + 1) h p T = tableSet T c p := by
  rw [hufWalk, hn]

theorem hufWalk_internal {nodes : List HufNode} {h k l r : Nat} (hn : nodes[h]? = some (.internal k l r)) (fuel : Nat)
    (p : Bits) (T : List (Word × Bits)) : hufWalk nodes (fuel + 1) h p T =
      hufWalk nodes fuel r (p ++ [true]) (hufWalk nodes fuel l (p ++ [false]) T) := by
  rw [hufWalk, hn]

/-- What holds of a table, and is kept by the assignment of each path the walk meets, holds after the walk. -/
theorem hufWalk_induction {nodes : List HufNode} {P : List (Word × Bits) → Prop} (fuel h : Nat) (p : Bits)
    {T : List (Word × Bits)}
    (hset : ∀ T c q, HufPath nodes h q c → P T → P (tableSet T c (p ++ q))) (hT : P T) :
    P (hufWalk nodes fuel h p T) := by
  induction fuel generalizing h p T with
  | zero => exact hT
  | succ fuel ih =>
    cases hn : nodes[h]? with
    | none =>
      rw [hufWalk, hn]
      exact hT
    | some n =>
      cases n with
      | leaf c k =>
        rw [hufWalk_leaf hn, ← List.append_nil p]
        exact hset T c [] (.leaf hn) hT
      | internal k l r =>
        rw [hufWalk_internal hn]
        refine ih r _ (fun T c q hq hP => ?_) (ih l _ (fun T c q hq hP => ?_) hT)
        · rw [List.append_assoc]
          exact hset T c _ (.right hn hq) hP
        · rw [List.append_assoc]
          exact hset T c _ (.left hn hq) hP

theorem hufWalk_sorted {nodes : List HufNode} (fuel h : Nat) (p : Bits) {T : List (Word × Bits)} (hT : TableSorted T) :
    TableSorted (hufWalk nodes fuel h p T) :=
  hufWalk_induction fuel h p (fun _ c q _ hP => tableSet_sorted hP c (p ++ q)) hT

/-- An entry of the table the walk made from the empty one is a symbol with a path to it. -/
theorem hufPath_of_mem_hufWalk {nodes : List HufNode} {fuel h : Nat} :
    ∀ e ∈ hufWalk nodes fuel h [] [], HufPath nodes h e.2 e.1 := by
  refine hufWalk_induction fuel h [] (P := fun T => ∀ e ∈ T, HufPath nodes h e.2 e.1) ?_ (by simp)
  intro T c q hq hP e he
  rcases mem_of_mem_tableSet he with rfl | he
  · exact hq
  · exact hP e he

theorem tableGet_isSome_tableSet {T : List (Word × Bits)} {d : Word} (h : (tableGet T d).isSome) (c : Word) (p : Bits) :
    (tableGet (tableSet T c p) d).isSome := by
  rw [tableGet_tableSet]
  split
  · rfl
  · exact h

/-- The walk gives a codeword to every symbol a path leads to. -/
theorem hufWalk_isSome_of_path {nodes : List HufNode} (hok : NodesOk nodes) {fuel h : Nat} {q : Bits} {c : Word}
    (hq : HufPath nodes h q c) (hfuel : h < fuel) (p : Bits) (T : List (Word × Bits)) :
    (tableGet (hufWalk nodes fuel h p T) c).isSome := by
  induction hq generalizing fuel p T with
  | @leaf h c k hn =>
    obtain ⟨fuel, rfl⟩ := Nat.exists_eq_add_one_of_ne_zero (Nat.ne_zero_of_lt hfuel)
    rw [hufWalk_leaf hn, tableGet_tableSet, if_pos rfl]
    rfl
  | @left h k l r q c hn _ ih =>
    obtain ⟨fuel, rfl⟩ := Nat.exists_eq_add_one_of_ne_zero (Nat.ne_zero_of_lt hfuel)
    have hl : l < fuel := by
      have := hok.children_lt hn
      omega
    rw [hufWalk_internal hn]
    exact hufWalk_induction (P := fun T => (tableGet T c).isSome) fuel r _
      (fun _ d q _ hP => tableGet_isSome_tableSet hP d _) (ih hl _ T)
  | @right h k l r q c hn _ ih =>
    obtain ⟨fuel, rfl⟩ := Nat.exists_eq_add_one_of_ne_zero (Nat.ne_zero_of_lt hfuel)
    have hr : r < fuel := by
      have := hok.children_lt hn
      omega
    rw [hufWalk_internal hn]
    exact ih hr _ _

theorem mem_symbols_of_tableGet_isSome {T : List (Word × Bits)} (hT : TableSorted T) {c : Word}
    (h : (tableGet T c).isSome) : c ∈ T.map Prod.fst := by
  obtain ⟨p, hp⟩ := Option.isSome_iff_exists.mp h
  exact List.mem_map_of_mem (f := Prod.fst) ((tableGet_eq_some hT).mp hp)

theorem tableSorted_symbols_nodup {T : List (Word × Bits)} (hT : TableSorted T) : (T.map Prod.fst).Nodup :=
  List.pairwise_map.mpr (hT.imp fun hlt heq => absurd (congrArg BitVec.toNat heq) hlt.ne)

/-- In a sorted table whose codewords are the paths to their symbols no codeword begins another. -/
theorem prefixFree_of_paths {nodes : List HufNode} {root : Nat} {T : List (Word × Bits)} (hT : TableSorted T)
    (hpath : ∀ e ∈ T, HufPath nodes root e.2 e.1) : PrefixFree T := by
  refine hT.imp_of_mem fun {a b} ha hb hlt => ⟨fun hab => ?_, fun hba => ?_⟩
  · exact hlt.ne (congrArg BitVec.toNat (hufPath_eq_of_prefix (hpath a ha) (hpath b hb) hab))
  · exact hlt.ne' (congrArg BitVec.toNat (hufPath_eq_of_prefix (hpath b hb) (hpath a ha) hba))

/-- A table of a well-formed tree has no more entries than there are symbols. -/
theorem tableWf_of_symbols {t : HufTree} (ht : ArenaWf t) {T : List (Word × Bits)} (hT : TableSorted T)
    (hne : ∀ e ∈ T, e.2 ≠ []) (hsym : ∀ c, c ∈ T.map Prod.fst ↔ c ∈ leafSymbols t.nodes) (hfree : PrefixFree T) :
    TableWf t.nodes T := by
  have hlen := length_le_of_symbols_nodup (tableSorted_symbols_nodup hT) fun c hc =>
    (arenaWf_nodesOk ht).leafSymbols_le ((hsym c).mp hc)
  exact ⟨hT, hne, fun c => (hsym c).mp, fun c => (hsym c).mpr, hfree, List.length_map (f := Prod.fst) ▸ hlen⟩

theorem hufAssign_none {t : HufTree} (h : t.root = none) : hufAssign t = [] := by
  rw [hufAssign, h]

theorem hufAssign_leaf {t : HufTree} {root k : Nat} {c : Word} (h : t.root = some root)
    (hn : t.nodes[root]? = some (.leaf c k)) : hufAssign t = [(c, [false])] := by
  simp [hufAssign, h, hn, tableSet]

theorem hufAssign_internal {t : HufTree} {root k l r : Nat} (h : t.root = some root)
    (hn : t.nodes[root]? = some (.internal k l r)) : hufAssign t = hufWalk t.nodes (root + 1) root [] [] := by
  simp [hufAssign, h, hn]

/-- A lone leaf gets the codeword 0, and no other symbol is in the tree. -/
theorem tableWf_leaf {t : HufTree} (ht : ArenaWf t) {root k : Nat} {c : Word} (hroot : t.root = some root)
    (hn : t.nodes[root]? = some (.leaf c k)) : TableWf t.nodes [(c, [false])] := by
  refine tableWf_of_symbols ht (List.pairwise_singleton _ _) (by simp) (fun d => ?_) (List.pairwise_singleton _ _)
  rw [List.map_singleton, List.mem_singleton]
  constructor
  · rintro rfl
    exact mem_leafSymbols.mpr ⟨root, k, hn⟩
  · intro hd
    obtain ⟨q, hq⟩ := arenaWf_path_of_symbol ht hroot hd
    exact (hufPath_of_leaf hq hn).2

/-- The walk from an internal root gives every symbol a path of at least one edge. -/
theorem tableWf_internal {t : HufTree} (ht : ArenaWf t) {root k l r : Nat} (hroot : t.root = some root)
    (hn : t.nodes[root]? = some (.internal k l r)) : TableWf t.nodes (hufWalk t.nodes (root + 1) root [] []) := by
  have hsorted : TableSorted (hufWalk t.nodes (root + 1) root [] []) := hufWalk_sorted _ _ _ List.Pairwise.nil
  have hpath := hufPath_of_mem_hufWalk (nodes := t.nodes) (fuel := root + 1) (h := root)
  refine tableWf_of_symbols ht hsorted (fun e he hnil => ?_) (fun c => ⟨fun hc => ?_, fun hc => ?_⟩)
    (prefixFree_of_paths hsorted hpath)
  · rcases hufPath_of_internal (hpath e he) hn with ⟨q, hq, -⟩ | ⟨q, hq, -⟩ <;> simp [hnil] at hq
  · obtain ⟨e, he, rfl⟩ := List.mem_map.mp hc
    exact hufPath_mem_leafSymbols (hpath e he)
  · obtain ⟨q, hq⟩ := arenaWf_path_of_symbol ht hroot hc
    exact mem_symbols_of_tableGet_isSome hsorted
      (hufWalk_isSome_of_path (arenaWf_nodesOk ht) hq (Nat.lt_succ_self root) [] [])

/-- The table assigned to a well-formed tree is well formed (R29 (d), (e); R101). -/
theorem hufAssign_tableWf {t : HufTree} (ht : ArenaWf t) : TableWf t.nodes (hufAssign t) := by
  rcases arenaWf_root_cases ht with ⟨hnodes, hnone⟩ | ⟨root, n, hroot, hn⟩
  · simp [hufAssign_none hnone, hnodes, TableWf, PrefixFree, leafSymbols]
  · cases n with
    | leaf c k => exact hufAssign_leaf hroot hn ▸ tableWf_leaf ht hroot hn
    | internal k l r => exact hufAssign_internal hroot hn ▸ tableWf_internal ht hroot hn

end Sys2Proof.Machine
end

section
/-! PROOFS. Every step keeps the invariant of HUF (spec 10_state.md R27 to R29). -/

namespace Sys2Proof.Machine

open Sys2Proof.Safety

/-- The code built from a text in the symbol range satisfies the invariant of HUF (R29, R106). -/
theorem hufInv_of_text {text : List Word} (htext : ∀ c ∈ text, c.toNat ≤ 255) :
    HufInv { valid := true, tree := hufBuild text, table := hufAssign (hufBuild text) } :=
  have hwf := hufBuild_arenaWf htext
  ⟨fun _ => ⟨hwf, hufAssign_tableWf hwf, rfl⟩, fun h => absurd h.symm Bool.false_ne_true⟩

/-- A HUF.ENC that succeeds had a text in the symbol range in IN (R44, R106). -/
theorem hufEnc_text_le {s t : State} (h : exec .hufEnc s = .next t) (hok : t.status = 0) :
    ∀ c ∈ s.inp, c.toNat ≤ 255 := by
  rcases finish_eq_next.mp h with ⟨c, hc, -⟩ | ⟨e, -, rfl⟩
  · obtain ⟨x, hx, -⟩ := except_bind_eq_ok.mp hc
    exact (checkText_eq_ok.mp hx).2
  · exact absurd hok e.code_ne_zero

theorem hufEnc_hufInv {s t : State} (h : exec .hufEnc s = .next t) (hok : t.status = 0) : HufInv t.huf :=
  hufEnc_huf h hok ▸ hufInv_of_text (hufEnc_text_le h hok)

/-- Settles O47, by what a step does to HUF: keep it, reset it, or put the code of a text in its place. -/
theorem stepKeepsHuffmanInvariant : Obligations.StepKeepsHuffmanInvariant := by
  intro s t hinv h
  rcases step_huf h with hkeep | ⟨rest, -, hreset⟩ | ⟨rest, -, -, henc, hok⟩
  · exact hkeep ▸ hinv
  · exact hreset ▸ hufInv_reset
  · exact hufEnc_hufInv henc hok

end Sys2Proof.Machine
end

section
/-! PROOFS. The host's side of memory: a step by the host's next move (spec 20_memory.md R36, R38), and the host's
bit-strings as operands (spec 20_memory.md R34). -/

namespace Sys2Proof.Machine

open Sys2Proof.Safety

/-! ### Stray characters in a bit-string (O50) -/

/-- A character other than '0' and '1' becomes an element that is no bit (R34). -/
theorem bitElement_of_stray {c : Char} (h0 : c ≠ '0') (h1 : c ≠ '1') : bitElement c = 2 := by
  rw [bitElement, if_neg h0, if_neg h1]

theorem not_isBits_bitStringIn {str : List Char} {c : Char} (hc : c ∈ str) (h0 : c ≠ '0') (h1 : c ≠ '1') :
    ¬ IsBits (bitStringIn str) := by
  intro hbits
  have hle : (bitElement c).toNat ≤ 1 := hbits _ (List.mem_map_of_mem hc)
  rw [bitElement_of_stray h0 h1] at hle
  exact absurd hle (by decide)

theorem keptHuf_of_valid {s : State} (h : s.huf.valid = true) : keptHuf s = .ok s.huf := by
  rw [keptHuf, if_pos h]

/-- A command with a bit-string operand begins with CheckBits; HUF.DEC does once it has found a kept code (R44, R107,
R141). -/
theorem exec_begins_with_checkBits {i : Instr} {s : State} (hi : operandForm i = .bits)
    (hkept : i = .hufDec → s.huf.valid = true) :
    ∃ f : Bits → Except Err Completion, exec i s = s.finish (checkBits s.inp >>= f) := by
  cases i with
  | grDec | egDec | fibDec | grDect | egDect | fibDect => exact ⟨_, rfl⟩
  | hufDec =>
    refine ⟨fun b => hufParse s.maxOut s.huf.table b >>= fun o => pure { out := o }, ?_⟩
    rw [exec, execHufDec, keptHuf_of_valid (hkept rfl), except_bind_ok]
  | _ => cases hi

/-- A bit-consuming command on an IN with an element that is no bit raises MalformedStream (R135). -/
theorem exec_of_not_isBits {i : Instr} {s : State} (hi : operandForm i = .bits)
    (hkept : i = .hufDec → s.huf.valid = true) (hbits : ¬ IsBits s.inp) :
    exec i s = .next (errState s 2) := by
  obtain ⟨f, hf⟩ := exec_begins_with_checkBits hi hkept
  rw [hf, checkBits_not_bits hbits, except_bind_error, finish_error]
  rfl

/-- Settles O50: the stray character is an element that is no bit, and CheckBits comes first. -/
theorem strayCharacterIsMalformed : Obligations.StrayCharacterIsMalformed := by
  intro str c s hc h0 h1 hin i hi hkept
  have hform : ∀ i ∈ [Instr.grDec, .grDect, .egDec, .egDect, .fibDec, .fibDect, .hufDec],
      operandForm i = .bits := by decide
  exact exec_of_not_isBits (hform i hi) hkept (hin ▸ not_isBits_bitStringIn hc h0 h1)

/-! ### A step by the host's next move (R38, R39) -/

theorem step_of_no_move {s : State} (h : s.hostMoves = []) : step s = .next s := by
  rw [step, h]

theorem step_of_move {s : State} {m : HostMove} {rest : List HostMove} (h : s.hostMoves = m :: rest) :
    step s = hostStep m (s.withMoves rest) := by
  rw [step, h]

/-! ### Starting a command (O4) -/

theorem startCommand_of_decode {s : State} {i : Instr} (h : decode s.cmd = .ok i) : startCommand s = exec i s := by
  rw [startCommand, fetchCommand, h]

/-- Settles O4: the move taken off the list leaves CMD as it was, so the start decodes the same byte. -/
theorem startStepRunsDecodedCommand : Obligations.StartStepRunsDecodedCommand := by
  intro s rest hmoves
  have hstart : step s = startCommand (s.withMoves rest) := step_of_move hmoves
  exact ⟨hstart, fun i hi => hstart.trans (startCommand_of_decode hi)⟩

/-! ### The host's writes, reads and reset (O5) -/

theorem admits_iff_holds {cap : Config.Capacity} {n : Nat} : cap.admits n = true ↔ Holds cap n := by
  cases cap <;> simp [Config.Capacity.admits, Holds]

theorem hostWriteIn_of_holds {s : State} {v : List Word} (h : Holds s.maxIn v.length) :
    hostWriteIn s v = .next { s with inp := v } := by
  rw [hostWriteIn, if_pos (admits_iff_holds.mpr h)]

/-- A sequence longer than MAX_IN cannot be written to IN (R38; log entry 4). -/
theorem hostWriteIn_of_not_holds {s : State} {v : List Word} (h : ¬ Holds s.maxIn v.length) :
    hostWriteIn s v = .fault .inOverlong := by
  rw [hostWriteIn, if_neg (mt admits_iff_holds.mp h)]

/-- Settles O5, by the host's move; only the write of IN has two ends, by the capacity MAX_IN. -/
theorem hostMovesSetOperandsOnly : Obligations.HostMovesSetOperandsOnly := by
  intro s rest
  refine ⟨fun v => step_of_move, fun v => step_of_move, fun v hmoves => ⟨fun hfits => ?_, fun k hk hlt => ?_⟩,
    fun r => step_of_move, step_of_move, step_of_no_move⟩
  · exact (step_of_move hmoves).trans (hostWriteIn_of_holds hfits)
  · have hlong : ¬ Holds s.maxIn v.length := fun hfits => (hfits k hk).not_gt hlt
    exact (step_of_move hmoves).trans (hostWriteIn_of_not_holds hlong)

end Sys2Proof.Machine
end

section
/-! PROOFS. The command byte (spec 30_encoding.md R45 to R48; 60_exceptions.md R137): the decoder and the encoder undo
each other, so the opcode map is exact and a reserved byte is no command. -/

namespace Sys2Proof.Machine

open Sys2Proof.Safety

/-! ### Decode and encode (O1, O2) -/

theorem decode_encode (i : Instr) : decode (encode i) = .ok i := by
  cases i <;> rfl

/-- A byte the decoder accepts is the encoding of the command it answers, checked byte by byte. -/
theorem encode_of_decode {b : BitVec 8} {i : Instr} (h : decode b = .ok i) : encode i = b := by
  have hbyte : ∀ b : BitVec 8, ∀ i ∈ (decode b).toOption, encode i = b := by decide
  refine hbyte b i ?_
  rw [h]
  rfl

/-- Settles O2, by the two directions. -/
theorem decodeEncodeAgree : Obligations.DecodeEncodeAgree :=
  fun _ i => ⟨encode_of_decode, fun h => h ▸ decode_encode i⟩

/-- The commands of the opcode map, in the order of their bytes (R46). -/
def allCommands : List Instr :=
  [.grEnc, .grDec, .grEnct, .grDect, .egEnc, .egDec, .egEnct, .egDect, .fibEnc, .fibDec, .fibEnct, .fibDect, .fibGen,
    .hufEnc, .hufDec, .hufDisp]

theorem mem_allCommands (i : Instr) : i ∈ allCommands := by
  cases i <;> decide

/-- A byte is a command exactly when its value is that of some command's encoding. -/
theorem exists_decode_iff {b : BitVec 8} :
    (∃ i, decode b = .ok i) ↔ b.toNat ∈ allCommands.map fun i => (encode i).toNat := by
  rw [List.mem_map]
  constructor
  · rintro ⟨i, hi⟩
    exact ⟨i, mem_allCommands i, congrArg BitVec.toNat (encode_of_decode hi)⟩
  · rintro ⟨i, -, hi⟩
    exact ⟨i, BitVec.eq_of_toNat_eq hi ▸ decode_encode i⟩

/-- Settles O1: each listed byte is the encoding of its command, and the listed values are those of all the
encodings. -/
theorem opcodeMapIsExact : Obligations.OpcodeMapIsExact :=
  ⟨decode_encode .grEnc, decode_encode .grDec, decode_encode .grEnct, decode_encode .grDect, decode_encode .egEnc,
    decode_encode .egDec, decode_encode .egEnct, decode_encode .egDect, decode_encode .fibEnc, decode_encode .fibDec,
    decode_encode .fibEnct, decode_encode .fibDect, decode_encode .fibGen, decode_encode .hufEnc, decode_encode .hufDec,
    decode_encode .hufDisp, fun _ => exists_decode_iff⟩

/-! ### Reserved bytes (O3) -/

/-- No command is encoded as a reserved byte (R48). -/
theorem reservedCmd_encode (i : Instr) : reservedCmd (encode i) = false := by
  cases i <;> rfl

/-- Starting a byte that decodes to no command raises IllegalCommand (R48, R137). -/
theorem startCommand_of_no_command {s : State} (h : ∀ i, decode s.cmd ≠ .ok i) :
    startCommand s = .next (errState s 4) := by
  rw [startCommand, fetchCommand]
  cases hd : decode s.cmd with
  | ok i => exact absurd hd (h i)
  | error _ => rfl

theorem startCommand_of_reserved {s : State} (h : reservedCmd s.cmd = true) :
    startCommand s = .next (errState s 4) := by
  refine startCommand_of_no_command fun i hi => ?_
  rw [← encode_of_decode hi, reservedCmd_encode] at h
  exact Bool.false_ne_true h

/-- Settles O3: the ranges of R48 are those of the reserved bytes. -/
theorem reservedStartIsIllegal : Obligations.ReservedStartIsIllegal := by
  intro s h
  refine startCommand_of_reserved ?_
  simpa [reservedCmd, or_assoc] using h

end Sys2Proof.Machine
end

section
/-! PROOFS. The assembler (spec 30_encoding.md R47, R49): it answers for the lines of the grammar, with the moves of
their command, and for no other line. -/

namespace Sys2Proof.Machine

open Sys2Proof.Safety

/-! ### The commands by the form of their operand (R47, R49) -/

theorem operandForm_eq_number {i : Instr} :
    operandForm i = .number ↔ i ∈ [Instr.grEnc, .egEnc, .fibEnc, .fibGen] := by
  cases i <;> decide

theorem operandForm_eq_bits {i : Instr} :
    operandForm i = .bits ↔ i ∈ [Instr.grDec, .grDect, .egDec, .egDect, .fibDec, .fibDect, .hufDec] := by
  cases i <;> decide

theorem operandForm_eq_text {i : Instr} :
    operandForm i = .text ↔ i ∈ [Instr.grEnct, .egEnct, .fibEnct, .hufEnc] := by
  cases i <;> decide

theorem operandForm_eq_nothing {i : Instr} : operandForm i = .nothing ↔ i = .hufDisp := by
  cases i <;> decide

theorem readsArg_of_number {i : Instr} (h : operandForm i = .number) : readsArg i = true := by
  have hform : ∀ i ∈ [Instr.grEnc, .egEnc, .fibEnc, .fibGen], readsArg i = true := by decide
  exact hform i (operandForm_eq_number.mp h)

theorem readsIn_of_bits {i : Instr} (h : operandForm i = .bits) : readsIn i = true := by
  have hform : ∀ i ∈ [Instr.grDec, .grDect, .egDec, .egDect, .fibDec, .fibDect, .hufDec], readsIn i = true := by
    decide
  exact hform i (operandForm_eq_bits.mp h)

theorem readsIn_of_text {i : Instr} (h : operandForm i = .text) : readsIn i = true := by
  have hform : ∀ i ∈ [Instr.grEnct, .egEnct, .fibEnct, .hufEnc], readsIn i = true := by decide
  exact hform i (operandForm_eq_text.mp h)

/-! ### What each form of operand is read as -/

theorem parseOperand_number {t : List Char} {w : List HostMove} :
    parseOperand .number t = some w ↔ ∃ s v, t = ' ' :: s ∧ parseNumber s = some v ∧ w = [.writeArg v] := by
  unfold parseOperand
  split <;> simp_all [eq_comm]

theorem parseOperand_bits {t : List Char} {w : List HostMove} :
    parseOperand .bits t = some w ↔
      ∃ s v, t = ' ' :: 'b' :: '"' :: s ∧ parseBits s = some v ∧ w = [.writeIn v] := by
  unfold parseOperand
  split <;> simp_all [eq_comm]

theorem parseOperand_text {t : List Char} {w : List HostMove} :
    parseOperand .text t = some w ↔
      ∃ s v, t = ' ' :: 't' :: '"' :: s ∧ parseText s = some v ∧ w = [.writeIn v] := by
  unfold parseOperand
  split <;> simp_all [eq_comm]

theorem parseOperand_nothing {t : List Char} {w : List HostMove} :
    parseOperand .nothing t = some w ↔ t = [] ∧ w = [] := by
  unfold parseOperand
  split <;> simp_all [eq_comm]

/-- An operand is nothing or begins with the space that ends the mnemonic. -/
theorem head?_of_parseOperand {f : OperandForm} {t : List Char} {w : List HostMove} (h : parseOperand f t = some w) :
    t.head? = none ∨ t.head? = some ' ' := by
  cases f with
  | nothing =>
    obtain ⟨rfl, -⟩ := parseOperand_nothing.mp h
    exact .inl rfl
  | number =>
    obtain ⟨s, v, rfl, -⟩ := parseOperand_number.mp h
    exact .inr rfl
  | bits =>
    obtain ⟨s, v, rfl, -⟩ := parseOperand_bits.mp h
    exact .inr rfl
  | text =>
    obtain ⟨s, v, rfl, -⟩ := parseOperand_text.mp h
    exact .inr rfl

/-! ### The grammar and the parser agree (O49) -/

/-- The assembler answers for a mnemonic and an operand of its form. -/
theorem assemble_of_parseOperand {i : Instr} {f : OperandForm} {t : List Char} {w : List HostMove}
    (hf : operandForm i = f) (h : parseOperand f t = some w) :
    assemble (asmMnemonic i ++ t) = some (.writeCmd (encode i) :: w ++ [.start]) := by
  subst hf
  rw [assemble_mnemonic i t (head?_of_parseOperand h), h, Option.map_some]

theorem assemble_of_asmLine {line : List Char} {i : Instr} {w : List HostMove} (h : AsmLine line i w) :
    assemble line = some (.writeCmd (encode i) :: w ++ [.start]) := by
  cases h with
  | decimal hi hnum hmax =>
    refine assemble_of_parseOperand (operandForm_eq_number.mpr hi) (parseOperand_number.mpr ⟨_, _, rfl, ?_, rfl⟩)
    exact parseNumber_eq_some.mpr ⟨_, hmax, rfl, .inl hnum⟩
  | hexadecimal hi hnum hmax =>
    refine assemble_of_parseOperand (operandForm_eq_number.mpr hi) (parseOperand_number.mpr ⟨_, _, rfl, ?_, rfl⟩)
    exact parseNumber_eq_some.mpr ⟨_, hmax, rfl, .inr ⟨_, rfl, hnum⟩⟩
  | bits hi =>
    rw [List.append_assoc]
    refine assemble_of_parseOperand (operandForm_eq_bits.mpr hi) (parseOperand_bits.mpr ⟨_, _, rfl, ?_, rfl⟩)
    exact parseBits_eq_some.mpr ⟨_, rfl, rfl⟩
  | text hi htext =>
    rw [List.append_assoc]
    refine assemble_of_parseOperand (operandForm_eq_text.mpr hi) (parseOperand_text.mpr ⟨_, _, rfl, ?_, rfl⟩)
    exact parseText_of_asmText htext
  | alone =>
    rw [← List.append_nil (asmMnemonic .hufDisp)]
    exact assemble_of_parseOperand rfl (parseOperand_nothing.mpr ⟨rfl, rfl⟩)

/-- A mnemonic and an operand that is read in its command's form are a line of the grammar. -/
theorem asmLine_of_parseOperand {i : Instr} {t : List Char} {w : List HostMove}
    (h : parseOperand (operandForm i) t = some w) : AsmLine (asmMnemonic i ++ t) i w := by
  cases hf : operandForm i with
  | nothing =>
    obtain ⟨rfl, rfl⟩ := parseOperand_nothing.mp (hf ▸ h)
    obtain rfl := operandForm_eq_nothing.mp hf
    exact .alone
  | number =>
    obtain ⟨s, v, rfl, hv, rfl⟩ := parseOperand_number.mp (hf ▸ h)
    obtain ⟨n, hmax, rfl, hnum | ⟨d, rfl, hnum⟩⟩ := parseNumber_eq_some.mp hv
    · exact .decimal (operandForm_eq_number.mp hf) hnum hmax
    · exact .hexadecimal (operandForm_eq_number.mp hf) hnum hmax
  | bits =>
    obtain ⟨s, v, rfl, hv, rfl⟩ := parseOperand_bits.mp (hf ▸ h)
    obtain ⟨bs, rfl, rfl⟩ := parseBits_eq_some.mp hv
    have hline := AsmLine.bits (bs := bs) (operandForm_eq_bits.mp hf)
    rwa [List.append_assoc] at hline
  | text =>
    obtain ⟨s, v, rfl, hv, rfl⟩ := parseOperand_text.mp (hf ▸ h)
    obtain ⟨cs, rfl, htext⟩ := asmText_of_parseText hv
    have hline := AsmLine.text (operandForm_eq_text.mp hf) htext
    rwa [List.append_assoc] at hline

/-- An operand is written to the register its command reads (R47). -/
theorem parseOperand_register {i : Instr} {t : List Char} {w : List HostMove}
    (h : parseOperand (operandForm i) t = some w) :
    w = [] ∧ i = .hufDisp ∨ (∃ v, w = [.writeArg v] ∧ readsArg i = true) ∨
      (∃ v, w = [.writeIn v] ∧ readsIn i = true) := by
  cases hf : operandForm i with
  | nothing => exact .inl ⟨(parseOperand_nothing.mp (hf ▸ h)).2, operandForm_eq_nothing.mp hf⟩
  | number =>
    obtain ⟨s, v, -, -, rfl⟩ := parseOperand_number.mp (hf ▸ h)
    exact .inr (.inl ⟨v, rfl, readsArg_of_number hf⟩)
  | bits =>
    obtain ⟨s, v, -, -, rfl⟩ := parseOperand_bits.mp (hf ▸ h)
    exact .inr (.inr ⟨v, rfl, readsIn_of_bits hf⟩)
  | text =>
    obtain ⟨s, v, -, -, rfl⟩ := parseOperand_text.mp (hf ▸ h)
    exact .inr (.inr ⟨v, rfl, readsIn_of_text hf⟩)

/-- Settles O49: an assembled line is a mnemonic and an operand of the form its command takes, which is what the grammar
writes. -/
theorem assembledLineStartsCommand : Obligations.AssembledLineStartsCommand := by
  refine ⟨fun line i w => assemble_of_asmLine, fun line ms h => ?_⟩
  obtain ⟨i, t, w, rfl, hw, rfl⟩ := assemble_eq_some h
  exact ⟨i, w, asmLine_of_parseOperand hw, rfl, parseOperand_register hw⟩

end Sys2Proof.Machine
end

section
/-! PROOFS. The length of the codewords (spec 30_encoding.md R57; 42_fibonacci.md R86; 43_huffman.md R111). -/

namespace Sys2Proof.Machine

open Sys2Proof.Safety

/-! ### Golomb-Rice and Elias-Gamma -/

theorem grCode_length (n : Nat) : (grCode n).length = n / 8 + 4 := by
  simp [grCode]

theorem egCode_length (n : Nat) : (egCode n).length = 2 * Nat.log2 n + 1 := by
  rw [egCode, minbin, List.length_append, zeros_length, bin_length]
  omega

theorem egCode_length_le {n k : Nat} (hn : 1 ≤ n) (hlt : n < 2 ^ (k + 1)) : (egCode n).length ≤ 2 * k + 1 := by
  have hlog := (Nat.log2_lt (Nat.ne_of_gt hn)).mpr hlt
  rw [egCode_length]
  omega

/-! ### Fibonacci: one more bit than there are terms (R86) -/

@[simp] theorem greedySelect_length (fs : List Nat) (rem : Nat) : (greedySelect fs rem).length = fs.length := by
  induction fs generalizing rem with
  | nil => rfl
  | cons f fs ih =>
    rw [greedySelect]
    split <;> simp [ih]

theorem fibCode_length (n : Nat) : (fibCode n).length = (fibList n).length + 1 := by
  simp [fibCode, fibSelect]

/-- When the bound is below `fib (j + k)`, at most `k` terms are listed from `fib j` on. -/
theorem fibGenLoop_length_le {fuel max j k : Nat} (h : max < Nat.fib (j + k)) :
    (fibGenLoop fuel max (Nat.fib j) (Nat.fib (j + 1))).length ≤ k := by
  induction k generalizing fuel j with
  | zero =>
    rw [Nat.add_zero] at h
    rw [fibGenLoop_of_lt h, List.length_nil]
  | succ k ih =>
    cases fuel with
    | zero => exact Nat.zero_le _
    | succ fuel =>
      rcases le_or_gt (Nat.fib j) max with hle | hlt
      · rw [fibGenLoop_of_le hle, ← Nat.fib_add_two, List.length_cons]
        exact Nat.succ_le_succ (ih (by rwa [Nat.add_right_comm]))
      · rw [fibGenLoop_of_lt hlt]
        exact Nat.zero_le _

theorem fibCode_length_le {n k : Nat} (h : n < Nat.fib (2 + k)) : (fibCode n).length ≤ k + 1 := by
  rw [fibCode_length]
  exact Nat.succ_le_succ (fibGenLoop_length_le h)

/-! ### Huffman: at most as many bits as there are internal nodes (R111) -/

/-- The first `d` nodes are leaves, and the children of an internal node are earlier nodes. -/
def InternalsFrom (d : Nat) (nodes : List HufNode) : Prop :=
  ∀ h k l r : Nat, nodes[h]? = some (.internal k l r) → d ≤ h ∧ l < h ∧ r < h

theorem internalsFrom_hufLeaves (text : List Word) : InternalsFrom (hufLeaves text).length (hufLeaves text) := by
  intro h k l r hn
  simp [hufLeaves] at hn

theorem InternalsFrom.append_internal {d : Nat} {nodes : List HufNode} (hd : InternalsFrom d nodes)
    (hlen : d ≤ nodes.length) {l r : Nat} (hl : l < nodes.length) (hr : r < nodes.length) (k : Nat) :
    InternalsFrom d (nodes ++ [.internal k l r]) := by
  intro h k' l' r' hn
  rcases Nat.lt_or_ge h nodes.length with hold | hnew
  · rw [List.getElem?_append_left hold] at hn
    exact hd h k' l' r' hn
  · obtain ⟨hlt, -⟩ := List.getElem?_eq_some_iff.mp hn
    have hh : h = nodes.length := by
      rw [List.length_append, List.length_singleton] at hlt
      omega
    subst hh
    rw [List.getElem?_concat_length] at hn
    cases hn
    exact ⟨hlen, hl, hr⟩

/-- The merges put their nodes after the leaves, under any tie-break. -/
theorem anyMerges_internalsFrom {d : Nat} {nodes nodes' : List HufNode} {W W' : List Nat}
    (hm : AnyMerges nodes W nodes' W') (hp : HandlesPlaced nodes W) (hlen : d ≤ nodes.length)
    (hd : InternalsFrom d nodes) : InternalsFrom d nodes' := by
  induction hm with
  | done => exact hd
  | @merge nodes _ _ _ a b l r ha hb hlr _ ih =>
    have halt := hp.lt_of_mem ha.1
    have hblt := hp.lt_of_mem (List.mem_of_mem_erase hb.1)
    have hchildren : l < nodes.length ∧ r < nodes.length := by
      rcases hlr with h | h <;> cases h
      · exact ⟨halt, hblt⟩
      · exact ⟨hblt, halt⟩
    exact ih (hp.merge ha.1 hb.1 hlr _) (hlen.trans (List.length_append ▸ Nat.le_add_right _ _))
      (hd.append_internal hlen hchildren.1 hchildren.2 _)

/-- Each edge of a path leaves an internal node for an earlier one, and no internal node comes before the handle `d`. -/
theorem InternalsFrom.path_length {d : Nat} {nodes : List HufNode} (hd : InternalsFrom d nodes) {h : Nat} {p : Bits}
    {c : Word} (hp : HufPath nodes h p c) : p.length ≤ h + 1 - d := by
  induction hp with
  | leaf _ => exact Nat.zero_le _
  | left hn _ ih =>
    have hchild := hd _ _ _ _ hn
    rw [List.length_cons]
    omega
  | right hn _ ih =>
    have hchild := hd _ _ _ _ hn
    rw [List.length_cons]
    omega

/-- An arena with one handle left in the working collection has one internal node fewer than it has leaves. -/
theorem root_lt_of_handlesPlaced {nodes : List HufNode} {root : Nat} (hp : HandlesPlaced nodes [root]) :
    root + 1 < 2 * (leafSymbols nodes).length := by
  have hroot := hp.lt_of_mem (List.mem_singleton_self root)
  have hlen : (childHandles nodes).length + 1 = nodes.length := by simpa using hp.length_eq
  have hsize := childHandles_length nodes
  omega

/-- A path from the root of the tree built from a text has at most as many edges as the tree has internal nodes. -/
theorem hufBuild_path_length {text : List Word} {root : Nat} (hroot : (hufBuild text).root = some root) {p : Bits}
    {c : Word} (hp : HufPath (hufBuild text).nodes root p c) : p.length ≤ (hufFreq text).length - 1 := by
  have htext : text ≠ [] := by
    rintro rfl
    cases hroot
  obtain ⟨root', hroot', hm⟩ := hufBuild_anyMerges htext
  obtain rfl : root = root' := Option.some.inj (hroot.symm.trans hroot')
  have hplaced := handlesPlaced_hufLeaves text
  have hpath :=
    (anyMerges_internalsFrom hm hplaced le_rfl (internalsFrom_hufLeaves text)).path_length hp
  have hbound := root_lt_of_handlesPlaced (anyMerges_handlesPlaced hm hplaced)
  rw [anyMerges_leafSymbols_eq hm, leafSymbols_hufLeaves, List.length_map] at hbound
  rw [hufLeaves, List.length_map] at hpath
  omega

/-- A codeword of the assigned table is the codeword 0 of a lone leaf or the path from the root to its symbol (R101). -/
theorem hufAssign_codeword {t : HufTree} {c : Word} {p : Bits} (h : tableGet (hufAssign t) c = some p) :
    p = [false] ∨ ∃ root, t.root = some root ∧ HufPath t.nodes root p c := by
  cases hroot : t.root with
  | none =>
    rw [hufAssign_none hroot] at h
    cases h
  | some root =>
    cases hn : t.nodes[root]? with
    | none => simp [hufAssign, hroot, hn, hufWalk] at h
    | some n =>
      cases n with
      | leaf d k =>
        rw [hufAssign_leaf hroot hn, tableGet_eq_some (List.pairwise_singleton _ _), List.mem_singleton] at h
        cases h
        exact .inl rfl
      | internal k l r =>
        rw [hufAssign_internal hroot hn, tableGet_eq_some (hufWalk_sorted _ _ _ List.Pairwise.nil)] at h
        exact .inr ⟨root, rfl, hufPath_of_mem_hufWalk _ h⟩

theorem hufCode_length_le {text : List Word} {c : Word} {p : Bits}
    (h : tableGet (hufAssign (hufBuild text)) c = some p) : p.length ≤ max 1 ((hufFreq text).length - 1) := by
  rcases hufAssign_codeword h with rfl | ⟨root, hroot, hp⟩
  · exact le_max_left _ _
  · exact le_max_of_le_right (hufBuild_path_length hroot hp)

theorem valMax_eq : Config.valMax = 4294967295 := rfl

/-- Settles O29, codec by codec: the exact length, then its value at the greatest symbol and at the greatest ARG. -/
theorem codewordLengthBounds : Obligations.CodewordLengthBounds := by
  rw [Obligations.CodewordLengthBounds, valMax_eq]
  have hfib14 : Nat.fib (2 + 12) = 377 := by norm_num
  have hfib48 : Nat.fib (2 + 46) = 4807526976 := by norm_num
  refine ⟨fun n => ⟨grCode_length n, ?_⟩, fun n hn => ⟨egCode_length n, fun h => ?_, fun h => ?_⟩,
    fun n _ => ⟨fibCode_length n, fun h => ?_, fun h => ?_⟩, fun _ _ _ => hufCode_length_le⟩
  · rw [grCode_length]
    omega
  · exact egCode_length_le (k := 7) hn (by omega)
  · exact egCode_length_le (k := 31) hn (by omega)
  · exact fibCode_length_le (k := 12) (by omega)
  · exact fibCode_length_le (k := 46) (by omega)

end Sys2Proof.Machine
end

section
/-! PROOFS. The codewords in bits: what each codec's decoder gives on a codeword and whatever follows it (spec
40_golomb_rice.md R64, R65; 41_elias_gamma.md R74, R75; 42_fibonacci.md R84 to R88). -/

namespace Sys2Proof.Machine

/-! ### Golomb-Rice -/

/-- The decoder on `q` zeros, a 1 and three remainder bits (R64). -/
theorem grDecode1_layout (q : Nat) {r : Bits} (hr : r.length = 3) (t : Bits) :
    grDecode1 (zeros q ++ true :: (r ++ t)) = .ok (q * 8 + val r, q + 4) := by
  rw [grDecode1, unaryPrefix_zeros_true, except_bind_ok]
  simp only [List.drop_succ_cons, List.drop_zero, List.length_append]
  rw [if_neg (Nat.not_lt.mpr (hr ▸ Nat.le_add_right _ _)), List.take_left' hr]
  rfl

theorem grDecode1_grCode (n : Nat) (t : Bits) : grDecode1 (grCode n ++ t) = .ok (n, (grCode n).length) := by
  have hcode : grCode n ++ t = zeros (n / 8) ++ true :: (bin (n % 8) 3 ++ t) := by simp [grCode]
  rw [hcode, grDecode1_layout _ (bin_length _ _), val_bin (n % 8) 3 (Nat.mod_lt n (by decide)), Nat.div_add_mod',
    grCode_length]

/-- The bits end in the unary quotient. -/
theorem grDecode1_zeros (q : Nat) : grDecode1 (zeros q) = .error .malformedStream := by
  rw [grDecode1, unaryPrefix_zeros, except_bind_error]

/-- The bits end with fewer than three remainder bits. -/
theorem grDecode1_short (q : Nat) {r : Bits} (hr : r.length < 3) :
    grDecode1 (zeros q ++ true :: r) = .error .malformedStream := by
  rw [grDecode1, unaryPrefix_zeros_true, except_bind_ok]
  exact if_pos hr

/-! ### Elias-Gamma -/

/-- The binary form of a number of exactly `w + 1` bits begins with 1. -/
theorem bin_eq_true_cons {v w : Nat} (hle : 2 ^ w ≤ v) (hlt : v < 2 ^ (w + 1)) :
    ∃ u : Bits, bin v (w + 1) = true :: u := by
  induction w generalizing v with
  | zero =>
    obtain rfl : v = 1 := by omega
    exact ⟨[], rfl⟩
  | succ w ih =>
    rw [pow_succ] at hle hlt
    obtain ⟨u, hu⟩ := ih (v := v / 2) (by omega) (by omega)
    exact ⟨u ++ [v % 2 == 1], by rw [bin, hu, List.cons_append]⟩

/-- A positive number has `floor(log2 n) + 1` bits, the first of them 1 (R13). -/
theorem minbin_eq_true_cons {n : Nat} (hn : 1 ≤ n) : ∃ u : Bits, minbin n = true :: u :=
  bin_eq_true_cons (Nat.log2_self_le (Nat.ne_of_gt hn)) Nat.lt_log2_self

theorem val_minbin (n : Nat) : val (minbin n) = n := val_bin _ _ Nat.lt_log2_self

theorem minbin_length (n : Nat) : (minbin n).length = Nat.log2 n + 1 := bin_length _ _

/-- The decoder on `z` zeros, a 1 and `z` more bits (R74). -/
theorem egDecode1_layout (z : Nat) {u : Bits} (hu : u.length = z) (t : Bits) :
    egDecode1 (zeros z ++ true :: (u ++ t)) = .ok (val (true :: u), 2 * z + 1) := by
  have htake : (true :: (u ++ t)).take (z + 1) = true :: u := by
    rw [List.take_succ_cons, List.take_left' hu]
  rw [egDecode1, unaryPrefix_zeros_true, except_bind_ok]
  simp only [htake, List.length_cons, List.length_append]
  rw [if_neg (by omega), show z + (z + 1) = 2 * z + 1 by omega]
  rfl

theorem egDecode1_egCode {n : Nat} (hn : 1 ≤ n) (t : Bits) :
    egDecode1 (egCode n ++ t) = .ok (n, (egCode n).length) := by
  obtain ⟨u, hu⟩ := minbin_eq_true_cons hn
  have hlen : u.length = Nat.log2 n := by
    have h := minbin_length n
    rw [hu, List.length_cons] at h
    exact Nat.succ.inj h
  have hcode : egCode n ++ t = zeros (Nat.log2 n) ++ true :: (u ++ t) := by
    rw [egCode, minbin_length, hu]
    simp
  rw [hcode, egDecode1_layout _ hlen, ← hu, val_minbin, egCode_length]

/-! ### Fibonacci: the terms -/

/-- The first `k` Fibonacci terms 1, 2, 3, 5, ... (R83). -/
def fibTerms (k : Nat) : List Nat := (List.range k).map fun j => Nat.fib (j + 2)

@[simp] theorem fibTerms_length (k : Nat) : (fibTerms k).length = k := by simp [fibTerms]

theorem fibTerms_succ (k : Nat) : fibTerms (k + 1) = fibTerms k ++ [Nat.fib (k + 2)] := by
  simp [fibTerms, List.range_succ]

theorem fibTerms_prefix {k m : Nat} (h : k ≤ m) : fibTerms k <+: fibTerms m := by
  induction h with
  | refl => exact List.prefix_refl _
  | step _ ih => exact ih.trans (fibTerms_succ _ ▸ List.prefix_append _ _)

/-- The loop from the term `fib j` on lists the `k` terms that do not exceed the bound. -/
theorem fibGenLoop_eq_map {fuel max j k : Nat} (hfuel : k ≤ fuel) (hle : k = 0 ∨ Nat.fib (j + k - 1) ≤ max)
    (hlt : max < Nat.fib (j + k)) :
    fibGenLoop fuel max (Nat.fib j) (Nat.fib (j + 1)) = (List.range k).map fun i => Nat.fib (j + i) := by
  induction k generalizing fuel j with
  | zero => exact fibGenLoop_of_lt hlt
  | succ k ih =>
    obtain ⟨fuel, rfl⟩ : ∃ f, fuel = f + 1 := ⟨fuel - 1, by omega⟩
    have hle : Nat.fib (j + k) ≤ max := hle.resolve_left (Nat.succ_ne_zero k)
    have hj : Nat.fib j ≤ max := (Nat.fib_mono (Nat.le_add_right j k)).trans hle
    have htail := ih (fuel := fuel) (j := j + 1) (by omega) (.inr (by rwa [Nat.add_right_comm, Nat.add_sub_cancel]))
      (by rwa [Nat.add_right_comm])
    rw [fibGenLoop_of_le hj, ← Nat.fib_add_two, htail, List.range_succ_eq_map, List.map_cons, List.map_map,
      Nat.add_zero]
    refine congrArg (Nat.fib j :: ·) (List.map_congr_left fun i _ => ?_)
    show Nat.fib (j + 1 + i) = Nat.fib (j + (i + 1))
    rw [Nat.add_right_comm, Nat.add_assoc]

/-- FibGen lists the terms that do not exceed its bound (R83). -/
theorem fibList_eq_fibTerms {n k : Nat} (hle : k = 0 ∨ Nat.fib (k + 1) ≤ n) (hlt : n < Nat.fib (k + 2)) :
    fibList n = fibTerms k := by
  have hfuel : k ≤ n + 1 := by
    have := Nat.le_fib_add_one (k + 1)
    omega
  have hlist := fibGenLoop_eq_map (max := n) (j := 2) hfuel
    (hle.imp_right fun h => by rwa [show 2 + k - 1 = k + 1 by omega]) (by rwa [Nat.add_comm 2 k])
  exact hlist.trans (List.map_congr_left fun j _ => congrArg Nat.fib (Nat.add_comm 2 j))

theorem fibTable_eq_fibTerms : fibTable = fibTerms 46 :=
  fibList_eq_fibTerms (.inr (by norm_num)) (by norm_num)

/-- The number of terms that do not exceed a positive number. -/
theorem exists_fib_bounds {n : Nat} (hn : 1 ≤ n) : ∃ k, Nat.fib (k + 2) ≤ n ∧ n < Nat.fib (k + 3) := by
  have h2 : 2 ≤ Nat.greatestFib n := Nat.le_greatestFib.mpr hn
  obtain ⟨k, hk⟩ := Nat.exists_eq_add_of_le' h2
  exact ⟨k, hk ▸ Nat.fib_greatestFib_le n, by simpa only [hk] using Nat.lt_fib_greatestFib_add_one n⟩

/-! ### Fibonacci: the selection -/

/-- The greedy selection of `n` over the first `k` terms, smallest term first (R84). -/
def fibSelectOver (k n : Nat) : Bits := (greedySelect (fibTerms k).reverse n).reverse

theorem fibSelect_eq_fibSelectOver {n k : Nat} (h : fibList n = fibTerms k) : fibSelect n = fibSelectOver k n := by
  rw [fibSelect, h, fibSelectOver]

@[simp] theorem fibSelectOver_length (k n : Nat) : (fibSelectOver k n).length = k := by simp [fibSelectOver]

@[simp] theorem fibSelectOver_zero (n : Nat) : fibSelectOver 0 n = [] := rfl

/-- The greatest term is taken when it does not exceed the number. -/
theorem fibSelectOver_take {k n : Nat} (h : Nat.fib (k + 2) ≤ n) :
    fibSelectOver (k + 1) n = fibSelectOver k (n - Nat.fib (k + 2)) ++ [true] := by
  simp [fibSelectOver, fibTerms_succ, greedySelect, h]

theorem fibSelectOver_skip {k n : Nat} (h : n < Nat.fib (k + 2)) :
    fibSelectOver (k + 1) n = fibSelectOver k n ++ [false] := by
  simp [fibSelectOver, fibTerms_succ, greedySelect, Nat.not_le.mpr h]

/-- No two adjacent bits are both 1 (R85). -/
def NoAdjacentOnes (s : Bits) : Prop := s.IsChain fun a b => ¬ (a = true ∧ b = true)

/-- A number below its greatest term leaves that term's bit 0. -/
theorem fibSelectOver_getLast?_ne {k n : Nat} (h : n < Nat.fib (k + 1)) : (fibSelectOver k n).getLast? ≠ some true := by
  cases k with
  | zero => simp
  | succ k => simp [fibSelectOver_skip h]

/-- What is left after the greatest term is taken is below the term before it. -/
theorem sub_fib_lt {k n : Nat} (h : n < Nat.fib (k + 3)) : n - Nat.fib (k + 2) < Nat.fib (k + 1) := by
  have hfib : Nat.fib (k + 3) = Nat.fib (k + 1) + Nat.fib (k + 2) := Nat.fib_add_two
  have hpos : 0 < Nat.fib (k + 1) := Nat.fib_pos.mpr k.succ_pos
  omega

/-- What is left after the greatest term is taken is too small for the term before it. -/
theorem fibSelectOver_noAdjacentOnes {k n : Nat} (h : n < Nat.fib (k + 2)) : NoAdjacentOnes (fibSelectOver k n) := by
  induction k generalizing n with
  | zero => exact List.isChain_nil
  | succ k ih =>
    rcases le_or_gt (Nat.fib (k + 2)) n with hle | hlt
    · have hrest := sub_fib_lt h
      have hlast := fibSelectOver_getLast?_ne hrest
      rw [fibSelectOver_take hle]
      refine List.isChain_append.mpr
        ⟨ih (hrest.trans_le Nat.fib_le_fib_succ), List.isChain_singleton _, fun a ha b _ => ?_⟩
      rintro ⟨rfl, -⟩
      exact hlast ha
    · rw [fibSelectOver_skip hlt]
      refine List.isChain_append.mpr ⟨ih hlt, List.isChain_singleton _, fun a _ b hb => ?_⟩
      cases hb
      exact fun h => Bool.false_ne_true h.2

/-- A table that goes on after the selection's terms gives the same sum. -/
theorem fibSum_of_prefix {fs gs : List Nat} {sel : Bits} (h : fs <+: gs) (hlen : sel.length = fs.length) :
    fibSum gs sel = fibSum fs sel := by
  obtain ⟨hs, rfl⟩ := h
  have hzip (f : Nat → Bool → Nat) : List.zipWith f (fs ++ hs) sel = List.zipWith f fs sel := by
    simpa using List.zipWith_append (f := f) (l₁' := hs) (l₂' := []) hlen.symm
  rw [fibSum, fibSum, hzip]

theorem fibSum_concat {fs : List Nat} {sel : Bits} (hlen : sel.length = fs.length) (f : Nat) (b : Bool) :
    fibSum (fs ++ [f]) (sel ++ [b]) = fibSum fs sel + if b then f else 0 := by
  simp [fibSum, List.zipWith_append hlen.symm]

/-- The selected terms sum to the number (R84). -/
theorem fibSum_fibSelectOver {k n : Nat} (h : n < Nat.fib (k + 2)) : fibSum (fibTerms k) (fibSelectOver k n) = n := by
  induction k generalizing n with
  | zero =>
    have : n < 1 := h
    simp [fibSum]
    omega
  | succ k ih =>
    rw [fibTerms_succ]
    rcases le_or_gt (Nat.fib (k + 2)) n with hle | hlt
    · have hrest := (sub_fib_lt h).trans_le Nat.fib_le_fib_succ
      rw [fibSelectOver_take hle, fibSum_concat (by simp), ih hrest, if_pos rfl, Nat.sub_add_cancel hle]
    · rw [fibSelectOver_skip hlt, fibSum_concat (by simp), ih hlt]
      rfl

/-! ### Fibonacci: the codeword -/

/-- The scan stops at the first pair of adjacent ones: at the terminator after a selection that ends in 1 (R87). -/
theorem fibScan_selection {prev : Bool} {sel : Bits} (hchain : NoAdjacentOnes (prev :: sel))
    (hlast : (prev :: sel).getLast? = some true) (t : Bits) : fibScan prev (sel ++ true :: t) = .ok sel := by
  induction sel generalizing prev with
  | nil =>
    obtain rfl : prev = true := by simpa using hlast
    rfl
  | cons b sel ih =>
    obtain ⟨hpair, hchain⟩ := List.isChain_cons_cons.mp hchain
    rw [List.getLast?_cons_cons] at hlast
    rw [List.cons_append, fibScan, if_neg (by simpa using hpair), ih hchain hlast]
    rfl

/-- The decoder on a selection within the table, the terminator and whatever follows (R87). -/
theorem fibDecode1_selection {sel : Bits} (hchain : NoAdjacentOnes sel) (hlast : sel.getLast? = some true)
    (hlen : sel.length ≤ 46) (t : Bits) :
    fibDecode1 (sel ++ true :: t) = .ok (fibSum (fibTerms 46) sel, sel.length + 1) := by
  have hscan : fibScan false (sel ++ true :: t) = .ok sel := by
    refine fibScan_selection ?_ ?_ t
    · exact List.isChain_cons.mpr ⟨fun _ _ h => Bool.false_ne_true h.1, hchain⟩
    · rw [List.getLast?_cons, hlast]
      rfl
  rw [fibDecode1, hscan, except_bind_ok, fibTable_eq_fibTerms, fibTerms_length, if_neg (by omega)]
  rfl

theorem fibDecode1_fibCode {n : Nat} (hn : 1 ≤ n) (hmax : n ≤ Config.valMax) (t : Bits) :
    fibDecode1 (fibCode n ++ t) = .ok (n, (fibCode n).length) := by
  obtain ⟨k, hle, hlt⟩ := exists_fib_bounds hn
  have hsel : fibSelect n = fibSelectOver (k + 1) n := fibSelect_eq_fibSelectOver (fibList_eq_fibTerms (.inr hle) hlt)
  have hlen : k + 1 ≤ 46 := by
    by_contra hk
    have h48 : Nat.fib 48 ≤ Nat.fib (k + 2) := Nat.fib_mono (by omega)
    have hval : Nat.fib 48 = 4807526976 := by norm_num
    rw [valMax_eq] at hmax
    omega
  have hlast : (fibSelectOver (k + 1) n).getLast? = some true := by
    rw [fibSelectOver_take hle, List.getLast?_concat]
  rw [fibCode, List.append_assoc, List.singleton_append, hsel,
    fibDecode1_selection (fibSelectOver_noAdjacentOnes hlt) hlast (by simpa using hlen),
    fibSum_of_prefix (fibTerms_prefix hlen) (by simp), fibSum_fibSelectOver hlt, List.length_append,
    List.length_singleton]

end Sys2Proof.Machine
end

section
/-! PROOFS. The commands of one shape, for any codec (spec 30_encoding.md R47): what a single or a text command does,
from what the codec does on bits, and that decoding gives back what was encoded. -/

namespace Sys2Proof.Machine

open Sys2Proof.Safety

/-! ### How a command ends -/

theorem finish_ok_eq_okState (s : State) (o : List Word) (r : Word) (n : Nat) :
    s.finish (.ok { out := o, res := r, cnt := n }) = .next (okState s o r n) := rfl

/-- A command that leaves STATUS 0 completed: an error has a code other than 0 (R131). -/
theorem completes_of_status_zero {s t : State} {r : Except Err Completion} (h : s.finish r = .next t)
    (hok : t.status = 0) : ∃ c, r = .ok c ∧ t = s.complete c := by
  rcases finish_eq_next.mp h with hc | ⟨e, -, rfl⟩
  · exact hc
  · exact absurd hok e.code_ne_zero

theorem argPositive_eq_ok {s : State} {n : Nat} : argPositive s = .ok n ↔ n = s.arg.toNat ∧ 1 ≤ n := by
  rw [argPositive, argNat]
  split
  · simp only [reduceCtorEq, false_iff]
    omega
  · rw [Except.ok.injEq]
    omega

theorem bitWords_injective {a b : Bits} (h : bitWords a = bitWords b) : a = b :=
  Except.ok.inj (by rw [← checkBits_bitWords a, h, checkBits_bitWords])

theorem flatten_map_bitWords (bs : List Bits) : (bs.map bitWords).flatten = bitWords bs.flatten := by
  rw [bitWords, List.map_flatten]
  rfl

/-! ### A decoder and the layout it reads -/

/-- `w` is a codeword of the number `n` for the decoder `dec`, whatever bits follow it; a number RES cannot hold may be
malformed instead. -/
def ReadsNumber (dec : Bits → Except Err (Nat × Nat)) (n : Nat) (w : Bits) : Prop :=
  w ≠ [] ∧ ∀ t, dec (w ++ t) = .ok (n, w.length) ∨ (Config.valMax < n ∧ dec (w ++ t) = .error .malformedStream)

/-- The decoder reads the codewords of the layout `W` and refuses what is truncated (R56, R134). -/
structure ReadsLayout (dec : Bits → Except Err (Nat × Nat)) (W : Nat → List Word → Prop)
    (truncated : List Word → Prop) : Prop where
  codeword : ∀ {n : Nat} {w : List Word}, W n w → ∃ b, w = bitWords b ∧ ReadsNumber dec n b
  truncated : ∀ {b : Bits}, truncated (bitWords b) → b ≠ [] ∧ dec b = .error .malformedStream
  empty : dec [] = .error .malformedStream

theorem ReadsNumber.ok {dec : Bits → Except Err (Nat × Nat)} {n : Nat} {w : Bits} (hw : ReadsNumber dec n w)
    (hn : n ≤ Config.valMax) (t : Bits) : dec (w ++ t) = .ok (n, w.length) :=
  (hw.2 t).resolve_right fun h => absurd h.1 (Nat.not_lt.mpr hn)

theorem ReadsNumber.readsSymbol {dec : Bits → Except Err (Nat × Nat)} {c : Word} {w : Bits}
    (hw : ReadsNumber dec c.toNat w) (hc : c.toNat ≤ 255) : ReadsSymbol dec c w :=
  ⟨hw.1, hc, hw.ok (hc.trans (by decide))⟩

/-! ### The single commands -/

section Single

variable {i : Instr} {code : Nat → Bits} {dec : Bits → Except Err (Nat × Nat)} {W : Nat → List Word → Prop}
  {truncated : List Word → Prop} {lo : Nat}

theorem encodeOne_eq_ok {cap : Config.Capacity} {w : Bits} {c : Completion} (h : encodeOne cap w = .ok c) :
    c = { out := bitWords w } := by
  obtain ⟨o, ho, hc⟩ := except_bind_eq_ok.mp h
  rcases emitAll_cases cap [] (bitWords w) with ⟨h', -⟩ | ⟨h', -⟩ <;> rw [h'] at ho <;> cases ho
  cases hc
  rfl

/-- A command that emits the codeword of ARG encodes in the layout of its codewords (R66, R76, R90). -/
theorem encodesOne_of_code (hexec : ∀ s : State, lo ≤ s.arg.toNat →
      exec i s = s.finish (encodeOne s.maxOut (code s.arg.toNat)))
    (hcode : ∀ n, lo ≤ n → W n (bitWords (code n))) : EncodesOne i lo W := by
  intro s hs
  refine ⟨_, hcode _ hs, fun hfits => ?_, fun hfull => ?_⟩
  · rw [bitWords_length] at hfits
    rw [hexec s hs, encodeOne_ok hfits, finish_ok_eq_okState]
  · rw [bitWords_length] at hfull
    rw [hexec s hs, encodeOne_error hfull]
    rfl

/-- A single decode of IN as bits. -/
theorem exec_decodeOne (hexec : ∀ s : State, exec i s = s.finish (checkBits s.inp >>= decodeOne dec)) {s : State}
    {b : Bits} (hin : s.inp = bitWords b) : exec i s = s.finish (decodeOne dec b) := by
  rw [hexec, hin, checkBits_bitWords, except_bind_ok]

/-- A single decode of a codeword whose number fits RES, and whatever follows (R67, R77, R91). -/
theorem exec_decodeOne_codeword (hexec : ∀ s : State, exec i s = s.finish (checkBits s.inp >>= decodeOne dec))
    {s : State} {n : Nat} {w t : Bits} (hin : s.inp = bitWords (w ++ t)) (hdec : dec (w ++ t) = .ok (n, w.length))
    (hn : n ≤ Config.valMax) : exec i s = .next (okState s [] (BitVec.ofNat 32 n) w.length) := by
  rw [exec_decodeOne hexec hin, decodeOne_ok hdec hn, finish_ok_eq_okState]

theorem decodesOne_of_readsLayout (hexec : ∀ s : State, exec i s = s.finish (checkBits s.inp >>= decodeOne dec))
    (hlayout : ReadsLayout dec W truncated) : DecodesOne i W := by
  intro s n w rest hw hrest hin
  obtain ⟨b, rfl, hb⟩ := hlayout.codeword hw
  obtain ⟨t, rfl⟩ := exists_bitWords hrest
  rw [← bitWords_append] at hin
  refine ⟨fun hn => ?_, fun hn => ?_⟩
  · rw [bitWords_length]
    exact exec_decodeOne_codeword hexec hin (hb.ok hn t) hn
  · have hmalformed : decodeOne dec (b ++ t) = .error .malformedStream := by
      rcases hb.2 t with hdec | ⟨-, hdec⟩
      · exact decodeOne_large hdec hn
      · exact decodeOne_error hdec
    rw [exec_decodeOne hexec hin, hmalformed]
    rfl

theorem rejectsOne_of_readsLayout (hexec : ∀ s : State, exec i s = s.finish (checkBits s.inp >>= decodeOne dec))
    (hlayout : ReadsLayout dec W truncated) : RejectsOne i truncated := by
  have hstream : ∀ {s : State} {b : Bits}, s.inp = bitWords b → dec b = .error .malformedStream →
      exec i s = .next (errState s 2) := by
    intro s b hin hdec
    rw [exec_decodeOne hexec hin, decodeOne_error hdec]
    rfl
  rintro s (hbits | hnil | ⟨hbits, htrunc⟩)
  · rw [hexec, checkBits_not_bits hbits]
    rfl
  · exact hstream (b := []) hnil hlayout.empty
  · obtain ⟨b, hin⟩ := exists_bitWords hbits
    exact hstream hin (hlayout.truncated (hin ▸ htrunc)).2

end Single

/-- After a single encode that emitted the codeword `w` of ARG, the single decode of OUT gives ARG back. -/
theorem singleDecode_of_encodeOne {d : Instr} {dec : Bits → Except Err (Nat × Nat)}
    (hexec : ∀ s : State, exec d s = s.finish (checkBits s.inp >>= decodeOne dec)) {s : State} {w : Bits}
    {c : Completion} (hc : encodeOne s.maxOut w = .ok c) (hdec : ∀ t, dec (w ++ t) = .ok (s.arg.toNat, w.length)) :
    exec d { s.complete c with inp := c.out } =
      .next (okState { s.complete c with inp := c.out } [] s.arg c.out.length) := by
  obtain rfl := encodeOne_eq_ok hc
  rw [exec_decodeOne_codeword hexec (t := []) (by rw [List.append_nil]) (hdec []) (Nat.le_sub_one_of_lt s.arg.isLt),
    BitVec.ofNat_toNat, BitVec.setWidth_eq, bitWords_length]

/-- The same for a codec that codes the positive numbers. -/
theorem singleDecode_of_positiveEncode {e d : Instr} {code : Nat → Bits} {dec : Bits → Except Err (Nat × Nat)}
    (hencode : ∀ s : State, exec e s = s.finish (argPositive s >>= fun n => encodeOne s.maxOut (code n)))
    (hdecode : ∀ s : State, exec d s = s.finish (checkBits s.inp >>= decodeOne dec))
    (hcode : ∀ {n : Nat}, 1 ≤ n → n ≤ Config.valMax → ∀ t, dec (code n ++ t) = .ok (n, (code n).length)) {s t : State}
    (h : exec e s = .next t) (hok : t.status = 0) :
    exec d { t with inp := t.out } = .next (okState { t with inp := t.out } [] s.arg t.out.length) := by
  obtain ⟨c, hc, rfl⟩ := completes_of_status_zero ((hencode s).symm.trans h) hok
  obtain ⟨n, hn, hc⟩ := except_bind_eq_ok.mp hc
  obtain ⟨rfl, hpos⟩ := argPositive_eq_ok.mp hn
  exact singleDecode_of_encodeOne hdecode hc (hcode hpos (Nat.le_sub_one_of_lt s.arg.isLt))

/-! ### The text commands -/

section Text

variable {i : Instr} {code : Word → Except Err Bits} {dec : Bits → Except Err (Nat × Nat)}
  {W : Nat → List Word → Prop} {truncated : List Word → Prop} {lo : Nat} {cap : Config.Capacity}

/-- A text encode that completes emitted a codeword for each symbol. -/
theorem encodeLoop_eq_ok {o o' text : List Word} (h : encodeLoop cap code o text = .ok o') :
    ∃ ws, List.Forall₂ (fun c w => code c = .ok w) text ws ∧ o' = o ++ bitWords ws.flatten := by
  induction text generalizing o with
  | nil =>
    cases h
    exact ⟨[], .nil, (List.append_nil _).symm⟩
  | cons c text ih =>
    obtain ⟨w, hw, h⟩ := except_bind_eq_ok.mp h
    obtain ⟨o1, ho1, h⟩ := except_bind_eq_ok.mp h
    obtain ⟨ws, hws, rfl⟩ := ih h
    rcases emitAll_cases cap o (bitWords w) with ⟨h', -⟩ | ⟨h', -⟩ <;> rw [h'] at ho1 <;> cases ho1
    exact ⟨w :: ws, .cons hw hws, by rw [List.flatten_cons, bitWords_append, List.append_assoc]⟩

theorem encodeText_ok {text : List Word} {ws : List Bits} (hws : List.Forall₂ (fun c w => code c = .ok w) text ws)
    (h : Holds cap ws.flatten.length) : encodeText cap code text = .ok { out := bitWords ws.flatten } := by
  rw [encodeText, encodeLoop_ok hws (by simpa using h)]
  rfl

theorem encodeText_overflow {text : List Word} {ws : List Bits}
    (hws : List.Forall₂ (fun c w => code c = .ok w) text ws) (h : ¬ Holds cap ws.flatten.length) :
    encodeText cap code text = .error .capacityExceeded := by
  have hloop := encodeLoop_overflow (post := []) hws (holds_nil cap) (by simpa using h)
  rw [List.append_nil] at hloop
  rw [encodeText, hloop]
  rfl

theorem encodeText_eq_ok {text : List Word} {c : Completion} (h : encodeText cap code text = .ok c) :
    ∃ ws, List.Forall₂ (fun c w => code c = .ok w) text ws ∧ c = { out := bitWords ws.flatten } ∧
      Holds cap ws.flatten.length := by
  obtain ⟨o, ho, hc⟩ := except_bind_eq_ok.mp h
  obtain ⟨ws, hws, rfl⟩ := encodeLoop_eq_ok ho
  cases hc
  refine ⟨ws, hws, rfl, ?_⟩
  by_contra hfull
  rw [encodeText_overflow hws hfull] at h
  cases h

/-- The codewords of a text in the codec's range, in bits and in the layout. -/
theorem exists_codewords (hcode : ∀ c : Word, lo ≤ c.toNat → ∃ w, code c = .ok w ∧ W c.toNat (bitWords w))
    {text : List Word} (htext : TextIn lo text) :
    ∃ ws, List.Forall₂ (fun c w => code c = .ok w) text ws ∧ TextWords W text (ws.map bitWords) := by
  induction text with
  | nil => exact ⟨[], .nil, .nil⟩
  | cons c text ih =>
    obtain ⟨⟨hlo, -⟩, htext⟩ := List.forall_mem_cons.mp htext
    obtain ⟨w, hw, hlayout⟩ := hcode c hlo
    obtain ⟨ws, hws, hlayouts⟩ := ih htext
    exact ⟨w :: ws, .cons hw hws, .cons hlayout hlayouts⟩

/-- A command that emits the codeword of each symbol encodes the text in the layout of its codewords (R68, R78, R92). -/
theorem encodesText_of_code
    (hexec : ∀ s : State, exec i s = s.finish (checkText s.inp >>= encodeText s.maxOut code))
    (hcode : ∀ c : Word, lo ≤ c.toNat → ∃ w, code c = .ok w ∧ W c.toNat (bitWords w)) : EncodesText i lo W := by
  intro s htext
  obtain ⟨ws, hws, hlayouts⟩ := exists_codewords hcode htext
  have hin : exec i s = s.finish (encodeText s.maxOut code s.inp) := by
    rw [hexec, checkText_ok fun c hc => (htext c hc).2, except_bind_ok]
  refine ⟨ws.map bitWords, hlayouts, ?_⟩
  rw [flatten_map_bitWords, bitWords_length, hin]
  refine ⟨fun hfits => ?_, fun hfull => ?_⟩
  · rw [encodeText_ok hws hfits, finish_ok_eq_okState]
  · rw [encodeText_overflow hws hfull]
    rfl

theorem rejectsLargeSymbol_of_checkText {f : State → List Word → Except Err Completion}
    (hexec : ∀ s : State, exec i s = s.finish (checkText s.inp >>= f s)) : RejectsLargeSymbol i := by
  intro s hlarge
  rw [hexec, checkText_error hlarge]
  rfl

/-- A text decode of the codewords of a text that fits OUT. -/
theorem decodeText_ok {text : List Word} {ws : List Bits} (hws : List.Forall₂ (ReadsSymbol dec) text ws)
    (h : Holds cap text.length) : decodeText cap dec ws.flatten = .ok { out := text } := by
  obtain ⟨fuel, -, hloop⟩ := decodeLoop_text (o := []) (rest := []) hws (by simpa using h) le_rfl
  rw [List.append_nil] at hloop
  rw [decodeText, hloop, decodeLoop_nil]
  rfl

theorem decodeText_overflow {text : List Word} {ws : List Bits} (hws : List.Forall₂ (ReadsSymbol dec) text ws)
    (h : ¬ Holds cap text.length) (rest : Bits) :
    decodeText cap dec (ws.flatten ++ rest) = .error .capacityExceeded := by
  rw [decodeText, decodeLoop_overflow hws (holds_nil cap) (by simpa using h) le_rfl]
  rfl

/-- The bits begin with no codeword of a symbol: a codeword of a greater value, or none at all. -/
def StartsMalformed (dec : Bits → Except Err (Nat × Nat)) (s : Bits) : Prop :=
  s ≠ [] ∧ (dec s = .error .malformedStream ∨ ∃ v n, dec s = .ok (v, n) ∧ 255 < v)

/-- A text decode that comes, after a text that fits OUT, to bits that begin with no codeword of a symbol. -/
theorem decodeText_malformed {text : List Word} {ws : List Bits} {rest : Bits}
    (hws : List.Forall₂ (ReadsSymbol dec) text ws) (h : Holds cap text.length) (hrest : StartsMalformed dec rest) :
    decodeText cap dec (ws.flatten ++ rest) = .error .malformedStream := by
  obtain ⟨fuel, hfuel, hloop⟩ := decodeLoop_text (o := []) hws (by simpa using h) (le_refl (ws.flatten ++ rest).length)
  have hmalformed : ∀ o, decodeLoop cap dec fuel o rest = .error .malformedStream := by
    obtain ⟨hne, hdec | ⟨v, n, hdec, hv⟩⟩ := hrest
    · exact fun _ => decodeLoop_error hne hdec hfuel
    · exact fun _ => decodeLoop_large hne hdec hv hfuel
  rw [decodeText, hloop, hmalformed]
  rfl

/-- The layouts of a text's symbols are codewords the decoder reads. -/
theorem ReadsLayout.textWords (hlayout : ReadsLayout dec W truncated) {text : List Word} {ws : List (List Word)}
    (htext : TextIn lo text) (hws : TextWords W text ws) :
    ∃ bs, ws.flatten = bitWords bs.flatten ∧ List.Forall₂ (ReadsSymbol dec) text bs := by
  induction hws with
  | nil => exact ⟨[], rfl, .nil⟩
  | cons hw _ ih =>
    obtain ⟨⟨-, hc⟩, htext⟩ := List.forall_mem_cons.mp htext
    obtain ⟨b, rfl, hb⟩ := hlayout.codeword hw
    obtain ⟨bs, hbs, hread⟩ := ih htext
    exact ⟨b :: bs, by rw [List.flatten_cons, List.flatten_cons, hbs, bitWords_append],
      .cons (hb.readsSymbol hc) hread⟩

theorem ReadsLayout.startsMalformed (hlayout : ReadsLayout dec W truncated) {rest : Bits}
    (h : truncated (bitWords rest) ∨ ∃ n w t, 255 < n ∧ W n w ∧ bitWords rest = w ++ t) : StartsMalformed dec rest := by
  rcases h with htrunc | ⟨n, w, t, hn, hw, hrest⟩
  · obtain ⟨hne, hdec⟩ := hlayout.truncated htrunc
    exact ⟨hne, .inl hdec⟩
  · obtain ⟨b, rfl, hb⟩ := hlayout.codeword hw
    obtain ⟨t, rfl⟩ : ∃ u, t = bitWords u :=
      exists_bitWords fun e he => isBits_bitWords rest e (hrest ▸ List.mem_append_right _ he)
    obtain rfl : rest = b ++ t := bitWords_injective (by rw [hrest, bitWords_append])
    refine ⟨List.append_ne_nil_of_left_ne_nil hb.1 t, ?_⟩
    rcases hb.2 t with hdec | ⟨-, hdec⟩
    · exact .inr ⟨n, _, hdec, hn⟩
    · exact .inl hdec

/-- A text decode of IN as bits. -/
theorem exec_decodeText
    (hexec : ∀ s : State, exec i s = s.finish (checkBits s.inp >>= decodeText s.maxOut dec)) {s : State} {b : Bits}
    (hin : s.inp = bitWords b) : exec i s = s.finish (decodeText s.maxOut dec b) := by
  rw [hexec, hin, checkBits_bitWords, except_bind_ok]

/-- A text decode of the codewords of a text that fits OUT (R69, R79, R93). -/
theorem exec_decodeText_codewords
    (hexec : ∀ s : State, exec i s = s.finish (checkBits s.inp >>= decodeText s.maxOut dec)) {s : State}
    {text : List Word} {ws : List Bits} (hin : s.inp = bitWords ws.flatten)
    (hws : List.Forall₂ (ReadsSymbol dec) text ws) (hfits : Fits s text.length) :
    exec i s = .next (okState s text 0 0) := by
  rw [exec_decodeText hexec hin, decodeText_ok hws hfits, finish_ok_eq_okState]

theorem decodesText_of_readsLayout
    (hexec : ∀ s : State, exec i s = s.finish (checkBits s.inp >>= decodeText s.maxOut dec))
    (hlayout : ReadsLayout dec W truncated) : DecodesText i lo W := by
  intro s text ws htext hws hin
  obtain ⟨bs, hbs, hread⟩ := hlayout.textWords htext hws
  refine ⟨exec_decodeText_codewords hexec (hin.trans hbs) hread, fun hfull => ?_⟩
  rw [exec_decodeText hexec (hin.trans hbs), ← List.append_nil bs.flatten, decodeText_overflow hread hfull]
  rfl

theorem rejectsText_of_readsLayout
    (hexec : ∀ s : State, exec i s = s.finish (checkBits s.inp >>= decodeText s.maxOut dec))
    (hlayout : ReadsLayout dec W truncated) : RejectsText i lo W truncated := by
  refine ⟨fun s hbits => ?_, fun s text ws rest htext hws hin hrest hbad => ?_⟩
  · rw [hexec, checkBits_not_bits hbits]
    rfl
  · obtain ⟨bs, hbs, hread⟩ := hlayout.textWords htext hws
    obtain ⟨t, rfl⟩ := exists_bitWords hrest
    rw [hbs, ← bitWords_append] at hin
    rw [exec_decodeText hexec hin]
    refine ⟨fun hfits => ?_, fun hfull => ?_⟩
    · rw [decodeText_malformed hread hfits (hlayout.startsMalformed hbad)]
      rfl
    · rw [decodeText_overflow hread hfull]
      rfl

/-- A text has at most as many symbols as its codewords have bits. -/
theorem length_le_codewords {text : List Word} {ws : List Bits} (hws : List.Forall₂ (ReadsSymbol dec) text ws) :
    text.length ≤ ws.flatten.length := by
  induction hws with
  | nil => exact le_rfl
  | cons hw _ ih =>
    have hpos := List.length_pos_iff.mpr hw.1
    rw [List.flatten_cons, List.length_append, List.length_cons]
    omega

end Text

/-- After a text encode that completed, the text decode of OUT gives the text back: it is no longer than the codewords,
which fitted OUT. -/
theorem textDecode_of_textEncode {e d : Instr} {code : Word → Except Err Bits} {dec : Bits → Except Err (Nat × Nat)}
    (hencode : ∀ s : State, exec e s = s.finish (checkText s.inp >>= encodeText s.maxOut code))
    (hdecode : ∀ s : State, exec d s = s.finish (checkBits s.inp >>= decodeText s.maxOut dec))
    (hcode : ∀ {c : Word} {w : Bits}, c.toNat ≤ 255 → code c = .ok w → ReadsSymbol dec c w) {s t : State}
    (h : exec e s = .next t) (hok : t.status = 0) :
    exec d { t with inp := t.out } = .next (okState { t with inp := t.out } s.inp 0 0) := by
  obtain ⟨c, hc, rfl⟩ := completes_of_status_zero ((hencode s).symm.trans h) hok
  obtain ⟨x, hx, hc⟩ := except_bind_eq_ok.mp hc
  obtain ⟨rfl, htext⟩ := checkText_eq_ok.mp hx
  obtain ⟨ws, hws, rfl, hfits⟩ := encodeText_eq_ok hc
  have hread : List.Forall₂ (ReadsSymbol dec) s.inp ws :=
    ((List.forall₂_and_left s.inp ws).mpr ⟨htext, hws⟩).imp fun _ _ h => hcode h.1 h.2
  exact exec_decodeText_codewords hdecode rfl hread (holds_mono hfits (length_le_codewords hread))

end Sys2Proof.Machine
end

section
/-! PROOFS. The Golomb-Rice commands (spec 40_golomb_rice.md R65 to R69), and encoding then decoding at the unit's
interface for the three codecs (spec 40_golomb_rice.md R65; 41_elias_gamma.md R75; 42_fibonacci.md R88). -/

namespace Sys2Proof.Machine

open Sys2Proof.Safety

/-! ### The codeword law (O25) -/

/-- Settles O25: the first codeword's law with the second codeword, then with nothing, after it. -/
theorem grCodewordRoundTrip : Obligations.GrCodewordRoundTrip := by
  refine ⟨grDecode1_grCode, fun n1 n2 => ⟨_, _, grDecode1_grCode n1 _, ?_, List.length_append.symm⟩⟩
  rw [List.drop_left]
  simpa using grDecode1_grCode n2 []

/-! ### The layout of the codewords (R50) -/

theorem bitWords_zeros (k : Nat) : bitWords (zeros k) = List.replicate k 0 := by
  rw [bitWords, zeros, List.map_replicate]
  rfl

/-- The lowest bit of a number as an element of OUT. -/
theorem bitWord_mod_two (v : Nat) : bitWord (v % 2 == 1) = BitVec.ofNat 32 (v % 2) := by
  rcases Nat.mod_two_eq_zero_or_one v with h | h <;> rw [h] <;> rfl

theorem bitWords_grCode (n : Nat) : bitWords (grCode n) = grWord n := by
  have hremainder : bitWords (bin (n % 8) 3) =
      [BitVec.ofNat 32 (n / 4 % 2), BitVec.ofNat 32 (n / 2 % 2), BitVec.ofNat 32 (n % 2)] := by
    have h4 : n % 8 / 2 / 2 % 2 = n / 4 % 2 := by omega
    have h2 : n % 8 / 2 % 2 = n / 2 % 2 := by omega
    have h1 : n % 8 % 2 = n % 2 := by omega
    simp only [bin, bitWords, List.nil_append, List.cons_append, List.map_cons, List.map_nil, bitWord_mod_two, h4, h2,
      h1]
  rw [grCode, bitWords_append, bitWords_append, bitWords_zeros, hremainder, grWord, List.append_assoc]
  rfl

/-- A bit sequence whose elements begin with `q` zeros and a 1. -/
theorem eq_zeros_true_of_bitWords {b : Bits} {q : Nat} {r : List Word}
    (h : bitWords b = List.replicate q 0 ++ 1 :: r) : ∃ t : Bits, r = bitWords t ∧ b = zeros q ++ true :: t := by
  have hr : IsBits r := fun e he =>
    isBits_bitWords b e (h ▸ List.mem_append_right _ (List.mem_cons_of_mem _ he))
  obtain ⟨t, rfl⟩ := exists_bitWords hr
  refine ⟨t, rfl, bitWords_injective ?_⟩
  rw [h, bitWords_append, bitWords_zeros]
  rfl

/-- Bits that end inside a codeword cannot be read, whether they end in its quotient or in its remainder (R134). -/
theorem grDecode1_truncated {b : Bits} (h : GrTruncated (bitWords b)) :
    b ≠ [] ∧ grDecode1 b = .error .malformedStream := by
  rcases h with ⟨q, hq⟩ | ⟨q, r, hq, hr⟩
  · obtain rfl : b = zeros (q + 1) := bitWords_injective (by rw [hq, bitWords_zeros])
    exact ⟨List.cons_ne_nil _ _, grDecode1_zeros _⟩
  · obtain ⟨t, rfl, rfl⟩ := eq_zeros_true_of_bitWords hq
    exact ⟨by simp, grDecode1_short q (by simpa using hr)⟩

theorem grCode_ne_nil (n : Nat) : grCode n ≠ [] :=
  List.ne_nil_of_length_pos (by rw [grCode_length]; omega)

theorem grReadsLayout : ReadsLayout grDecode1 GrWord GrTruncated where
  codeword := fun {n} {_} hw =>
    ⟨grCode n, hw.trans (bitWords_grCode n).symm, grCode_ne_nil n, fun t => .inl (grDecode1_grCode n t)⟩
  truncated := grDecode1_truncated
  empty := grDecode1_zeros 0

/-! ### The commands (O9 to O12) -/

/-- Settles O9, from the layout of the codewords. -/
theorem grEncCommand : Obligations.GrEncCommand :=
  ⟨decode_encode .grEnc, encodesOne_of_code (fun _ _ => rfl) fun n _ => bitWords_grCode n⟩

/-- Settles O10: the decoder reads the layout of the codewords and refuses what is truncated. -/
theorem grDecCommand : Obligations.GrDecCommand :=
  ⟨decode_encode .grDec, decodesOne_of_readsLayout (fun _ => rfl) grReadsLayout,
    rejectsOne_of_readsLayout (fun _ => rfl) grReadsLayout⟩

/-- Settles O11: every symbol has a codeword, and CheckText comes first. -/
theorem grEnctCommand : Obligations.GrEnctCommand :=
  ⟨decode_encode .grEnct, encodesText_of_code (fun _ => rfl) fun c _ => ⟨_, rfl, bitWords_grCode c.toNat⟩,
    rejectsLargeSymbol_of_checkText fun _ => rfl⟩

/-- Settles O12: the decoder reads the layout of each codeword, and the first failure decides. -/
theorem grDectCommand : Obligations.GrDectCommand :=
  ⟨decode_encode .grDect, decodesText_of_readsLayout (fun _ => rfl) grReadsLayout,
    rejectsText_of_readsLayout (fun _ => rfl) grReadsLayout⟩

/-! ### Encoding then decoding (O30, O31) -/

/-- Settles O30: each codec's decoder reads back the codeword of any ARG its encoder accepts. -/
theorem singleEncodeDecodeReturnsArg : Obligations.SingleEncodeDecodeReturnsArg := by
  intro e d hed s t h hok
  simp only [List.mem_cons, List.not_mem_nil, or_false, Prod.mk.injEq] at hed
  rcases hed with ⟨rfl, rfl⟩ | ⟨rfl, rfl⟩ | ⟨rfl, rfl⟩
  · obtain ⟨c, hc, rfl⟩ := completes_of_status_zero h hok
    exact singleDecode_of_encodeOne (fun _ => rfl) hc (grDecode1_grCode _)
  · exact singleDecode_of_positiveEncode (fun _ => rfl) (fun _ => rfl) (fun hn _ => egDecode1_egCode hn) h hok
  · exact singleDecode_of_positiveEncode (fun _ => rfl) (fun _ => rfl) fibDecode1_fibCode h hok

/-- The codeword of a symbol in a codec that has none for 0. -/
theorem positiveSymbol_eq_ok {code : Nat → Bits} {c : Word} {w : Bits} :
    (if c.toNat = 0 then .error .invalidInput else .ok (code c.toNat) : Except Err Bits) = .ok w ↔
      1 ≤ c.toNat ∧ w = code c.toNat := by
  split
  · simp only [reduceCtorEq, false_iff]
    omega
  · rw [Except.ok.injEq, eq_comm]
    exact (and_iff_right (by omega)).symm

theorem egSymbol_eq_ok {c : Word} {w : Bits} : egSymbol c = .ok w ↔ 1 ≤ c.toNat ∧ w = egCode c.toNat :=
  positiveSymbol_eq_ok

theorem fibSymbol_eq_ok {c : Word} {w : Bits} : fibSymbol c = .ok w ↔ 1 ≤ c.toNat ∧ w = fibCode c.toNat :=
  positiveSymbol_eq_ok

theorem egCode_ne_nil (n : Nat) : egCode n ≠ [] :=
  List.ne_nil_of_length_pos (by rw [egCode_length]; omega)

theorem fibCode_ne_nil (n : Nat) : fibCode n ≠ [] :=
  List.ne_nil_of_length_pos (by rw [fibCode_length]; omega)

theorem grCode_readsSymbol {c : Word} (hc : c.toNat ≤ 255) : ReadsSymbol grDecode1 c (grCode c.toNat) :=
  ⟨grCode_ne_nil _, hc, grDecode1_grCode _⟩

theorem egSymbol_readsSymbol {c : Word} {w : Bits} (hc : c.toNat ≤ 255) (h : egSymbol c = .ok w) :
    ReadsSymbol egDecode1 c w := by
  obtain ⟨hpos, rfl⟩ := egSymbol_eq_ok.mp h
  exact ⟨egCode_ne_nil _, hc, egDecode1_egCode hpos⟩

theorem fibSymbol_readsSymbol {c : Word} {w : Bits} (hc : c.toNat ≤ 255) (h : fibSymbol c = .ok w) :
    ReadsSymbol fibDecode1 c w := by
  obtain ⟨hpos, rfl⟩ := fibSymbol_eq_ok.mp h
  exact ⟨fibCode_ne_nil _, hc, fibDecode1_fibCode hpos (hc.trans (by decide))⟩

/-- Settles O31: each codec's decoder reads back the codeword of any symbol its text encoder accepts. -/
theorem textEncodeDecodeReturnsText : Obligations.TextEncodeDecodeReturnsText := by
  intro e d hed s t h hok
  simp only [List.mem_cons, List.not_mem_nil, or_false, Prod.mk.injEq] at hed
  rcases hed with ⟨rfl, rfl⟩ | ⟨rfl, rfl⟩ | ⟨rfl, rfl⟩
  · refine textDecode_of_textEncode (fun _ => rfl) (fun _ => rfl) (fun hc hw => ?_) h hok
    cases hw
    exact grCode_readsSymbol hc
  · exact textDecode_of_textEncode (fun _ => rfl) (fun _ => rfl) egSymbol_readsSymbol h hok
  · exact textDecode_of_textEncode (fun _ => rfl) (fun _ => rfl) fibSymbol_readsSymbol h hok

end Sys2Proof.Machine
end

section
/-! PROOFS. The encoders of a codec with no codeword for 0 (spec 41_elias_gamma.md R76, R78; 42_fibonacci.md R90, R92),
and the Elias-Gamma commands (spec 41_elias_gamma.md R73 to R79). -/

namespace Sys2Proof.Machine

open Sys2Proof.Safety

/-! ### Encoders of the positive numbers, for any codec -/

section Positive

variable {i : Instr} {W : Nat → List Word → Prop}

theorem argPositive_zero {s : State} (h : s.arg = 0) : argPositive s = .error .invalidInput :=
  if_pos (congrArg BitVec.toNat h)

/-- A single encode that asks for a positive ARG encodes each of them in the layout of its codewords (R76, R90). -/
theorem encodesOne_of_positive {code : Nat → Bits}
    (hexec : ∀ s : State, exec i s = s.finish (argPositive s >>= fun n => encodeOne s.maxOut (code n)))
    (hcode : ∀ n, 1 ≤ n → W n (bitWords (code n))) : EncodesOne i 1 W := by
  refine encodesOne_of_code (fun s hs => ?_) hcode
  rw [hexec, argPositive_eq_ok.mpr ⟨rfl, hs⟩, except_bind_ok]

theorem exec_positiveEncode_zero {f : State → Nat → Except Err Completion}
    (hexec : ∀ s : State, exec i s = s.finish (argPositive s >>= f s)) {s : State} (h : s.arg = 0) :
    exec i s = .next (errState s 1) := by
  rw [hexec, argPositive_zero h]
  rfl

variable {code : Word → Except Err Bits}

/-- The layouts of a text's symbols are the codewords the encoder emits for them. -/
theorem codewords_of_textWords
    (hcode : ∀ {c : Word} {w : List Word}, W c.toNat w → ∃ b, code c = .ok b ∧ w = bitWords b)
    {text : List Word} {ws : List (List Word)} (hws : TextWords W text ws) :
    ∃ bs, List.Forall₂ (fun c b => code c = .ok b) text bs ∧ ws.flatten = bitWords bs.flatten := by
  induction hws with
  | nil => exact ⟨[], .nil, rfl⟩
  | cons hw _ ih =>
    obtain ⟨b, hb, rfl⟩ := hcode hw
    obtain ⟨bs, hbs, hflatten⟩ := ih
    exact ⟨b :: bs, .cons hb hbs, by rw [List.flatten_cons, List.flatten_cons, hflatten, bitWords_append]⟩

/-- A text encode that comes to a symbol with no codeword: the symbol's error, unless the codewords before it overflow
OUT first (R141). -/
theorem encodeText_symbol_error {cap : Config.Capacity} {pre post : List Word} {ws : List Bits} {c : Word} {e : Err}
    (hws : List.Forall₂ (fun c w => code c = .ok w) pre ws) (hc : code c = .error e) :
    (Holds cap ws.flatten.length → encodeText cap code (pre ++ c :: post) = .error e) ∧
    (¬ Holds cap ws.flatten.length → encodeText cap code (pre ++ c :: post) = .error .capacityExceeded) := by
  refine ⟨fun hfits => ?_, fun hfull => ?_⟩
  · rw [encodeText, encodeLoop_symbol_error hws hc (by simpa using hfits)]
    rfl
  · rw [encodeText, encodeLoop_overflow hws (holds_nil cap) (by simpa using hfull)]
    rfl

/-- A text encode by a codec with no codeword for 0 (R78, R92). -/
theorem rejectsZeroSymbol_of_code
    (hexec : ∀ s : State, exec i s = s.finish (checkText s.inp >>= encodeText s.maxOut code))
    (hzero : code 0 = .error .invalidInput)
    (hcode : ∀ {c : Word} {w : List Word}, W c.toNat w → ∃ b, code c = .ok b ∧ w = bitWords b) :
    RejectsZeroSymbol i W := by
  intro s pre post ws hin hpre hpost hws
  obtain ⟨bs, hbs, hflatten⟩ := codewords_of_textWords hcode hws
  have htext : ∀ c ∈ s.inp, c.toNat ≤ 255 := by
    rw [hin, List.forall_mem_append, List.forall_mem_cons]
    exact ⟨fun c hc => (hpre c hc).2, by decide, fun c hc => (hpost c hc).2⟩
  obtain ⟨hsymbol, hoverflow⟩ := encodeText_symbol_error (cap := s.maxOut) (post := post) hbs hzero
  rw [hexec, checkText_ok htext, except_bind_ok, hin, hflatten, bitWords_length]
  refine ⟨fun hfits => ?_, fun hfull => ?_⟩
  · rw [hsymbol hfits]
    rfl
  · rw [hoverflow hfull]
    rfl

end Positive

/-! ### What the Elias-Gamma decoder reads (R74) -/

/-- The bits end in the zero prefix. -/
theorem egDecode1_zeros (z : Nat) : egDecode1 (zeros z) = .error .malformedStream := by
  rw [egDecode1, unaryPrefix_zeros, except_bind_error]

/-- The bits end with fewer bits after the first 1 than there are zeros before it. -/
theorem egDecode1_short {z : Nat} {t : Bits} (ht : t.length < z) :
    egDecode1 (zeros z ++ true :: t) = .error .malformedStream := by
  rw [egDecode1, unaryPrefix_zeros_true, except_bind_ok]
  exact if_pos (Nat.succ_lt_succ ht)

/-- What the decoder reads begins with a 1, so it is never 0. -/
theorem egDecode1_pos {s : Bits} {v l : Nat} (h : egDecode1 s = .ok (v, l)) : 1 ≤ v := by
  obtain ⟨⟨z, u⟩, hscan, hread⟩ := except_bind_eq_ok.mp h
  obtain ⟨t, rfl, -⟩ := unaryPrefix_eq_ok.mp hscan
  simp only at hread
  split at hread
  · cases hread
  · cases hread
    exact val_cons_true_pos _

/-! ### The codeword law (O26) -/

/-- Settles O26: the first codeword's law with the second codeword, then with nothing, after it. -/
theorem egCodewordRoundTrip : Obligations.EgCodewordRoundTrip := by
  refine ⟨fun n t hn => ?_, fun _ _ _ h => egDecode1_pos h, fun n1 n2 h1 h2 =>
    ⟨_, _, egDecode1_egCode h1 _, ?_, List.length_append.symm⟩⟩
  · rw [egDecode1_egCode hn, egCode_length]
  · rw [List.drop_left]
    simpa using egDecode1_egCode h2 []

/-! ### The layout of the codewords (R51) -/

/-- The binary form of `v` in `k + 1` bits, highest bit first, as elements of OUT. -/
theorem bitWords_bin (v k : Nat) :
    bitWords (bin v (k + 1)) = (List.range (k + 1)).map fun j => BitVec.ofNat 32 (v / 2 ^ (k - j) % 2) := by
  induction k generalizing v with
  | zero => simp [bin, bitWords, bitWord_mod_two]
  | succ k ih =>
    have hhigh : (List.range (k + 1)).map (fun j => BitVec.ofNat 32 (v / 2 / 2 ^ (k - j) % 2)) =
        (List.range (k + 1)).map fun j => BitVec.ofNat 32 (v / 2 ^ (k + 1 - j) % 2) := by
      refine List.map_congr_left fun j hj => ?_
      rw [Nat.div_div_eq_div_mul, ← pow_succ', Nat.succ_sub (Nat.lt_succ_iff.mp (List.mem_range.mp hj))]
    have hlow : bitWords [v % 2 == 1] = [BitVec.ofNat 32 (v / 2 ^ (k + 1 - (k + 1)) % 2)] := by
      rw [Nat.sub_self, pow_zero, Nat.div_one, ← bitWord_mod_two]
      rfl
    rw [bin, bitWords_append, ih, hhigh, hlow, List.range_succ (n := k + 1), List.map_append, List.map_singleton]

theorem bitWords_egCode (n : Nat) : bitWords (egCode n) = egWord n := by
  rw [egCode, minbin_length, Nat.add_sub_cancel, bitWords_append, bitWords_zeros, minbin, bitWords_bin, egWord]

/-- Bits that end inside a codeword cannot be read, whether they end in its zeros or in its binary part (R134). -/
theorem egDecode1_truncated {b : Bits} (h : EgTruncated (bitWords b)) :
    b ≠ [] ∧ egDecode1 b = .error .malformedStream := by
  rcases h with ⟨z, hz⟩ | ⟨z, r, hz, hr⟩
  · obtain rfl : b = zeros (z + 1) := bitWords_injective (by rw [hz, bitWords_zeros])
    exact ⟨List.cons_ne_nil _ _, egDecode1_zeros _⟩
  · obtain ⟨t, rfl, rfl⟩ := eq_zeros_true_of_bitWords hz
    exact ⟨by simp, egDecode1_short (by simpa using hr)⟩

theorem egReadsLayout : ReadsLayout egDecode1 EgWord EgTruncated where
  codeword := fun {n} {_} ⟨hn, hw⟩ =>
    ⟨egCode n, hw.trans (bitWords_egCode n).symm, egCode_ne_nil n, fun t => .inl (egDecode1_egCode hn t)⟩
  truncated := egDecode1_truncated
  empty := egDecode1_zeros 0

theorem egWord_egCode {n : Nat} (hn : 1 ≤ n) : EgWord n (bitWords (egCode n)) := ⟨hn, bitWords_egCode n⟩

/-- The layout of a symbol is the codeword the text encoder emits for it. -/
theorem egSymbol_of_egWord {c : Word} {w : List Word} (h : EgWord c.toNat w) :
    ∃ b, egSymbol c = .ok b ∧ w = bitWords b := by
  obtain ⟨hpos, hw⟩ := h
  exact ⟨egCode c.toNat, egSymbol_eq_ok.mpr ⟨hpos, rfl⟩, hw.trans (bitWords_egCode _).symm⟩

/-! ### The commands (O13 to O16) -/

/-- Settles O13, from the layout of the codewords; 0 has none. -/
theorem egEncCommand : Obligations.EgEncCommand :=
  ⟨decode_encode .egEnc, encodesOne_of_positive (fun _ => rfl) fun _ => egWord_egCode,
    fun _ => exec_positiveEncode_zero fun _ => rfl⟩

/-- Settles O14: the decoder reads the layout of the codewords and refuses what is truncated. -/
theorem egDecCommand : Obligations.EgDecCommand :=
  ⟨decode_encode .egDec, decodesOne_of_readsLayout (fun _ => rfl) egReadsLayout,
    rejectsOne_of_readsLayout (fun _ => rfl) egReadsLayout⟩

/-- Settles O15: every positive symbol has a codeword, CheckText comes first, and a 0 fails where it stands. -/
theorem egEnctCommand : Obligations.EgEnctCommand :=
  ⟨decode_encode .egEnct,
    encodesText_of_code (fun _ => rfl) fun _ hc => ⟨_, egSymbol_eq_ok.mpr ⟨hc, rfl⟩, egWord_egCode hc⟩,
    rejectsLargeSymbol_of_checkText fun _ => rfl, rejectsZeroSymbol_of_code (fun _ => rfl) rfl egSymbol_of_egWord⟩

/-- Settles O16: the decoder reads the layout of each codeword, and the first failure decides. -/
theorem egDectCommand : Obligations.EgDectCommand :=
  ⟨decode_encode .egDect, decodesText_of_readsLayout (fun _ => rfl) egReadsLayout,
    rejectsText_of_readsLayout (fun _ => rfl) egReadsLayout⟩

end Sys2Proof.Machine
end

section
/-! PROOFS. The Fibonacci codec (spec 42_fibonacci.md R83 to R93): the greedy selection is the one Zeckendorf selection
of its number, so the codewords are the layout of spec 30_encoding.md R52; what the decoder reads; the commands. -/

namespace Sys2Proof.Machine

open Sys2Proof.Safety

/-! ### The value of a selection (R84) -/

/-- The sum of the terms a selection takes, over as many terms as it has bits. -/
def selectionValue (sel : Bits) : Nat := fibSum (fibTerms sel.length) sel

@[simp] theorem selectionValue_nil : selectionValue [] = 0 := rfl

@[simp] theorem selectionValue_concat (sel : Bits) (b : Bool) :
    selectionValue (sel ++ [b]) = selectionValue sel + if b then Nat.fib (sel.length + 2) else 0 := by
  rw [selectionValue, List.length_append, List.length_singleton, fibTerms_succ, fibSum_concat (by simp),
    selectionValue]

/-- A longer table gives a selection the same value. -/
theorem fibSum_fibTerms {sel : Bits} {k : Nat} (h : sel.length ≤ k) :
    fibSum (fibTerms k) sel = selectionValue sel :=
  fibSum_of_prefix (fibTerms_prefix h) (by simp)

/-- The sum of the selected terms, written over the indices of the selection. -/
theorem sum_range_eq_fibSum {fs : List Nat} {sel : Bits} (hlen : sel.length = fs.length) :
    ((List.range sel.length).map fun j => if sel[j]? = some true then fs[j]?.getD 0 else 0).sum = fibSum fs sel := by
  refine congrArg List.sum (List.ext_getElem (by simp [hlen]) fun j hj _ => ?_)
  have hsel : j < sel.length := by simpa using hj
  simp [hsel, hlen ▸ hsel]

theorem fibTerms_getElem? {j k : Nat} (h : j < k) : (fibTerms k)[j]? = some (Nat.fib (j + 2)) := by
  simp [fibTerms, h]

theorem sum_range_eq_selectionValue (sel : Bits) :
    ((List.range sel.length).map fun j => if sel[j]? = some true then Nat.fib (j + 2) else 0).sum =
      selectionValue sel := by
  rw [selectionValue, ← sum_range_eq_fibSum (fibTerms_length _).symm]
  refine congrArg List.sum (List.map_congr_left fun j hj => ?_)
  rw [fibTerms_getElem? (List.mem_range.mp hj), Option.getD_some]

/-- A selection that ends in 1 takes its greatest term. -/
theorem fib_le_selectionValue {sel : Bits} (hlast : sel.getLast? = some true) :
    Nat.fib (sel.length + 1) ≤ selectionValue sel := by
  obtain ⟨s, rfl⟩ := List.getLast?_eq_some_iff.mp hlast
  simp

/-! ### Selections with no two adjacent ones (R85) -/

theorem noAdjacentOnes_concat {sel : Bits} {b : Bool} :
    NoAdjacentOnes (sel ++ [b]) ↔ NoAdjacentOnes sel ∧ (b = true → sel.getLast? ≠ some true) := by
  cases b <;> simp [NoAdjacentOnes, List.isChain_append]

theorem noAdjacentOnes_iff_getElem? {s : Bits} :
    NoAdjacentOnes s ↔ ∀ j < s.length, ¬ (s[j]? = some true ∧ s[j + 1]? = some true) := by
  rw [NoAdjacentOnes, List.isChain_iff_getElem]
  refine ⟨fun h j _ ⟨hj, hj1⟩ => ?_, fun h j hj ⟨h0, h1⟩ => ?_⟩
  · obtain ⟨_, h0⟩ := List.getElem?_eq_some_iff.mp hj
    obtain ⟨hlt, h1⟩ := List.getElem?_eq_some_iff.mp hj1
    exact h j hlt ⟨h0, h1⟩
  · exact h j (Nat.lt_of_succ_lt hj) ⟨List.getElem?_eq_some_iff.mpr ⟨_, h0⟩, List.getElem?_eq_some_iff.mpr ⟨hj, h1⟩⟩

/-- Such a selection is below the term after its last, and below its last when it does not take that one. -/
theorem selectionValue_lt {sel : Bits} (h : NoAdjacentOnes sel) :
    selectionValue sel < Nat.fib (sel.length + 2) ∧
      (sel.getLast? ≠ some true → selectionValue sel < Nat.fib (sel.length + 1)) := by
  induction sel using List.reverseRecOn with
  | nil => simp
  | append_singleton sel b ih =>
    obtain ⟨hsel, hb⟩ := noAdjacentOnes_concat.mp h
    obtain ⟨hlt, hlt_last⟩ := ih hsel
    rw [selectionValue_concat, List.length_append, List.length_singleton]
    cases b with
    | false => exact ⟨hlt.trans_le Nat.fib_le_fib_succ, fun _ => hlt⟩
    | true =>
      refine ⟨?_, fun h => absurd List.getLast?_concat h⟩
      rw [if_pos rfl, Nat.fib_add_two (n := sel.length + 1)]
      exact Nat.add_lt_add_right (hlt_last (hb rfl)) _

/-- The greedy selection of its value is the selection itself: the greatest term it takes is the greatest that fits. -/
theorem fibSelectOver_selectionValue {sel : Bits} (h : NoAdjacentOnes sel) :
    fibSelectOver sel.length (selectionValue sel) = sel := by
  induction sel using List.reverseRecOn with
  | nil => rfl
  | append_singleton sel b ih =>
    obtain ⟨hsel, -⟩ := noAdjacentOnes_concat.mp h
    rw [List.length_append, List.length_singleton, selectionValue_concat]
    cases b with
    | false => simp [fibSelectOver_skip (selectionValue_lt hsel).1, ih hsel]
    | true => simp [fibSelectOver_take, ih hsel]

/-! ### The Zeckendorf selection (R85) -/

theorem fibSelect_selectionValue {sel : Bits} (h : NoAdjacentOnes sel) (hlast : sel.getLast? = some true) :
    fibSelect (selectionValue sel) = sel := by
  rw [fibSelect_eq_fibSelectOver (fibList_eq_fibTerms (.inr (fib_le_selectionValue hlast)) (selectionValue_lt h).1),
    fibSelectOver_selectionValue h]

theorem zeckendorf_iff_selectionValue {n : Nat} {sel : Bits} :
    Zeckendorf n sel ↔ sel.getLast? = some true ∧ NoAdjacentOnes sel ∧ selectionValue sel = n := by
  rw [Zeckendorf, sum_range_eq_selectionValue, noAdjacentOnes_iff_getElem?]

theorem zeckendorf_fibSelect {n : Nat} (hn : 1 ≤ n) : Zeckendorf n (fibSelect n) := by
  obtain ⟨k, hle, hlt⟩ := exists_fib_bounds hn
  rw [fibSelect_eq_fibSelectOver (fibList_eq_fibTerms (.inr hle) hlt), zeckendorf_iff_selectionValue, selectionValue,
    fibSelectOver_length, fibSum_fibSelectOver hlt]
  refine ⟨?_, fibSelectOver_noAdjacentOnes hlt, rfl⟩
  rw [fibSelectOver_take hle, List.getLast?_concat]

/-- Every positive number has one Zeckendorf selection, the greedy one. -/
theorem zeckendorf_iff_eq_fibSelect {n : Nat} {sel : Bits} : Zeckendorf n sel ↔ 1 ≤ n ∧ sel = fibSelect n := by
  refine ⟨fun h => ?_, fun ⟨hn, hsel⟩ => hsel ▸ zeckendorf_fibSelect hn⟩
  obtain ⟨hlast, hchain, rfl⟩ := zeckendorf_iff_selectionValue.mp h
  exact ⟨(Nat.fib_pos.mpr (Nat.succ_pos _)).trans_le (fib_le_selectionValue hlast),
    (fibSelect_selectionValue hchain hlast).symm⟩

/-- Settles O28: the greedy selection is the Zeckendorf selection, over the terms FibGen lists. -/
theorem fibSelectIsZeckendorf : Obligations.FibSelectIsZeckendorf := by
  intro n hn
  obtain ⟨hlast, hadj, -⟩ := zeckendorf_fibSelect hn
  obtain ⟨k, hle, hlt⟩ := exists_fib_bounds hn
  have hlist : fibList n = fibTerms (k + 1) := fibList_eq_fibTerms (.inr hle) hlt
  have hlen : (fibSelect n).length = (fibList n).length := by simp [fibSelect]
  refine ⟨hlen, hlast, fun j hj => hadj j (List.getElem?_eq_some_iff.mp hj.1).1 hj, ?_⟩
  rw [← hlen, sum_range_eq_fibSum hlen, fibSelect_eq_fibSelectOver hlist, hlist, fibSum_fibSelectOver hlt]

/-! ### The layout of the codewords (R52) -/

theorem fibWord_iff {n : Nat} {w : List Word} : FibWord n w ↔ 1 ≤ n ∧ w = bitWords (fibCode n) := by
  simp only [FibWord, zeckendorf_iff_eq_fibSelect, fibCode, bitWords_append]
  refine ⟨?_, fun ⟨hn, hw⟩ => ⟨_, ⟨hn, rfl⟩, hw⟩⟩
  rintro ⟨_, ⟨hn, rfl⟩, hw⟩
  exact ⟨hn, hw⟩

theorem fibWord_fibCode {n : Nat} (hn : 1 ≤ n) : FibWord n (bitWords (fibCode n)) := fibWord_iff.mpr ⟨hn, rfl⟩

/-- The layout of a symbol is the codeword the text encoder emits for it. -/
theorem fibSymbol_of_fibWord {c : Word} {w : List Word} (h : FibWord c.toNat w) :
    ∃ b, fibSymbol c = .ok b ∧ w = bitWords b := by
  obtain ⟨hpos, hw⟩ := fibWord_iff.mp h
  exact ⟨fibCode c.toNat, fibSymbol_eq_ok.mpr ⟨hpos, rfl⟩, hw⟩

/-! ### What the Fibonacci decoder reads (R87) -/

/-- Bits without two adjacent ones hold no terminator. -/
theorem fibScan_noAdjacentOnes {prev : Bool} {s : Bits} (h : NoAdjacentOnes (prev :: s)) :
    fibScan prev s = .error .malformedStream := by
  induction s generalizing prev with
  | nil => rfl
  | cons b s ih =>
    obtain ⟨hpair, hchain⟩ := List.isChain_cons_cons.mp h
    rw [fibScan, if_neg (by simpa using hpair), ih hchain, except_bind_error]

theorem noAdjacentOnes_cons_false {s : Bits} : NoAdjacentOnes (false :: s) ↔ NoAdjacentOnes s := by
  simp [NoAdjacentOnes, List.isChain_cons]

/-- The scan answers with bits that end in 1: the terminator directly follows a 1. -/
theorem getLast?_of_fibScan {prev : Bool} {s sel : Bits} (h : fibScan prev s = .ok sel) :
    (prev :: sel).getLast? = some true := by
  induction s generalizing prev sel with
  | nil => cases h
  | cons b s ih =>
    rw [fibScan] at h
    split at h
    next hpair =>
      cases h
      simpa using (Bool.and_eq_true_iff.mp hpair).1
    next =>
      obtain ⟨sel, hscan, hsel⟩ := except_bind_eq_ok.mp h
      cases hsel
      rw [List.getLast?_cons_cons]
      exact ih hscan

/-- What the decoder reads takes its greatest term, so it is never 0. -/
theorem fibDecode1_pos {s : Bits} {v l : Nat} (h : fibDecode1 s = .ok (v, l)) : 1 ≤ v := by
  obtain ⟨sel, hscan, hread⟩ := except_bind_eq_ok.mp h
  rw [fibTable_eq_fibTerms, fibTerms_length] at hread
  split at hread
  next => cases hread
  next hlen =>
    cases hread
    have hlast : sel.getLast? = some true := by
      simpa [List.getLast?_cons, Option.getD_eq_iff] using getLast?_of_fibScan hscan
    rw [fibSum_fibTerms (Nat.not_lt.mp hlen)]
    exact (Nat.fib_pos.mpr (Nat.succ_pos _)).trans_le (fib_le_selectionValue hlast)

/-- The decoder on a selection longer than the table. -/
theorem fibDecode1_selection_long {sel : Bits} (hchain : NoAdjacentOnes sel) (hlast : sel.getLast? = some true)
    (hlen : 46 < sel.length) (t : Bits) : fibDecode1 (sel ++ true :: t) = .error .malformedStream := by
  have hscan : fibScan false (sel ++ true :: t) = .ok sel :=
    fibScan_selection (noAdjacentOnes_cons_false.mpr hchain) (by rw [List.getLast?_cons, hlast]; rfl) t
  rw [fibDecode1, hscan, except_bind_ok, fibTable_eq_fibTerms, fibTerms_length, if_pos hlen]

/-- The first term after the table exceeds every value RES can hold (R10). -/
theorem valMax_lt_fib : Config.valMax < Nat.fib 48 := by norm_num

/-- A selection longer than the table is of a value RES cannot hold. -/
theorem valMax_lt_selectionValue {sel : Bits} (hlast : sel.getLast? = some true) (hlen : 46 < sel.length) :
    Config.valMax < selectionValue sel :=
  calc Config.valMax < Nat.fib 48 := valMax_lt_fib
    _ ≤ Nat.fib (sel.length + 1) := Nat.fib_mono (by omega)
    _ ≤ selectionValue sel := fib_le_selectionValue hlast

/-- A codeword within the table gives its number, whether RES can hold it or not; a longer one is malformed. -/
theorem readsNumber_fibCode {n : Nat} (hn : 1 ≤ n) : ReadsNumber fibDecode1 n (fibCode n) := by
  obtain ⟨hlast, hchain, hvalue⟩ := zeckendorf_iff_selectionValue.mp (zeckendorf_fibSelect hn)
  refine ⟨fibCode_ne_nil n, fun t => ?_⟩
  have hcode : fibCode n ++ t = fibSelect n ++ true :: t := by simp [fibCode]
  rw [hcode]
  rcases le_or_gt (fibSelect n).length 46 with hlen | hlen
  · left
    rw [fibDecode1_selection hchain hlast hlen, fibSum_fibTerms hlen, hvalue, fibCode, List.length_append,
      List.length_singleton]
  · exact .inr ⟨hvalue ▸ valMax_lt_selectionValue hlast hlen, fibDecode1_selection_long hchain hlast hlen t⟩

theorem bitWord_injective : Function.Injective bitWord := by
  unfold Function.Injective
  decide

theorem bitWords_getElem?_eq_one {b : Bits} {j : Nat} : (bitWords b)[j]? = some 1 ↔ b[j]? = some true := by
  rw [show (1 : Word) = bitWord true from rfl, bitWords, List.getElem?_map, ← Option.map_some]
  exact (Option.map_injective bitWord_injective).eq_iff

/-- Bits that end inside a codeword cannot be read: they hold no two adjacent ones (R134). -/
theorem fibDecode1_truncated {b : Bits} (h : FibTruncated (bitWords b)) :
    b ≠ [] ∧ fibDecode1 b = .error .malformedStream := by
  obtain ⟨hne, hadj⟩ := h
  simp only [bitWords_length, bitWords_getElem?_eq_one] at hadj
  refine ⟨fun hb => hne (congrArg bitWords hb), ?_⟩
  rw [fibDecode1, fibScan_noAdjacentOnes (noAdjacentOnes_cons_false.mpr (noAdjacentOnes_iff_getElem?.mpr hadj)),
    except_bind_error]

theorem fibReadsLayout : ReadsLayout fibDecode1 FibWord FibTruncated where
  codeword := fun {n} {_} hw => ⟨fibCode n, (fibWord_iff.mp hw).2, readsNumber_fibCode (fibWord_iff.mp hw).1⟩
  truncated := fibDecode1_truncated
  empty := rfl

/-! ### The codeword law (O27) -/

/-- The terms up to a value RES can hold are in the table (R88). -/
theorem fibList_prefix_fibTable {n : Nat} (hn : 1 ≤ n) (hmax : n ≤ Config.valMax) : fibList n <+: fibTable := by
  obtain ⟨k, hle, hlt⟩ := exists_fib_bounds hn
  have hk : k + 2 < 48 := Nat.fib_mono.reflect_lt ((hle.trans hmax).trans_lt valMax_lt_fib)
  rw [fibList_eq_fibTerms (k := k + 1) (.inr hle) hlt, fibTable_eq_fibTerms]
  exact fibTerms_prefix (by omega)

/-- Settles O27: the first codeword's law with the second codeword, then with nothing, after it. -/
theorem fibCodewordRoundTrip : Obligations.FibCodewordRoundTrip := by
  refine ⟨fun _ => fibList_prefix_fibTable, fun _ t hn hmax => fibDecode1_fibCode hn hmax t,
    fun _ _ _ h => fibDecode1_pos h, fun n1 n2 h1 hmax1 h2 hmax2 =>
    ⟨_, _, fibDecode1_fibCode h1 hmax1 _, ?_, List.length_append.symm⟩⟩
  rw [List.drop_left]
  simpa using fibDecode1_fibCode h2 hmax2 []

/-! ### The list generator (R89) -/

/-- FIB.GEN emits the terms FibGen lists. -/
theorem exec_fibGen_of_fibList {s : State} {k : Nat} (h : fibList s.arg.toNat = fibTerms k) :
    exec .fibGen s = s.finish (emitAll s.maxOut [] ((fibTerms k).map (BitVec.ofNat 32)) >>= fun o =>
      .ok { out := o }) :=
  h ▸ rfl

/-- Settles O21: FibGen lists the first `k` terms, and they are emitted from an empty OUT. -/
theorem fibGenCommand : Obligations.FibGenCommand := by
  refine ⟨decode_encode .fibGen, fun s k hle hlt => ?_⟩
  have hlen : ([] : List Word).length + ((fibTerms k).map (BitVec.ofNat 32)).length = k := by simp
  have hterms : (fibTerms k).map (BitVec.ofNat 32) = (List.range k).map fun j => BitVec.ofNat 32 (Nat.fib (j + 2)) :=
    List.map_map
  rw [exec_fibGen_of_fibList (fibList_eq_fibTerms hle hlt)]
  refine ⟨fun hfits => ?_, fun hfull => ?_⟩
  · rw [emitAll_ok (hlen.symm ▸ hfits : Holds _ _), except_bind_ok, finish_ok_eq_okState, List.nil_append, hterms]
  · rw [emitAll_error (holds_nil _) (hlen.symm ▸ hfull)]
    rfl

/-! ### The commands (O17 to O20) -/

/-- Settles O17, from the layout of the codewords; 0 has none. -/
theorem fibEncCommand : Obligations.FibEncCommand :=
  ⟨decode_encode .fibEnc, encodesOne_of_positive (fun _ => rfl) fun _ => fibWord_fibCode,
    fun _ => exec_positiveEncode_zero fun _ => rfl⟩

/-- Settles O18: the decoder reads the layout of the codewords and refuses what is truncated. -/
theorem fibDecCommand : Obligations.FibDecCommand :=
  ⟨decode_encode .fibDec, decodesOne_of_readsLayout (fun _ => rfl) fibReadsLayout,
    rejectsOne_of_readsLayout (fun _ => rfl) fibReadsLayout⟩

/-- Settles O19: every positive symbol has a codeword, CheckText comes first, and a 0 fails where it stands. -/
theorem fibEnctCommand : Obligations.FibEnctCommand :=
  ⟨decode_encode .fibEnct,
    encodesText_of_code (fun _ => rfl) fun _ hc => ⟨_, fibSymbol_eq_ok.mpr ⟨hc, rfl⟩, fibWord_fibCode hc⟩,
    rejectsLargeSymbol_of_checkText fun _ => rfl, rejectsZeroSymbol_of_code (fun _ => rfl) rfl fibSymbol_of_fibWord⟩

/-- Settles O20: the decoder reads the layout of each codeword, and the first failure decides. -/
theorem fibDectCommand : Obligations.FibDectCommand :=
  ⟨decode_encode .fibDect, decodesText_of_readsLayout (fun _ => rfl) fibReadsLayout,
    rejectsText_of_readsLayout (fun _ => rfl) fibReadsLayout⟩

end Sys2Proof.Machine
end

section
/-! PROOFS. HUF.ENC and HUF.DEC (spec 43_huffman.md R102, R103, R106, R107), and the round trip through the kept code,
whatever the tie-break was (spec 43_huffman.md R109, R110). -/

namespace Sys2Proof.Machine

open Sys2Proof.Safety

/-! ### The codewords of a text under a well-formed table (R29, R102) -/

theorem tableWf_sorted {nodes : List HufNode} {T : List (Word × Bits)} (h : TableWf nodes T) : TableSorted T := h.1

theorem tableWf_ne_nil {nodes : List HufNode} {T : List (Word × Bits)} (h : TableWf nodes T) : ∀ e ∈ T, e.2 ≠ [] := by
  obtain ⟨-, hne, -⟩ := h
  exact hne

theorem tableWf_prefixFree {nodes : List HufNode} {T : List (Word × Bits)} (h : TableWf nodes T) : PrefixFree T := by
  obtain ⟨-, -, -, -, hfree, -⟩ := h
  exact hfree

/-- The symbol of every leaf has a codeword, the one the mapper looks up. -/
theorem mem_table_hufSymbol {nodes : List HufNode} {T : List (Word × Bits)} (h : TableWf nodes T) {c : Word}
    (hc : c ∈ leafSymbols nodes) : (c, hufSymbol T c) ∈ T := by
  obtain ⟨hsorted, -, -, hsym, -⟩ := h
  obtain ⟨⟨d, p⟩, hmem, rfl⟩ := List.mem_map.mp (hsym c hc)
  rw [hufSymbol, (tableGet_eq_some hsorted).mpr hmem]
  exact hmem

theorem tableGet_eq_some_hufSymbol {nodes : List HufNode} {T : List (Word × Bits)} (h : TableWf nodes T) {c : Word}
    (hc : c ∈ leafSymbols nodes) : tableGet T c = some (hufSymbol T c) :=
  (tableGet_eq_some (tableWf_sorted h)).mpr (mem_table_hufSymbol h hc)

theorem forall₂_hufSymbol {nodes : List HufNode} {T : List (Word × Bits)} (h : TableWf nodes T) {text : List Word}
    (htext : ∀ c ∈ text, c ∈ leafSymbols nodes) :
    List.Forall₂ (fun c w => (c, w) ∈ T) text (text.map (hufSymbol T)) :=
  List.forall₂_map_right_iff.mpr (List.forall₂_same.mpr fun c hc => mem_table_hufSymbol h (htext c hc))

/-- The codewords as elements of IN or OUT are those of entries of the table. -/
theorem codeWord_iff {T : List (Word × Bits)} (hT : TableSorted T) {c : Word} {w : List Word} :
    CodeWord T c w ↔ ∃ p, (c, p) ∈ T ∧ w = bitWords p :=
  exists_congr fun _ => and_congr_left' (tableGet_eq_some hT)

theorem exists_bits_of_codeWords {T : List (Word × Bits)} (hT : TableSorted T) {text : List Word}
    {ws : List (List Word)} (hws : List.Forall₂ (CodeWord T) text ws) :
    ∃ bs, List.Forall₂ (fun c p => (c, p) ∈ T) text bs ∧ ws.flatten = bitWords bs.flatten := by
  induction hws with
  | nil => exact ⟨[], .nil, rfl⟩
  | cons hw _ ih =>
    obtain ⟨p, hp, rfl⟩ := (codeWord_iff hT).mp hw
    obtain ⟨bs, hbs, hflatten⟩ := ih
    exact ⟨p :: bs, .cons hp hbs, by rw [List.flatten_cons, List.flatten_cons, hflatten, bitWords_append]⟩

/-- A text has at most as many symbols as its codewords have bits. -/
theorem length_le_of_codewords {T : List (Word × Bits)} (hne : ∀ e ∈ T, e.2 ≠ []) {text : List Word} {ws : List Bits}
    (hws : List.Forall₂ (fun c w => (c, w) ∈ T) text ws) : text.length ≤ ws.flatten.length := by
  induction hws with
  | nil => exact le_rfl
  | @cons _ w _ _ hw _ ih =>
    have hpos : 0 < w.length := List.length_pos_iff.mpr (hne _ hw)
    rw [List.flatten_cons, List.length_append, List.length_cons]
    omega

/-! ### The mapper (R102) -/

theorem forall₂_lookup (T : List (Word × Bits)) (text : List Word) :
    List.Forall₂ (fun c w => (Except.ok (hufSymbol T c) : Except Err Bits) = .ok w) text (text.map (hufSymbol T)) :=
  List.forall₂_map_right_iff.mpr (List.forall₂_same.mpr fun _ _ => rfl)

theorem hufMap_ok {cap : Config.Capacity} {T : List (Word × Bits)} {text : List Word}
    (h : Holds cap (text.flatMap (hufSymbol T)).length) :
    hufMap cap T text = .ok (bitWords (text.flatMap (hufSymbol T))) := by
  rw [List.flatMap_def] at h ⊢
  rw [hufMap, encodeLoop_ok (forall₂_lookup T text) (by simpa using h), List.nil_append]

theorem hufMap_overflow {cap : Config.Capacity} {T : List (Word × Bits)} {text : List Word}
    (h : ¬ Holds cap (text.flatMap (hufSymbol T)).length) : hufMap cap T text = .error .capacityExceeded := by
  have hloop := encodeLoop_overflow (o := []) (post := []) (forall₂_lookup T text) (holds_nil cap)
    (by simpa [List.flatMap_def] using h)
  rwa [List.append_nil] at hloop

/-! ### The parser (R103) -/

/-- The parser comes to the bits after the codewords of a text that fits. -/
theorem hufParse_codewords {cap : Config.Capacity} {nodes : List HufNode} {T : List (Word × Bits)}
    (hT : TableWf nodes T) {text : List Word} {ws : List Bits} (hws : List.Forall₂ (fun c w => (c, w) ∈ T) text ws)
    (h : Holds cap text.length) (rest : Bits) :
    hufParse cap T (ws.flatten ++ rest) = hufParseLoop cap T text [] rest := by
  rw [hufParse, hufParseLoop_text (tableWf_prefixFree hT) (tableWf_ne_nil hT) hws (by simpa using h), List.nil_append]

theorem hufParse_text {cap : Config.Capacity} {nodes : List HufNode} {T : List (Word × Bits)} (hT : TableWf nodes T)
    {text : List Word} {ws : List Bits} (hws : List.Forall₂ (fun c w => (c, w) ∈ T) text ws)
    (h : Holds cap text.length) : hufParse cap T ws.flatten = .ok text := by
  rw [← List.append_nil ws.flatten, hufParse_codewords hT hws h, hufParseLoop, if_pos rfl]

theorem hufParse_overflow {cap : Config.Capacity} {nodes : List HufNode} {T : List (Word × Bits)}
    (hT : TableWf nodes T) {text : List Word} {ws : List Bits} (hws : List.Forall₂ (fun c w => (c, w) ∈ T) text ws)
    (h : ¬ Holds cap text.length) (rest : Bits) : hufParse cap T (ws.flatten ++ rest) = .error .capacityExceeded :=
  hufParseLoop_overflow (tableWf_prefixFree hT) (tableWf_ne_nil hT) hws (holds_nil cap) (by simpa using h)

/-- Bits that are left over and begin with no codeword are malformed. -/
theorem hufParseLoop_leftover {cap : Config.Capacity} {T : List (Word × Bits)} {o : List Word} {rest : Bits}
    (hne : rest ≠ []) (hrest : ∀ c p, (c, p) ∈ T → ¬ p <+: rest) :
    hufParseLoop cap T o [] rest = .error .malformedStream := by
  have hnone : ∀ p, p ≠ [] → p <+: rest → tableFind T ([] ++ p) = none := fun p _ hp =>
    Option.eq_none_iff_forall_not_mem.mpr fun c hc => hrest c p (mem_of_tableFind hc) hp
  rw [← List.append_nil rest, hufParseLoop_skip hnone, List.nil_append, hufParseLoop, if_neg hne]

/-! ### Every tie-break (R110) -/

/-- The symbols of a text are those of the leaves, whatever the merges of the leaves were. -/
theorem mem_leafSymbols_of_anyMerges {text : List Word} {W : List Nat} {nodes : List HufNode}
    (hm : AnyMerges (hufLeaves text) (List.range (hufLeaves text).length) nodes W) {c : Word} :
    c ∈ leafSymbols nodes ↔ c ∈ text := by
  rw [anyMerges_leafSymbols_eq hm, leafSymbols_hufLeaves, mem_hufFreq_symbols]

/-- Settles O39: the merges make a well-formed tree, and its well-formed table has a codeword for every
symbol. -/
theorem roundTripForEveryTieBreak : Obligations.RoundTripForEveryTieBreak := by
  intro text nodes root htext hm
  have harena := arenaWf_of_anyMerges (fun c hc => (htext c hc).2) hm
  have htable := hufAssign_tableWf harena
  have hsym : ∀ c ∈ text, c ∈ leafSymbols nodes := fun c => (mem_leafSymbols_of_anyMerges hm).mpr
  refine ⟨harena, htable, fun c hc => ?_, ?_⟩
  · rw [tableGet_eq_some_hufSymbol htable (hsym c hc)]
    rfl
  · exact hufParse_text htable (forall₂_hufSymbol htable hsym) fun k hk => nomatch hk

/-! ### HUF.ENC (O22) -/

/-- The table of a text, assigned to the tree the builder makes of it (R95). -/
def textTable (text : List Word) : List (Word × Bits) := hufAssign (hufBuild text)

theorem textTable_wf {text : List Word} (htext : ∀ c ∈ text, c.toNat ≤ 255) :
    TableWf (hufBuild text).nodes (textTable text) :=
  hufAssign_tableWf (hufBuild_arenaWf htext)

theorem mem_leafSymbols_hufBuild {text : List Word} {c : Word} : c ∈ leafSymbols (hufBuild text).nodes ↔ c ∈ text :=
  mem_leafSymbols_of_anyMerges (mergeLoop_anyMerges _ _ _)

theorem forall₂_textTable {text : List Word} (htext : ∀ c ∈ text, c.toNat ≤ 255) :
    List.Forall₂ (fun c w => (c, w) ∈ textTable text) text (text.map (hufSymbol (textTable text))) :=
  forall₂_hufSymbol (textTable_wf htext) fun _ => mem_leafSymbols_hufBuild.mpr

/-- HUF.ENC of a text in the symbol range maps it with the table made from it. -/
theorem exec_hufEnc {s : State} (htext : ∀ c ∈ s.inp, c.toNat ≤ 255) :
    exec .hufEnc s = s.finish (hufMap s.maxOut (textTable s.inp) s.inp >>= fun o =>
      .ok { out := o, huf := some { valid := true, tree := hufBuild s.inp, table := textTable s.inp } }) := by
  rw [exec, execHufEnc, checkText_ok htext, except_bind_ok]
  rfl

/-- Settles O22: each symbol of the text has its codeword in the new table, and the mapper emits them in text order. -/
theorem hufEncCommand : Obligations.HufEncCommand := by
  refine ⟨decode_encode .hufEnc, rejectsLargeSymbol_of_checkText fun _ => rfl, fun s hin => ?_⟩
  have htext : ∀ c ∈ s.inp, c.toNat ≤ 255 := fun c hc => (hin c hc).2
  have hcodes : List.Forall₂ (CodeWord (textTable s.inp)) s.inp
      (s.inp.map fun c => bitWords (hufSymbol (textTable s.inp) c)) :=
    List.forall₂_map_right_iff.mpr (List.forall₂_same.mpr fun c hc =>
      ⟨_, tableGet_eq_some_hufSymbol (textTable_wf htext) (mem_leafSymbols_hufBuild.mpr hc), rfl⟩)
  have hflatten : (s.inp.map fun c => bitWords (hufSymbol (textTable s.inp) c)).flatten =
      bitWords (s.inp.flatMap (hufSymbol (textTable s.inp))) := by
    rw [List.flatMap_def, ← flatten_map_bitWords, List.map_map]
    rfl
  refine ⟨_, hcodes, ?_⟩
  rw [hflatten, bitWords_length, exec_hufEnc htext]
  refine ⟨fun hfits => ?_, fun hfull => ?_⟩
  · rw [hufMap_ok hfits]
    rfl
  · rw [hufMap_overflow hfull]
    rfl

/-! ### HUF.DEC (O23) -/

theorem keptHuf_of_not_valid {s : State} (h : s.huf.valid = false) : keptHuf s = .error .statePrecondition := by
  rw [keptHuf, if_neg (by rw [h]; exact Bool.false_ne_true)]

theorem exec_hufDec {s : State} {b : Bits} (hvalid : s.huf.valid = true) (hin : s.inp = bitWords b) :
    exec .hufDec s = s.finish (hufParse s.maxOut s.huf.table b >>= fun o => .ok { out := o }) := by
  rw [exec, execHufDec, keptHuf_of_valid hvalid, except_bind_ok, hin, checkBits_bitWords, except_bind_ok]
  rfl

theorem hufInv_tableWf {h : Huf} (hinv : HufInv h) (hvalid : h.valid = true) : TableWf h.tree.nodes h.table := by
  obtain ⟨-, htable, -⟩ := hinv.1 hvalid
  exact htable

/-- HUF.DEC of the codewords of a text that fits OUT. -/
theorem exec_hufDec_codewords {s : State} (hinv : HufInv s.huf) (hvalid : s.huf.valid = true) {text : List Word}
    {ws : List Bits} (hws : List.Forall₂ (fun c w => (c, w) ∈ s.huf.table) text ws) (hin : s.inp = bitWords ws.flatten)
    (hfits : Fits s text.length) : exec .hufDec s = .next (okState s text 0 0) := by
  rw [exec_hufDec hvalid hin, hufParse_text (hufInv_tableWf hinv hvalid) hws hfits, except_bind_ok,
    finish_ok_eq_okState]

/-- Settles O23: the state is checked, then the bits, and then the parser reads the codewords of the text and comes to
the rest. -/
theorem hufDecCommand : Obligations.HufDecCommand := by
  refine ⟨decode_encode .hufDec, fun s hvalid => ?_,
    fun s hvalid => exec_of_not_isBits (i := .hufDec) rfl fun _ => hvalid,
    fun s text ws rest hinv hvalid hws hin hbits hrest => ?_⟩
  · rw [exec, execHufDec, keptHuf_of_not_valid hvalid]
    rfl
  · have htable := hufInv_tableWf hinv hvalid
    obtain ⟨bs, hbs, hflatten⟩ := exists_bits_of_codeWords (tableWf_sorted htable) hws
    obtain ⟨r, rfl⟩ := exists_bitWords hbits
    have hnone : ∀ c p, (c, p) ∈ s.huf.table → ¬ p <+: r := by
      rintro c p hp ⟨u, rfl⟩
      exact hrest c _ ((codeWord_iff (tableWf_sorted htable)).mpr ⟨p, hp, rfl⟩)
        ⟨bitWords u, (bitWords_append p u).symm⟩
    rw [hflatten, ← bitWords_append] at hin
    refine ⟨fun hfull => ?_, fun hfits hne => ?_, fun hfits hnil => ?_⟩
    · rw [exec_hufDec hvalid hin, hufParse_overflow htable hbs hfull]
      rfl
    · rw [exec_hufDec hvalid hin, hufParse_codewords htable hbs hfits,
        hufParseLoop_leftover (fun hr => hne (congrArg bitWords hr)) hnone]
      rfl
    · obtain rfl : r = [] := bitWords_injective hnil
      exact exec_hufDec_codewords hinv hvalid hbs (by rw [hin, List.append_nil]) hfits

/-! ### Copies of one symbol (R106, R109) -/

theorem hufFreq_replicate (c : Word) (k : Nat) : hufFreq (List.replicate (k + 1) c) = [(c, k + 1)] := by
  induction k with
  | zero => rfl
  | succ k ih => rw [List.replicate_succ', hufFreq_concat, ih, bumpFreq, if_pos rfl]

/-- A text of one distinct symbol gives its lone leaf, and the leaf the codeword 0 (R101). -/
theorem textTable_replicate (c : Word) (k : Nat) : textTable (List.replicate (k + 1) c) = [(c, [false])] := by
  have hleaves : hufLeaves (List.replicate (k + 1) c) = [.leaf c (k + 1)] := by
    rw [hufLeaves, hufFreq_replicate, List.map_singleton]
  have hbuild : hufBuild (List.replicate (k + 1) c) = { nodes := [.leaf c (k + 1)], root := some 0 } := by
    rw [hufBuild, hleaves]
    rfl
  rw [textTable, hbuild]
  exact hufAssign_leaf rfl rfl

/-! ### The round trip (O38) -/

/-- The OUT of a HUF.ENC that succeeded: the codewords of the text, within the capacity (R106). -/
theorem hufEnc_out {s t : State} (h : exec .hufEnc s = .next t) (hok : t.status = 0) :
    t.out = bitWords (s.inp.flatMap (hufSymbol (textTable s.inp))) ∧
      Holds t.maxOut (s.inp.flatMap (hufSymbol (textTable s.inp))).length := by
  obtain ⟨c, hc, rfl⟩ := completes_of_status_zero ((exec_hufEnc (hufEnc_text_le h hok)).symm.trans h) hok
  by_cases hfits : Holds s.maxOut (s.inp.flatMap (hufSymbol (textTable s.inp))).length
  · rw [hufMap_ok hfits] at hc
    cases hc
    exact ⟨rfl, hfits⟩
  · rw [hufMap_overflow hfits] at hc
    cases hc

/-- Settles O38: HUF.ENC keeps the table whose codewords it emitted, and that table parses them back. -/
theorem huffmanRoundTrip : Obligations.HuffmanRoundTrip := by
  intro s t h hok
  have htext := hufEnc_text_le h hok
  have hhuf : t.huf = { valid := true, tree := hufBuild s.inp, table := textTable s.inp } := hufEnc_huf h hok
  have hinv := hufEnc_hufInv h hok
  have hvalid : t.huf.valid = true := by rw [hhuf]
  obtain ⟨hout, hholds⟩ := hufEnc_out h hok
  rw [List.flatMap_def] at hout hholds
  have hcodes := forall₂_textTable htext
  have hfits := holds_mono hholds (length_le_of_codewords (tableWf_ne_nil (textTable_wf htext)) hcodes)
  refine ⟨⟨hvalid, hinv⟩, ?_, fun c k hk hin => ?_⟩
  · refine exec_hufDec_codewords (s := { t with inp := t.out }) hinv hvalid ?_ hout hfits
    rw [hhuf]
    exact hcodes
  · obtain ⟨k, rfl⟩ := Nat.exists_eq_add_one_of_ne_zero (Nat.ne_of_gt hk)
    have hcode : hufSymbol (textTable (List.replicate (k + 1) c)) c = [false] := by
      rw [textTable_replicate, hufSymbol, tableGet, if_pos rfl, Option.getD_some]
    rw [hout, hin, List.map_replicate, hcode, List.flatten_replicate_singleton]
    exact bitWords_zeros (k + 1)

end Sys2Proof.Machine
end

section
/-! PROOFS. The frequency counter and the tree builder (spec 43_huffman.md R96 to R100, R111). -/

namespace Sys2Proof.Machine

open Sys2Proof.Safety

/-! ### The frequency counter (O32) -/

/-- When the pairs hold the counts `f`, they hold after one more `c` the counts with that of `c` one higher. -/
theorem bumpFreq_counts {P : List (Word × Nat)} {c : Word} {f : Word → Nat} (hnodup : (P.map Prod.fst).Nodup)
    (hcount : ∀ e ∈ P, e.2 = f e.1) (hnew : c ∉ P.map Prod.fst → f c = 0) :
    ∀ e ∈ bumpFreq P c, e.2 = f e.1 + if e.1 = c then 1 else 0 := by
  induction P with
  | nil => simpa [bumpFreq] using hnew
  | cons x P ih =>
    obtain ⟨d, k⟩ := x
    obtain ⟨hd, hnodup⟩ := List.nodup_cons.mp hnodup
    obtain ⟨hk, hcount⟩ := List.forall_mem_cons.mp hcount
    simp only at hk
    rw [bumpFreq]
    split
    · rename_i hdc
      subst hdc
      refine List.forall_mem_cons.mpr ⟨by simp [hk], fun e he => ?_⟩
      have hne : e.1 ≠ d := by
        rintro rfl
        exact hd (List.mem_map.mpr ⟨e, he, rfl⟩)
      rw [hcount e he, if_neg hne, Nat.add_zero]
    · rename_i hdc
      refine List.forall_mem_cons.mpr ⟨by simp [hk, hdc], ih hnodup hcount fun hc => hnew ?_⟩
      simpa [Ne.symm hdc] using hc

theorem hufFreq_count (text : List Word) : ∀ e ∈ hufFreq text, e.2 = text.count e.1 := by
  induction text using List.reverseRecOn with
  | nil => simp
  | append_singleton text c ih =>
    have hnew : c ∉ (hufFreq text).map Prod.fst → text.count c = 0 := fun hc =>
      List.count_eq_zero.mpr (mt mem_hufFreq_symbols.mpr hc)
    intro e he
    rw [hufFreq_concat] at he
    rw [bumpFreq_counts (f := fun d => text.count d) (hufFreq_symbols_nodup text) ih hnew e he, List.count_append,
      List.count_singleton]
    simp only [beq_iff_eq, eq_comm (a := c)]

/-- The symbols stand in the order of their first occurrences. -/
theorem hufFreq_symbols_order (text : List Word) :
    ((hufFreq text).map Prod.fst).Pairwise (fun a b => text.idxOf a < text.idxOf b) := by
  induction text using List.reverseRecOn with
  | nil => exact List.Pairwise.nil
  | append_singleton text c ih =>
    have hold : ∀ a ∈ (hufFreq text).map Prod.fst, (text ++ [c]).idxOf a = text.idxOf a := fun a ha =>
      List.idxOf_append_of_mem (mem_hufFreq_symbols.mp ha)
    have hprev : ((hufFreq text).map Prod.fst).Pairwise
        (fun a b => (text ++ [c]).idxOf a < (text ++ [c]).idxOf b) :=
      ih.imp_of_mem fun ha hb hlt => (hold _ ha).symm ▸ (hold _ hb).symm ▸ hlt
    rw [hufFreq_concat, bumpFreq_symbols]
    split
    · exact hprev
    · rename_i hc
      refine List.pairwise_append.mpr ⟨hprev, List.pairwise_singleton _ _, fun a ha b hb => ?_⟩
      obtain rfl := List.mem_singleton.mp hb
      rw [hold a ha, List.idxOf_append_of_notMem (mt mem_hufFreq_symbols.mpr hc)]
      exact (List.idxOf_lt_length_of_mem (mem_hufFreq_symbols.mp ha)).trans_le (Nat.le_add_right _ _)

/-- Settles O32, by what one more symbol does to the pairs. -/
theorem frequencyCounterCounts : Obligations.FrequencyCounterCounts := fun text =>
  ⟨hufFreq_symbols_nodup text, fun _ => mem_hufFreq_symbols,
    fun e he => ⟨hufFreq_count text e he, hufFreq_count_pos text e he⟩, hufFreq_symbols_order text⟩

/-! ### One merge (O33) -/

theorem exists_leastHandle (nodes : List HufNode) {W : List Nat} (h : W ≠ []) : ∃ a, leastHandle nodes W = some a :=
  Option.ne_none_iff_exists'.mp (mt leastHandle_eq_none.mp h)

/-- The handle that is least in the order of R98 comes before every other one. -/
theorem leastHandle_keyBefore {nodes : List HufNode} {W : List Nat} {a : Nat} (h : leastHandle nodes W = some a) :
    ∀ g ∈ W, g ≠ a → KeyBefore nodes a g :=
  fun g hg hne => (leastHandle_least h g hg).resolve_left hne

theorem mergeOnce_of_leastHandle {nodes : List HufNode} {W : List Nat} {a b : Nat}
    (ha : leastHandle nodes W = some a) (hb : leastHandle nodes (W.erase a) = some b) :
    mergeOnce nodes W =
      some (nodes ++ [.internal (freqAt nodes a + freqAt nodes b) a b], (W.erase a).erase b ++ [nodes.length]) := by
  simp only [mergeOnce, ha, hb]

/-- A merge takes two handles, so there is none of fewer. -/
theorem mergeOnce_eq_none {nodes : List HufNode} {W : List Nat} (h : W.length < 2) : mergeOnce nodes W = none := by
  rcases mergeOnce_cases nodes W with ⟨hm, -⟩ | ⟨a, b, ha, hb, -⟩
  · exact hm
  · have hlen := (perm_of_two_erased ha.1 hb.1).length_eq
    rw [List.length_cons, List.length_cons] at hlen
    omega

/-- Settles O33: the first handle is least in the collection, the second in what is left of it. -/
theorem mergeTakesTwoLeast : Obligations.MergeTakesTwoLeast := by
  refine fun nodes W _ => ⟨mergeOnce_eq_none, fun hlen => ?_⟩
  obtain ⟨a, ha⟩ := exists_leastHandle nodes (List.ne_nil_of_length_pos (Nat.zero_lt_of_lt hlen))
  have hlen' := List.length_erase_of_mem (leastHandle_mem ha)
  obtain ⟨b, hb⟩ := exists_leastHandle nodes (W := W.erase a) (List.ne_nil_of_length_pos (by omega))
  exact ⟨a, b, leastHandle_mem ha, leastHandle_mem hb, leastHandle_keyBefore ha, leastHandle_keyBefore hb,
    mergeOnce_of_leastHandle ha hb⟩

/-! ### The built arena (O34) -/

/-- The merges only append to the arena. -/
theorem anyMerges_prefix {nodes nodes' : List HufNode} {W W' : List Nat} (hm : AnyMerges nodes W nodes' W') :
    nodes <+: nodes' := by
  induction hm with
  | done => exact List.prefix_rfl
  | merge _ _ _ _ ih => exact (List.prefix_append _ _).trans ih

/-- An arena with one handle left in the working collection has one node fewer than two for each leaf. -/
theorem length_succ_of_handlesPlaced {nodes : List HufNode} {root : Nat} (hp : HandlesPlaced nodes [root]) :
    nodes.length + 1 = 2 * (leafSymbols nodes).length := by
  have hlen : (childHandles nodes).length + 1 = nodes.length := by simpa using hp.length_eq
  have hsize := childHandles_length nodes
  omega

/-- The one handle left is the last node, because that one is no child of an earlier node. -/
theorem root_succ_eq_length {d : Nat} {nodes : List HufNode} {root : Nat} (hp : HandlesPlaced nodes [root])
    (hd : InternalsFrom d nodes) : root + 1 = nodes.length := by
  have hroot := hp.lt_of_mem (List.mem_singleton_self root)
  have hlast : nodes.length - 1 ∈ childHandles nodes ++ [root] := hp.symm.subset (List.mem_range.mpr (by omega))
  rcases List.mem_append.mp hlast with hchild | hlast
  · obtain ⟨h, k, l, r, hn, hg⟩ := mem_childHandles.mp hchild
    obtain ⟨hlt, -⟩ := List.getElem?_eq_some_iff.mp hn
    have hchildren := hd h k l r hn
    omega
  · have := List.mem_singleton.mp hlast
    omega

/-- Settles O34: the merges append to the leaves, one node for each handle they take off the collection. -/
theorem buildMakesOneRoot : Obligations.BuildMakesOneRoot := by
  refine fun text => ⟨?_, fun htext => ?_, fun htext => htext ▸ ⟨rfl, rfl⟩⟩
  · have hprefix : hufLeaves text <+: (hufBuild text).nodes := anyMerges_prefix (mergeLoop_anyMerges _ _ _)
    have hlen : (hufLeaves text).length = (hufFreq text).length := List.length_map _
    rw [← hlen, ← List.prefix_iff_eq_take.mp hprefix, hufLeaves]
  · obtain ⟨root, hroot, hm⟩ := hufBuild_anyMerges htext
    have hplaced := handlesPlaced_hufLeaves text
    have hplaced' := anyMerges_handlesPlaced hm hplaced
    have hlen := length_succ_of_handlesPlaced hplaced'
    have hlast := root_succ_eq_length hplaced'
      (anyMerges_internalsFrom hm hplaced le_rfl (internalsFrom_hufLeaves text))
    rw [anyMerges_leafSymbols_eq hm, leafSymbols_hufLeaves, List.length_map] at hlen
    rw [hroot, Option.some.injEq]
    omega

/-! ### Frequencies (O35) -/

/-- The frequencies over the working collection sum to `n`, and no node has more (R111). -/
structure FreqTotal (n : Nat) (nodes : List HufNode) (W : List Nat) : Prop where
  sum_eq : (W.map (freqAt nodes)).sum = n
  freq_le : ∀ m ∈ nodes, m.freq ≤ n

theorem freqAt_concat (nodes : List HufNode) (m : HufNode) : freqAt (nodes ++ [m]) nodes.length = m.freq := by
  rw [freqAt, List.getElem?_concat_length]

/-- A merge puts the sum of two frequencies in their place. -/
theorem FreqTotal.merge {n : Nat} {nodes : List HufNode} {W : List Nat} (ht : FreqTotal n nodes W)
    (hW : ∀ h ∈ W, h < nodes.length) {a b : Nat} (ha : a ∈ W) (hb : b ∈ W.erase a) (l r : Nat) :
    FreqTotal n (nodes ++ [.internal (freqAt nodes a + freqAt nodes b) l r])
      ((W.erase a).erase b ++ [nodes.length]) := by
  have hsum : freqAt nodes a + freqAt nodes b + (((W.erase a).erase b).map (freqAt nodes)).sum = n := by
    rw [← ht.sum_eq, ← ((perm_of_two_erased ha hb).map _).sum_eq, List.map_cons, List.map_cons, List.sum_cons,
      List.sum_cons, Nat.add_assoc]
  have hrest : ((W.erase a).erase b).map (freqAt (nodes ++ [.internal (freqAt nodes a + freqAt nodes b) l r])) =
      ((W.erase a).erase b).map (freqAt nodes) :=
    List.map_congr_left fun h hh => freqAt_append (hW h (List.mem_of_mem_erase (List.mem_of_mem_erase hh))) _
  refine ⟨?_, List.forall_mem_append.mpr ⟨ht.freq_le, List.forall_mem_singleton.mpr ?_⟩⟩
  · rw [List.map_append, hrest, List.map_singleton, freqAt_concat, List.sum_append, List.sum_singleton, Nat.add_comm]
    exact hsum
  · exact hsum ▸ Nat.le_add_right _ _

theorem anyMerges_freqTotal {n : Nat} {nodes nodes' : List HufNode} {W W' : List Nat}
    (hm : AnyMerges nodes W nodes' W') (hp : HandlesPlaced nodes W) (ht : FreqTotal n nodes W) :
    FreqTotal n nodes' W' := by
  induction hm with
  | done => exact ht
  | merge ha hb hlr _ ih => exact ih (hp.merge ha.1 hb.1 hlr _) (ht.merge (fun _ => hp.lt_of_mem) ha.1 hb.1 _ _)

theorem bumpFreq_sum (P : List (Word × Nat)) (c : Word) :
    ((bumpFreq P c).map Prod.snd).sum = (P.map Prod.snd).sum + 1 := by
  induction P with
  | nil => rfl
  | cons e P ih =>
    obtain ⟨d, k⟩ := e
    rw [bumpFreq]
    split
    · simp only [List.map_cons, List.sum_cons]
      omega
    · simp only [List.map_cons, List.sum_cons, ih]
      omega

/-- The counts of a text sum to its length. -/
theorem hufFreq_sum (text : List Word) : ((hufFreq text).map Prod.snd).sum = text.length := by
  induction text using List.reverseRecOn with
  | nil => rfl
  | append_singleton text c ih => rw [hufFreq_concat, bumpFreq_sum, ih, List.length_append, List.length_singleton]

theorem map_freqAt_range (nodes : List HufNode) :
    (List.range nodes.length).map (freqAt nodes) = nodes.map HufNode.freq := by
  refine List.ext_getElem (by simp) fun i hi _ => ?_
  have hlt : i < nodes.length := by simpa using hi
  simp [freqAt, List.getElem?_eq_getElem hlt]

theorem freqTotal_hufLeaves (text : List Word) :
    FreqTotal text.length (hufLeaves text) (List.range (hufLeaves text).length) := by
  have hfreq : (hufLeaves text).map HufNode.freq = (hufFreq text).map Prod.snd := List.map_map
  refine ⟨by rw [map_freqAt_range, hfreq, hufFreq_sum], fun m hm => ?_⟩
  rw [← hufFreq_sum text, ← hfreq]
  exact List.le_sum_of_mem (List.mem_map_of_mem hm)

/-- Settles O35: each merge keeps the sum over the working collection, which at the end is the root alone. -/
theorem rootFrequencyIsTextLength : Obligations.RootFrequencyIsTextLength := by
  intro text
  have hplaced := handlesPlaced_hufLeaves text
  have hstart := freqTotal_hufLeaves text
  refine ⟨(anyMerges_freqTotal (mergeLoop_anyMerges _ _ _) hplaced hstart).freq_le, fun r hr => ?_⟩
  have htext : text ≠ [] := by
    rintro rfl
    cases hr
  obtain ⟨root, hroot, hm⟩ := hufBuild_anyMerges htext
  obtain rfl : r = root := Option.some.inj (hr.symm.trans hroot)
  simpa using (anyMerges_freqTotal hm hplaced hstart).sum_eq

end Sys2Proof.Machine
end

section
/-! PROOFS. The codewords as the paths of the tree, and the tree-walk parser beside the table parser (spec
43_huffman.md R101, R103, R104; 30_encoding.md R53). -/

namespace Sys2Proof.Machine

open Sys2Proof.Safety

/-! ### Edges down from the root -/

/-- The edges of `p`, taken down from the root, lead to the handle `h`. -/
inductive EdgesTo (nodes : List HufNode) (root : Nat) : Bits → Nat → Prop where
  | root : EdgesTo nodes root [] root
  | edge {p : Bits} {h k l r : Nat} (b : Bool) : EdgesTo nodes root p h → nodes[h]? = some (.internal k l r) →
      EdgesTo nodes root (p ++ [b]) (if b then r else l)

theorem edgesTo_iff {nodes : List HufNode} {root : Nat} {q : Bits} {g : Nat} :
    EdgesTo nodes root q g ↔ (q = [] ∧ g = root) ∨
      ∃ (p : Bits) (b : Bool) (h k l r : Nat), q = p ++ [b] ∧ EdgesTo nodes root p h ∧
        nodes[h]? = some (.internal k l r) ∧ g = if b then r else l := by
  constructor
  · rintro (_ | ⟨b, hp, hn⟩)
    · exact .inl ⟨rfl, rfl⟩
    · exact .inr ⟨_, b, _, _, _, _, rfl, hp, hn, rfl⟩
  · rintro (⟨rfl, rfl⟩ | ⟨p, b, h, k, l, r, rfl, hp, hn, rfl⟩)
    · exact .root
    · exact .edge b hp hn

theorem hufPath_cons_iff {nodes : List HufNode} {h k l r : Nat} (hn : nodes[h]? = some (.internal k l r)) {b : Bool}
    {q : Bits} {c : Word} : HufPath nodes h (b :: q) c ↔ HufPath nodes (if b then r else l) q c := by
  constructor
  · intro hp
    rcases hufPath_of_internal hp hn with ⟨q', hq, hp'⟩ | ⟨q', hq, hp'⟩ <;> cases hq <;> exact hp'
  · cases b with
    | false => exact .left hn
    | true => exact .right hn

/-- A path from the root that begins with the edges to a handle goes on as a path from that handle. -/
theorem EdgesTo.hufPath_append {nodes : List HufNode} {root : Nat} {p : Bits} {h : Nat} (hp : EdgesTo nodes root p h)
    {q : Bits} {c : Word} : HufPath nodes root (p ++ q) c ↔ HufPath nodes h q c := by
  induction hp generalizing q with
  | root => rfl
  | edge b _ hn ih => rw [List.append_assoc, List.singleton_append, ih, hufPath_cons_iff hn]

theorem EdgesTo.hufPath_iff {nodes : List HufNode} {root : Nat} {p : Bits} {h : Nat} (hp : EdgesTo nodes root p h)
    {c : Word} : HufPath nodes root p c ↔ HufPath nodes h [] c := by
  simpa using hp.hufPath_append (q := []) (c := c)

/-- The edges of a path from a handle lead on to a leaf of its symbol. -/
theorem EdgesTo.exists_leaf {nodes : List HufNode} {root h : Nat} {p q : Bits} {c : Word} (hq : EdgesTo nodes root q h)
    (hp : HufPath nodes h p c) : ∃ g k : Nat, nodes[g]? = some (.leaf c k) ∧ EdgesTo nodes root (q ++ p) g := by
  induction hp generalizing q with
  | leaf hn => exact ⟨_, _, hn, by rwa [List.append_nil]⟩
  | left hn _ ih => simpa using ih (hq.edge false hn)
  | right hn _ ih => simpa using ih (hq.edge true hn)

/-! ### In a well-formed tree the path to a handle is unique -/

/-- Two places of a list that are not related either way are the same place. -/
theorem index_eq_of_pairwise {α : Type} {R : α → α → Prop} {l : List α} (hl : l.Pairwise R) {i j : Nat} {x y : α}
    (hx : l[i]? = some x) (hy : l[j]? = some y) (hxy : ¬ R x y) (hyx : ¬ R y x) : i = j := by
  obtain ⟨hi, rfl⟩ := List.getElem?_eq_some_iff.mp hx
  obtain ⟨hj, rfl⟩ := List.getElem?_eq_some_iff.mp hy
  rcases lt_trichotomy i j with hlt | heq | hgt
  · exact absurd (List.pairwise_iff_getElem.mp hl i j hi hj hlt) hxy
  · exact heq
  · exact absurd (List.pairwise_iff_getElem.mp hl j i hj hi hgt) hyx

/-- Distinct symbols stand at distinct leaves. -/
theorem leaf_index_unique {nodes : List HufNode} (hsym : (leafSymbols nodes).Nodup) {g g' k k' : Nat} {c : Word}
    (hg : nodes[g]? = some (.leaf c k)) (hg' : nodes[g']? = some (.leaf c k')) : g = g' :=
  index_eq_of_pairwise (List.pairwise_filterMap.mp hsym) hg hg' (fun h => h c rfl c rfl rfl)
    (fun h => h c rfl c rfl rfl)

/-- When no handle is a child in two places, a child has one parent and is on one side of it. -/
theorem parent_unique {nodes : List HufNode} (hchild : (childHandles nodes).Nodup) {g g' k k' l l' r r' : Nat}
    {b b' : Bool} (hg : nodes[g]? = some (.internal k l r)) (hg' : nodes[g']? = some (.internal k' l' r'))
    (heq : (if b then r else l) = if b' then r' else l') : g = g' ∧ b = b' := by
  obtain ⟨hsides, hplaces⟩ := List.nodup_flatMap.mp hchild
  have hmem : ∀ (b : Bool) (l r : Nat), (if b then r else l) ∈ [l, r] := by
    rintro (_ | _) l r <;> simp
  have hshared : (if b then r else l) ∈ [l', r'] := heq ▸ hmem b' l' r'
  obtain rfl : g = g' := index_eq_of_pairwise hplaces hg hg' (fun h => h (hmem b l r) hshared)
    (fun h => h hshared (hmem b l r))
  cases hg.symm.trans hg'
  have hlr : l ≠ r := by simpa using hsides _ (List.mem_of_getElem? hg)
  refine ⟨rfl, ?_⟩
  match b, b', heq with
  | false, false, _ => rfl
  | true, true, _ => rfl
  | false, true, hsame => exact absurd hsame hlr
  | true, false, hsame => exact absurd hsame.symm hlr

theorem arenaWf_leafSymbols_nodup {t : HufTree} (ht : ArenaWf t) : (leafSymbols t.nodes).Nodup := by
  obtain ⟨-, hsym, -⟩ := ht
  exact hsym

theorem arenaWf_childHandles_nodup {t : HufTree} (ht : ArenaWf t) : (childHandles t.nodes).Nodup := by
  obtain ⟨hok, -, -, ⟨hnil, -⟩ | ⟨-, -, hcount⟩⟩ := ht
  · rw [hnil]
    exact List.nodup_nil
  · refine List.nodup_iff_count_le_one.mpr fun g => ?_
    by_cases hg : g ∈ childHandles t.nodes
    · obtain ⟨h, k, l, r, hn, hgc⟩ := mem_childHandles.mp hg
      obtain ⟨hlt, -⟩ := List.getElem?_eq_some_iff.mp hn
      have hchildren := NodesOk.children_lt hok hn
      rw [hcount g (by omega)]
      split <;> omega
    · rw [List.count_eq_zero_of_not_mem hg]
      exact Nat.zero_le 1

theorem arenaWf_root_not_child {t : HufTree} (ht : ArenaWf t) {root : Nat} (hroot : t.root = some root) :
    root ∉ childHandles t.nodes := by
  obtain ⟨-, -, -, ⟨-, hnone⟩ | ⟨hne, hlast, hcount⟩⟩ := ht
  · cases hnone.symm.trans hroot
  · have hpos := List.length_pos_iff.mpr hne
    obtain rfl : t.nodes.length - 1 = root := Option.some.inj (hlast.symm.trans hroot)
    rw [← List.count_eq_zero, hcount _ (by omega), if_pos (by omega)]

/-- In a well-formed tree one sequence of edges leads to a handle: the last edge comes from its one parent. -/
theorem EdgesTo.unique {t : HufTree} (ht : ArenaWf t) {root : Nat} (hroot : t.root = some root) {p q : Bits} {h : Nat}
    (hp : EdgesTo t.nodes root p h) (hq : EdgesTo t.nodes root q h) : p = q := by
  have hnotRoot : ∀ {g k l r : Nat} {b : Bool}, t.nodes[g]? = some (.internal k l r) →
      (if b then r else l) ≠ root := by
    rintro g k l r b hn rfl
    refine arenaWf_root_not_child ht hroot (mem_childHandles.mpr ⟨g, k, l, r, hn, ?_⟩)
    cases b <;> simp
  induction hp generalizing q with
  | root =>
    rcases edgesTo_iff.mp hq with ⟨rfl, -⟩ | ⟨q', b, g, k, l, r, -, -, hn, hg⟩
    · rfl
    · exact absurd hg.symm (hnotRoot hn)
  | edge b _ hn ih =>
    rcases edgesTo_iff.mp hq with ⟨-, hg⟩ | ⟨q', b', g', k', l', r', rfl, hq', hn', hg⟩
    · exact absurd hg (hnotRoot hn)
    · obtain ⟨rfl, rfl⟩ := parent_unique (arenaWf_childHandles_nodup ht) hn hn' hg
      rw [ih hq']

/-- In a well-formed tree one path leads from the root to a symbol. -/
theorem arenaWf_hufPath_unique {t : HufTree} (ht : ArenaWf t) {root : Nat} (hroot : t.root = some root) {p q : Bits}
    {c : Word} (hp : HufPath t.nodes root p c) (hq : HufPath t.nodes root q c) : p = q := by
  obtain ⟨g, k, hg, hpg⟩ := EdgesTo.root.exists_leaf hp
  obtain ⟨g', k', hg', hqg⟩ := EdgesTo.root.exists_leaf hq
  obtain rfl := leaf_index_unique (arenaWf_leafSymbols_nodup ht) hg hg'
  exact hpg.unique ht hroot hqg

/-! ### The table of an internal root (O36) -/

/-- The walk gives each symbol the one path that leads to it. -/
theorem tableGet_hufAssign_internal {t : HufTree} (ht : ArenaWf t) {root k l r : Nat} (hroot : t.root = some root)
    (hn : t.nodes[root]? = some (.internal k l r)) {c : Word} {p : Bits} :
    tableGet (hufAssign t) c = some p ↔ HufPath t.nodes root p c := by
  have hpath : ∀ {q}, tableGet (hufAssign t) c = some q → HufPath t.nodes root q c := fun {q} hq => by
    rw [hufAssign_internal hroot hn, tableGet_eq_some (hufWalk_sorted _ _ _ List.Pairwise.nil)] at hq
    exact hufPath_of_mem_hufWalk _ hq
  refine ⟨hpath, fun hp => ?_⟩
  have hsome := hufWalk_isSome_of_path (arenaWf_nodesOk ht) hp (Nat.lt_succ_self root) [] []
  rw [← hufAssign_internal hroot hn] at hsome
  obtain ⟨q, hq⟩ := Option.isSome_iff_exists.mp hsome
  rw [hq, arenaWf_hufPath_unique ht hroot hp (hpath hq)]

/-- Settles O36, by the root: none, a lone leaf, or an internal node. -/
theorem codeIsPathToLeaf : Obligations.CodeIsPathToLeaf := fun _ ht =>
  ⟨hufAssign_none, fun _ _ _ => hufAssign_leaf, fun _ _ _ _ hroot hn _ _ => tableGet_hufAssign_internal ht hroot hn⟩

/-! ### The tree walk from an internal root (R104) -/

theorem tableFind_hufAssign_internal {t : HufTree} (ht : ArenaWf t) {root k l r : Nat} (hroot : t.root = some root)
    (hn : t.nodes[root]? = some (.internal k l r)) {c : Word} {p : Bits} :
    tableFind (hufAssign t) p = some c ↔ HufPath t.nodes root p c := by
  have htable := hufAssign_tableWf ht
  rw [tableFind_eq_some (tableWf_prefixFree htable), ← tableGet_eq_some (tableWf_sorted htable),
    tableGet_hufAssign_internal ht hroot hn]

theorem walkEdge_internal {nodes : List HufNode} {h k l r : Nat} (hn : nodes[h]? = some (.internal k l r)) (b : Bool) :
    walkEdge nodes (.at h) b = .at (if b then r else l) := by
  simp only [walkEdge, hn]

theorem walkSymbol_leaf {nodes : List HufNode} {h k : Nat} {c : Word} (hn : nodes[h]? = some (.leaf c k)) :
    walkSymbol nodes (.at h) = some c := by
  simp only [walkSymbol, hn]

theorem walkSymbol_internal {nodes : List HufNode} {h k l r : Nat} (hn : nodes[h]? = some (.internal k l r)) :
    walkSymbol nodes (.at h) = none := by
  simp only [walkSymbol, hn]

/-- The child an edge leads to is a node of the arena. -/
theorem NodesOk.exists_child {nodes : List HufNode} (hok : NodesOk nodes) {h k l r : Nat}
    (hn : nodes[h]? = some (.internal k l r)) (b : Bool) : ∃ n, nodes[if b then r else l]? = some n := by
  obtain ⟨hlt, -⟩ := List.getElem?_eq_some_iff.mp hn
  have hchildren := hok.children_lt hn
  exact ⟨_, List.getElem?_eq_getElem (by split <;> omega)⟩

/-- While the candidate is the edges from the root to the internal node where the walk stands, both parsers go on alike:
the walk comes to a leaf exactly when the candidate becomes its codeword. -/
theorem walkLoop_eq_hufParseLoop {cap : Config.Capacity} {t : HufTree} (ht : ArenaWf t) {root kr lr rr : Nat}
    (hroot : t.root = some root) (hnr : t.nodes[root]? = some (.internal kr lr rr)) {o : List Word} {acc s : Bits}
    {h k l r : Nat} (hacc : EdgesTo t.nodes root acc h) (hn : t.nodes[h]? = some (.internal k l r)) :
    walkLoop cap t.nodes root o (.at h) s = hufParseLoop cap (hufAssign t) o acc s := by
  induction s generalizing o acc h k l r with
  | nil =>
    have hends : (WalkPos.at h = .at root) ↔ acc = [] := by
      rw [WalkPos.at.injEq]
      constructor
      · rintro rfl
        exact hacc.unique ht hroot .root
      · rintro rfl
        rcases edgesTo_iff.mp hacc with ⟨-, hh⟩ | ⟨p, b, _, _, _, _, hp, -⟩
        · exact hh
        · simp at hp
    simp only [walkLoop, hufParseLoop, hends]
  | cons b s ih =>
    have hacc' := hacc.edge b hn
    obtain ⟨n, hchild⟩ := (arenaWf_nodesOk ht).exists_child hn b
    rw [walkLoop, hufParseLoop, walkEdge_internal hn]
    cases n with
    | leaf c kc =>
      rw [walkSymbol_leaf hchild,
        (tableFind_hufAssign_internal ht hroot hnr).mpr (hacc'.hufPath_iff.mpr (.leaf hchild))]
      exact bind_congr fun o => ih .root hnr
    | internal kc lc rc =>
      have hnone : tableFind (hufAssign t) (acc ++ [b]) = none := by
        refine Option.eq_none_iff_forall_not_mem.mpr fun c hc => ?_
        have hpath := hacc'.hufPath_iff.mp ((tableFind_hufAssign_internal ht hroot hnr).mp hc)
        rcases hufPath_of_internal hpath hchild with ⟨q, hq, -⟩ | ⟨q, hq, -⟩ <;> cases hq
      rw [walkSymbol_internal hchild, hnone]
      exact ih hacc' hchild

/-! ### The tree walk from a lone leaf (R104) -/

/-- A walk off the tree stays off it. -/
theorem walkLoop_lost (cap : Config.Capacity) (nodes : List HufNode) (root : Nat) (o : List Word) (s : Bits) :
    walkLoop cap nodes root o .lost s = .error .malformedStream := by
  induction s with
  | nil => rfl
  | cons b s ih => exact ih

/-- A candidate that begins with 1 never becomes the codeword 0. -/
theorem hufParseLoop_lone_lost (cap : Config.Capacity) (c : Word) (o : List Word) (acc s : Bits) :
    hufParseLoop cap [(c, [false])] o (true :: acc) s = .error .malformedStream := by
  induction s generalizing acc with
  | nil => rfl
  | cons b s ih => exact ih (acc ++ [b])

theorem walkLoop_lone_leaf {cap : Config.Capacity} {nodes : List HufNode} {root k : Nat} {c : Word}
    (hn : nodes[root]? = some (.leaf c k)) (o : List Word) (s : Bits) :
    walkLoop cap nodes root o (.at root) s = hufParseLoop cap [(c, [false])] o [] s := by
  induction s generalizing o with
  | nil => simp [walkLoop, hufParseLoop]
  | cons b s ih =>
    cases b with
    | false =>
      have hedge : walkEdge nodes (.at root) false = .at root := by simp [walkEdge, hn]
      rw [walkLoop, hedge, walkSymbol_leaf hn]
      exact bind_congr ih
    | true =>
      have hedge : walkEdge nodes (.at root) true = .lost := by simp [walkEdge, hn]
      rw [walkLoop, hedge]
      exact (walkLoop_lost cap nodes root o s).trans (hufParseLoop_lone_lost cap c o [] s).symm

/-- Settles O37, by the root: a lone leaf or an internal node. -/
theorem treeWalkParsesAsTable : Obligations.TreeWalkParsesAsTable := by
  intro t root cap s ht hroot
  rcases arenaWf_root_cases ht with ⟨-, hnone⟩ | ⟨root', n, hroot', hn⟩
  · cases hnone.symm.trans hroot
  · obtain rfl : root' = root := Option.some.inj (hroot'.symm.trans hroot)
    rw [walkParse, hufParse]
    cases n with
    | leaf c k =>
      rw [hufAssign_leaf hroot hn]
      exact walkLoop_lone_leaf hn [] s
    | internal k l r => exact walkLoop_eq_hufParseLoop ht hroot hn .root hn

end Sys2Proof.Machine
end

section
/-! PROOFS. HUF.DISP: the rendering of the kept tree (spec 43_huffman.md R105, R108). -/

namespace Sys2Proof.Machine

open Sys2Proof.Safety

/-! ### Numbers and labels (R105) -/

/-- The digit loop gives Mathlib's digits, most significant first. -/
theorem digitLoop_eq_digits {base fuel n : Nat} (hbase : 2 ≤ base) (hn : 0 < n) (hfuel : n < fuel) :
    digitLoop base fuel n = (Nat.digits base n).reverse := by
  induction fuel generalizing n with
  | zero => exact absurd hfuel (Nat.not_lt_zero n)
  | succ fuel ih =>
    rw [digitLoop]
    split
    · rename_i hlt
      rw [Nat.digits_of_lt base n hn.ne' hlt, List.reverse_singleton]
    · rename_i hge
      have hdiv : 0 < n / base := Nat.div_pos (Nat.not_lt.mp hge) (by omega)
      have hless : n / base < n := Nat.div_lt_self hn hbase
      rw [ih hdiv (by omega), Nat.digits_def' hbase hn, List.reverse_cons]

theorem decBytes_eq_decSpec {k : Nat} (hk : 1 ≤ k) : decBytes k = decSpec k := by
  rw [decBytes, decSpec, digitLoop_eq_digits (by decide) hk (Nat.lt_succ_self k)]
  refine List.map_congr_left fun d hd => if_pos ?_
  exact Nat.digits_lt_base (by decide) (List.mem_reverse.mp hd)

theorem digitByte_eq_hexDigitSpec (d : Nat) : digitByte d = hexDigitSpec d := by
  have hletter : 0x41 + d - 10 = 55 + d := by omega
  rw [digitByte, hexDigitSpec, hletter]

/-- A number of one byte has two hexadecimal digits, the first 0 when the number is below 16. -/
theorem hexBytes_of_byte {n : Nat} (hn : n ≤ 255) : hexBytes n = [hexDigitSpec (n / 16), hexDigitSpec (n % 16)] := by
  rcases Nat.lt_or_ge n 16 with hlt | hge
  · have hdigits : digitLoop 16 (n + 1) n = [n] := by rw [digitLoop, if_pos hlt]
    have hquot : n / 16 = 0 := by omega
    have hrem : n % 16 = n := Nat.mod_eq_of_lt hlt
    simp [hexBytes, hdigits, hquot, hrem, digitByte_eq_hexDigitSpec]
  · obtain ⟨m, rfl⟩ := Nat.exists_eq_add_one_of_ne_zero (Nat.ne_of_gt (Nat.zero_lt_of_lt hge))
    have hdigits : digitLoop 16 (m + 1 + 1) (m + 1) = [(m + 1) / 16, (m + 1) % 16] := by
      rw [digitLoop, if_neg (by omega), digitLoop, if_pos (by omega)]
      rfl
    simp [hexBytes, hdigits, digitByte_eq_hexDigitSpec]

theorem labelBytes_eq_labelSpec {c : Word} (hc : c.toNat ≤ 255) : labelBytes c = labelSpec c := by
  rw [labelBytes, labelSpec, hexBytes_of_byte hc]

/-! ### The rendering of a well-formed tree (R105) -/

theorem freqAt_of_getElem? {nodes : List HufNode} {h : Nat} {n : HufNode} (hn : nodes[h]? = some n) :
    freqAt nodes h = n.freq := by
  rw [freqAt, hn]

/-- Every frequency is at least 1: a leaf's is, and an internal node's is the sum of its children's (R28). -/
theorem NodesOk.freqAt_pos {nodes : List HufNode} (hok : NodesOk nodes) (h : Nat) (hlt : h < nodes.length) :
    1 ≤ freqAt nodes h := by
  induction h using Nat.strong_induction_on with
  | _ h ih =>
    have hn := List.getElem?_eq_getElem hlt
    cases hnode : nodes[h] with
    | leaf c k =>
      rw [hnode] at hn
      rw [freqAt_of_getElem? hn]
      exact (hok.leaf hn).2
    | internal k l r =>
      rw [hnode] at hn
      have hchildren := hok.children_lt hn
      have hleft := ih l hchildren.1 (hchildren.1.trans hlt)
      have hfreq : freqAt nodes h = k := freqAt_of_getElem? hn
      have hsum := hok h hlt
      simp only [nodeOk, hn, Bool.and_eq_true, decide_eq_true_eq] at hsum
      omega

/-- The lines of a subtree are its rendering. -/
theorem renders_hufLines {nodes : List HufNode} (hok : NodesOk nodes) {fuel h : Nat} (hfuel : h < fuel)
    (hlt : h < nodes.length) (d : Nat) : Renders nodes h d (hufLines nodes fuel h d) := by
  induction fuel generalizing h d with
  | zero => exact absurd hfuel (Nat.not_lt_zero h)
  | succ fuel ih =>
    have hn := List.getElem?_eq_getElem hlt
    have hpos := hok.freqAt_pos h hlt
    rw [freqAt_of_getElem? hn] at hpos
    cases hnode : nodes[h] with
    | leaf c k =>
      rw [hnode] at hn hpos
      have hfreq : decBytes k = decSpec k := decBytes_eq_decSpec hpos
      simp only [hufLines, hn, labelBytes_eq_labelSpec (hok.leaf hn).1, hfreq]
      simpa using Renders.leaf (d := d) hn
    | internal k l r =>
      rw [hnode] at hn hpos
      obtain ⟨hl, hr⟩ := hok.children_lt hn
      have hfreq : decBytes k = decSpec k := decBytes_eq_decSpec hpos
      simp only [hufLines, hn, hfreq]
      exact .internal hn (ih (by omega) (hl.trans hlt) (d + 1)) (ih (by omega) (hr.trans hlt) (d + 1))

theorem rendersTree_hufRender {t : HufTree} (ht : ArenaWf t) : RendersTree t (hufRender t) := by
  rcases arenaWf_root_cases ht with ⟨-, hnone⟩ | ⟨root, n, hroot, hn⟩
  · exact .inl ⟨hnone, by rw [hufRender, hnone]⟩
  · refine .inr ⟨root, hroot, ?_⟩
    rw [hufRender, hroot]
    exact renders_hufLines (arenaWf_nodesOk ht) (Nat.lt_succ_self root) (List.getElem?_eq_some_iff.mp hn).1 0

/-! ### HUF.DISP (O24) -/

theorem map_byteWord (b : List Byte) : b.map byteWord = b.map fun e => BitVec.ofNat 32 e.toNat :=
  List.map_congr_left fun e _ => (BitVec.ofNat_toNat 32 e).symm

theorem exec_hufDisp {s : State} (hvalid : s.huf.valid = true) :
    exec .hufDisp s = s.finish (emitAll s.maxOut [] ((hufRender s.huf.tree).map byteWord) >>= fun o =>
      .ok { out := o }) := by
  rw [exec, execHufDisp, keptHuf_of_valid hvalid, except_bind_ok]
  rfl

/-- Settles O24: the state is checked, then the lines of the kept tree are emitted from an empty OUT. -/
theorem hufDispCommand : Obligations.HufDispCommand := by
  refine ⟨decode_encode .hufDisp, fun s hvalid => ?_, fun s hinv hvalid => ?_⟩
  · rw [exec, execHufDisp, keptHuf_of_not_valid hvalid]
    rfl
  · obtain ⟨harena, -⟩ := hinv.1 hvalid
    have hlen : ([] : List Word).length + ((hufRender s.huf.tree).map byteWord).length =
        (hufRender s.huf.tree).length := by simp
    refine ⟨_, rendersTree_hufRender harena, ?_⟩
    rw [exec_hufDisp hvalid, ← map_byteWord]
    refine ⟨fun hfits => ?_, fun hfull => ?_⟩
    · rw [emitAll_ok (hlen.symm ▸ hfits : Holds _ _), except_bind_ok, finish_ok_eq_okState, List.nil_append]
    · rw [emitAll_error (holds_nil _) (hlen.symm ▸ hfull)]
      rfl

end Sys2Proof.Machine
end

section
/-! PROOFS. How a command ends (spec 60_exceptions.md R131 to R139, R143): which errors its pseudocode can raise, and
what a state that ends with an error holds. -/

namespace Sys2Proof.Machine

open Sys2Proof.Safety

/-! ### The errors of a command

`Ends` says when CapacityExceeded is raised; `Raises` says of every error which commands can raise it. -/

/-- The errors the pseudocode of `i` can raise: StatePrecondition is for the commands that need a kept code (R136), and
IllegalCommand for the bytes that are no command (R137). -/
def CanRaise (i : Instr) (e : Err) : Prop :=
  match e with
  | .invalidInput | .malformedStream | .capacityExceeded => True
  | .statePrecondition => i = .hufDec ∨ i = .hufDisp
  | .illegalCommand => False

/-- If `x` ends with an error, it is one `i` can raise. -/
def Raises {α : Type} (i : Instr) (x : Except Err α) : Prop := ∀ e, x = .error e → CanRaise i e

section Rules

variable {α β : Type} {i : Instr}

@[simp] theorem raises_ok (a : α) : Raises i (.ok a : Except Err α) := fun _ h => by cases h

@[simp] theorem raises_pure (a : α) : Raises i (pure a : Except Err α) := raises_ok a

@[simp] theorem raises_error {e : Err} : Raises i (.error e : Except Err α) ↔ CanRaise i e := by
  simp [Raises]

theorem Raises.bind {x : Except Err α} {f : α → Except Err β} (hx : Raises i x) (hf : ∀ a, Raises i (f a)) :
    Raises i (x >>= f) := by
  intro e h
  rcases except_bind_eq_error.mp h with hxe | ⟨a, -, hfe⟩
  · exact hx e hxe
  · exact hf a e hfe

/-- A computation that goes on only to return its result raises no further error. -/
theorem Raises.returns {x : Except Err α} (hx : Raises i x) (f : α → β) : Raises i (x >>= fun a => pure (f a)) :=
  hx.bind fun a => raises_pure (f a)

@[simp] theorem canRaise_invalidInput : CanRaise i .invalidInput := trivial

@[simp] theorem canRaise_malformedStream : CanRaise i .malformedStream := trivial

@[simp] theorem canRaise_capacityExceeded : CanRaise i .capacityExceeded := trivial

end Rules

section Operations

variable (i : Instr) (cap : Config.Capacity)

/-! ### Emission and the operand checks -/

theorem emit_raises (o : List Word) (e : Word) : Raises i (emit cap o e) := by
  unfold emit
  split <;> simp

theorem emitAll_raises (o x : List Word) : Raises i (emitAll cap o x) := by
  rcases emitAll_cases cap o x with ⟨h, -⟩ | ⟨h, -⟩ <;> simp [h]

theorem argPositive_raises (s : State) : Raises i (argPositive s) := by
  unfold argPositive
  split <;> simp

theorem checkBits_raises (x : List Word) : Raises i (checkBits x) := by
  unfold checkBits
  split <;> simp

theorem checkText_raises (x : List Word) : Raises i (checkText x) := by
  unfold checkText
  split <;> simp

theorem keptHuf_raises (hi : i = .hufDec ∨ i = .hufDisp) (s : State) : Raises i (keptHuf s) := by
  unfold keptHuf
  split
  · exact raises_ok _
  · exact raises_error.mpr hi

/-! ### The codeword decoders and encoders -/

theorem unaryPrefix_raises (s : Bits) : Raises i (unaryPrefix s) := by
  induction s with
  | nil => simp [unaryPrefix]
  | cons b t ih =>
    cases b with
    | true => exact raises_ok _
    | false => exact ih.returns _

theorem grDecode1_raises (s : Bits) : Raises i (grDecode1 s) := by
  refine (unaryPrefix_raises i s).bind fun ⟨q, t⟩ => ?_
  simp only
  split <;> simp

theorem egDecode1_raises (s : Bits) : Raises i (egDecode1 s) := by
  refine (unaryPrefix_raises i s).bind fun ⟨z, t⟩ => ?_
  simp only
  split <;> simp

theorem fibScan_raises (prev : Bool) (s : Bits) : Raises i (fibScan prev s) := by
  induction s generalizing prev with
  | nil => simp [fibScan]
  | cons b t ih =>
    rw [fibScan]
    split
    · exact raises_ok _
    · exact (ih b).returns _

theorem fibDecode1_raises (s : Bits) : Raises i (fibDecode1 s) := by
  refine (fibScan_raises i false s).bind fun sel => ?_
  split <;> simp

theorem egSymbol_raises (c : Word) : Raises i (egSymbol c) := by
  unfold egSymbol
  split <;> simp

theorem fibSymbol_raises (c : Word) : Raises i (fibSymbol c) := by
  unfold fibSymbol
  split <;> simp

end Operations

/-! ### The shared loops and commands -/

section Commands

variable {i : Instr} {code : Word → Except Err Bits} {dec : Bits → Except Err (Nat × Nat)}

theorem encodeLoop_raises (hcode : ∀ c, Raises i (code c)) (cap : Config.Capacity) (o text : List Word) :
    Raises i (encodeLoop cap code o text) := by
  induction text generalizing o with
  | nil => exact raises_ok o
  | cons c t ih => exact (hcode c).bind fun w => (emitAll_raises i cap o (bitWords w)).bind ih

theorem decodeLoop_raises (hdec : ∀ s, Raises i (dec s)) (cap : Config.Capacity) (fuel : Nat) (o : List Word)
    (s : Bits) : Raises i (decodeLoop cap dec fuel o s) := by
  induction fuel generalizing o s with
  | zero => cases s <;> simp [decodeLoop]
  | succ fuel ih =>
    cases s with
    | nil => exact raises_ok o
    | cons b t =>
      refine (hdec (b :: t)).bind fun ⟨v, n⟩ => ?_
      simp only
      split
      · simp
      · exact (emit_raises i cap o _).bind fun o' => ih o' _

theorem hufParseLoop_raises (cap : Config.Capacity) (T : List (Word × Bits)) (o : List Word) (acc s : Bits) :
    Raises i (hufParseLoop cap T o acc s) := by
  induction s generalizing o acc with
  | nil =>
    rw [hufParseLoop]
    split <;> simp
  | cons b t ih =>
    rw [hufParseLoop]
    split
    · exact (emit_raises i cap o _).bind fun o' => ih o' []
    · exact ih o _

theorem encodeOne_raises (cap : Config.Capacity) (w : Bits) : Raises i (encodeOne cap w) :=
  (emitAll_raises i cap [] (bitWords w)).returns _

theorem encodeText_raises (hcode : ∀ c, Raises i (code c)) (cap : Config.Capacity) (text : List Word) :
    Raises i (encodeText cap code text) :=
  (encodeLoop_raises hcode cap [] text).returns _

theorem decodeText_raises (hdec : ∀ s, Raises i (dec s)) (cap : Config.Capacity) (s : Bits) :
    Raises i (decodeText cap dec s) :=
  (decodeLoop_raises hdec cap s.length [] s).returns _

theorem decodeOne_raises (hdec : ∀ s, Raises i (dec s)) (s : Bits) : Raises i (decodeOne dec s) := by
  refine (hdec s).bind fun ⟨v, n⟩ => ?_
  simp only
  split <;> simp

end Commands

/-- The pseudocode of every command raises only the errors it can raise (R132 to R138). -/
theorem exec_raises (i : Instr) (s : State) : ∃ r, exec i s = s.finish r ∧ Raises i r := by
  have hbits (i : Instr) := checkBits_raises i s.inp
  have htext (i : Instr) := checkText_raises i s.inp
  cases i with
  | grEnc => exact ⟨_, rfl, encodeOne_raises _ _⟩
  | egEnc | fibEnc => exact ⟨_, rfl, (argPositive_raises _ s).bind fun _ => encodeOne_raises _ _⟩
  | grDec => exact ⟨_, rfl, (hbits _).bind (decodeOne_raises (grDecode1_raises _))⟩
  | egDec => exact ⟨_, rfl, (hbits _).bind (decodeOne_raises (egDecode1_raises _))⟩
  | fibDec => exact ⟨_, rfl, (hbits _).bind (decodeOne_raises (fibDecode1_raises _))⟩
  | grEnct => exact ⟨_, rfl, (htext _).bind (encodeText_raises (fun _ => raises_ok _) _)⟩
  | egEnct => exact ⟨_, rfl, (htext _).bind (encodeText_raises (egSymbol_raises _) _)⟩
  | fibEnct => exact ⟨_, rfl, (htext _).bind (encodeText_raises (fibSymbol_raises _) _)⟩
  | grDect => exact ⟨_, rfl, (hbits _).bind (decodeText_raises (grDecode1_raises _) _)⟩
  | egDect => exact ⟨_, rfl, (hbits _).bind (decodeText_raises (egDecode1_raises _) _)⟩
  | fibDect => exact ⟨_, rfl, (hbits _).bind (decodeText_raises (fibDecode1_raises _) _)⟩
  | fibGen => exact ⟨_, rfl, (emitAll_raises _ _ _ _).returns _⟩
  | hufEnc =>
    exact ⟨_, rfl, (htext _).bind fun _ => (encodeLoop_raises (fun _ => raises_ok _) _ _ _).returns _⟩
  | hufDec =>
    exact ⟨_, rfl, (keptHuf_raises _ (.inl rfl) s).bind fun _ => (hbits _).bind fun _ =>
      (hufParseLoop_raises _ _ _ _ _).returns _⟩
  | hufDisp =>
    exact ⟨_, rfl, (keptHuf_raises _ (.inr rfl) s).bind fun _ => (emitAll_raises _ _ _ _).returns _⟩

/-! ### The codes of the errors a command can raise (R131) -/

theorem Err.code_eq_three {e : Err} : e.code = 3 ↔ e = .statePrecondition := by cases e <;> decide

theorem CanRaise.code_mem {i : Instr} {e : Err} (h : CanRaise i e) : e.code ∈ [(0 : BitVec 8), 1, 2, 3, 5] := by
  cases e with
  | invalidInput | malformedStream | statePrecondition | capacityExceeded => simp [Err.code]
  | illegalCommand => exact h.elim

/-! ### Every command ends with a status (O41) -/

/-- Settles O41: a completion has STATUS 0, an error the code of one that the command can raise. -/
theorem everyCommandEndsWithStatus : Obligations.EveryCommandEndsWithStatus := by
  intro i s
  obtain ⟨r, hr, hraises⟩ := exec_raises i s
  cases r with
  | ok c => exact ⟨s.complete c, hr, by simp [statusOk], by simp [statusOk]⟩
  | error e =>
    have he : CanRaise i e := hraises e rfl
    refine ⟨s.raise e, hr, he.code_mem, fun h3 => ?_⟩
    obtain rfl := Err.code_eq_three.mp h3
    exact he

/-! ### A failed command leaves nothing (O40) -/

/-- A command that ends with a status other than 0 raised an error (R143). -/
theorem exec_failed {i : Instr} {s t : State} (h : exec i s = .next t) (hfail : t.status ≠ 0) :
    t = errState s t.status := by
  rcases exec_eq_next h with ⟨c, rfl, -⟩ | ⟨e, rfl, -⟩
  · exact absurd rfl hfail
  · exact raise_eq_errState s e

/-- Settles O40: a start runs a command of the map or raises IllegalCommand. -/
theorem failedCommandLeavesNothing : Obligations.FailedCommandLeavesNothing := by
  refine ⟨fun s t h hfail => ?_, fun _ _ _ => exec_failed⟩
  cases hd : decode s.cmd with
  | ok i => exact exec_failed (startCommand_of_decode hd ▸ h) hfail
  | error _ =>
    have hreserved := startCommand_of_no_command (s := s) fun i hi => by cases hd.symm.trans hi
    cases hreserved.symm.trans h
    rfl

end Sys2Proof.Machine
end

section
/-! PROOFS. Reset (spec 70_reset_and_hazards.md R151). -/

namespace Sys2Proof.Machine

open Sys2Proof.Safety

/-- The state the machine starts in is itself the result of a reset. -/
theorem hostReset_stateReset : hostReset State.reset = State.reset := rfl

/-- P0 to P3 are constants: their reads do not depend on the state (R26). -/
theorem hostRead_parameter_eq (s t : State) {p : HostReg}
    (hp : p ∈ [HostReg.paramM, .paramRbits, .paramValw, .paramSymmax]) : hostRead t p = hostRead s p := by
  obtain ⟨hM, hRbits, hValw, hSymmax, -⟩ := parametersReadHardwired s
  obtain ⟨hM', hRbits', hValw', hSymmax', -⟩ := parametersReadHardwired t
  simp only [List.mem_cons, List.not_mem_nil, or_false] at hp
  rcases hp with rfl | rfl | rfl | rfl
  · exact hM'.trans hM.symm
  · exact hRbits'.trans hRbits.symm
  · exact hValw'.trans hValw.symm
  · exact hSymmax'.trans hSymmax.symm

/-- Settles O6: either state is the result of a reset, whose fields are those of `State.reset` and `Huf.reset`. -/
theorem resetSetsEveryRegister : Obligations.ResetSetsEveryRegister := by
  intro s t ht
  obtain ⟨u, rfl⟩ : ∃ u, t = hostReset u := by
    rcases ht with rfl | rfl
    · exact ⟨s, rfl⟩
    · exact ⟨State.reset, hostReset_stateReset.symm⟩
  have hhuf : (hostReset u).huf = Huf.reset := hostReset_huf u
  exact ⟨hostReset_cmd u, hostReset_arg u, hostReset_inp u, hostReset_out u, hostReset_res u, hostReset_cnt u,
    hostReset_status u, congrArg (·.valid) hhuf, congrArg (·.tree.nodes) hhuf, congrArg (·.tree.root) hhuf,
    congrArg (·.table) hhuf, fun _ => hostRead_parameter_eq s (hostReset u)⟩

end Sys2Proof.Machine
end
